-- ==== Sys2Proof/Word.lean ====
section
/-! DEFINITION. The words of the CORE: bytes, byte strings and the 32-bit bus word (00_scope.md R12). -/

namespace Sys2Proof

/-- One byte (R12). -/
abbrev Byte := BitVec 8

/-- A command word, or the value of a 32-bit register (30_encoding.md R90, 10_state.md R37). -/
abbrev Word := BitVec 32

/-- A byte string, byte 0 first (R12). -/
abbrev Bytes := List Byte

/-- `zeros(n)` of R12. -/
def zeros (n : Nat) : Bytes := List.replicate n 0

end Sys2Proof
end

