-- ==== Sys2Proof/Syntax.lean ====
section
/-! DEFINITION. The ten commands (30_encoding.md R92) and the named values of their fields (R93). -/

namespace Sys2Proof

/-- The construction a session runs: field ENG (10_state.md R22, 00_scope.md R8). The reserved value 3 is no engine. -/
inductive Engine where
  | ctr
  | hba
  | rcs
  deriving DecidableEq, Repr, Inhabited

/-- The key-size class: field CLS (10_state.md R22, 00_scope.md R8). -/
inductive KeyClass where
  | class0
  | class1
  deriving DecidableEq, Repr, Inhabited

/-- Field DIR: 0 encrypt, 1 decrypt (10_state.md R22). -/
inductive Direction where
  | encrypt
  | decrypt
  deriving DecidableEq, Repr, Inhabited

/-- Field CE: the counter's increment, 0 big-endian, 1 little-endian (10_state.md R22). -/
inductive CounterOrder where
  | bigEndian
  | littleEndian
  deriving DecidableEq, Repr, Inhabited

/-- Field KDF: 0 the HKDF-extension, 1 the KMAC-extension (10_state.md R22). -/
inductive KdfStrategy where
  | hkdf
  | kmac
  deriving DecidableEq, Repr, Inhabited

/-- A command: one constructor per row of the opcode map (30_encoding.md R92). `len` is the field LEN, used as an
unsigned integer (R94). -/
inductive Instr where
  /-- Stage a key (44_commands.md R184). -/
  | ldkey (len : BitVec 16)
  /-- Stage a nonce (44_commands.md R185). -/
  | ldnonce (len : BitVec 16)
  /-- Stage the key-derivation info (44_commands.md R186). -/
  | ldinfo (len : BitVec 16)
  /-- Start a session (44_commands.md R187). -/
  | init (eng : Engine) (cls : KeyClass) (dir : Direction) (ce : CounterOrder) (kdf : KdfStrategy)
  /-- Absorb associated data (44_commands.md R188). -/
  | setaad (len : BitVec 16)
  /-- Transform data (44_commands.md R189). -/
  | xform (len : BitVec 16)
  /-- Produce the tag (44_commands.md R190). -/
  | final
  /-- Compare a received tag (44_commands.md R191). -/
  | verify (len : BitVec 16)
  /-- Read out the counter block (44_commands.md R192). -/
  | stnonce
  /-- Zero everything (44_commands.md R193). -/
  | dispose
  deriving DecidableEq, Repr

end Sys2Proof
end

