-- ==== Sys2Proof/WellFormed.lean ====
section
/-! DEFINITION. Which terms of `Instr` are legal commands: the side conditions of INIT (30_encoding.md R93). -/

namespace Sys2Proof

/-- INIT's KDF field may be 1 only when ENG = 1 (R93). That ENG is not 3, and that every must-be-zero field is 0, hold
by the shape of `Instr`. -/
def wellFormed : Instr → Bool
  | .init eng _ _ _ kdf => decide (kdf = .kmac → eng = .hba)
  | .ldkey _ | .ldnonce _ | .ldinfo _ | .setaad _ | .xform _ | .verify _ => true
  | .final | .stnonce | .dispose => true

/-- `i` is one of the legal commands. -/
abbrev WellFormed (i : Instr) : Prop := wellFormed i = true

end Sys2Proof
end

