-- ==== Sys2Proof/Decode.lean ====
section
/-! DEFINITION. The command word: decoding, total on any bytes, and encoding (30_encoding.md R90 to R96), with the
byte order of the word on the bus (20_memory.md R69). -/

namespace Sys2Proof

/-- Why bytes are no command (30_encoding.md R95). -/
inductive DecodeError where
  /-- Fewer than four bytes: no command word at all. -/
  | truncated
  /-- OPC is 0x00 or 0x0B..0xFF. -/
  | illegalOpcode
  /-- OPC is not 0x04 and MOD is not 0. -/
  | modNotZero
  /-- OPC is 0x04, 0x07, 0x09 or 0x0A and LEN is not 0. -/
  | lenNotZero
  /-- INIT with MOD[7:6] not 0. -/
  | initReserved
  /-- INIT with ENG = 3. -/
  | initEngine
  /-- INIT with KDF = 1 and ENG not HBA. -/
  | initKdf
  deriving DecidableEq, Repr

/-! ### The codes of the fields (R93; 10_state.md R22) -/

/-- ENG's two bits. -/
def engCode : Engine → BitVec 2
  | .ctr => 0
  | .hba => 1
  | .rcs => 2

/-- The engine of two bits, none for the reserved 3. -/
def engOfCode (c : BitVec 2) : Option Engine :=
  if c = 0 then some .ctr else if c = 1 then some .hba else if c = 2 then some .rcs else none

/-- CLS's bit. -/
def clsBit : KeyClass → Bool
  | .class0 => false
  | .class1 => true

def clsOfBit (b : Bool) : KeyClass := if b then .class1 else .class0

/-- DIR's bit: 1 is decrypt. -/
def dirBit : Direction → Bool
  | .encrypt => false
  | .decrypt => true

def dirOfBit (b : Bool) : Direction := if b then .decrypt else .encrypt

/-- CE's bit: 1 is little-endian. -/
def ceBit : CounterOrder → Bool
  | .bigEndian => false
  | .littleEndian => true

def ceOfBit (b : Bool) : CounterOrder := if b then .littleEndian else .bigEndian

/-- KDF's bit: 1 is the KMAC-extension. -/
def kdfBit : KdfStrategy → Bool
  | .hkdf => false
  | .kmac => true

def kdfOfBit (b : Bool) : KdfStrategy := if b then .kmac else .hkdf

/-! ### The word's fields (R90) -/

/-- OPC = cw[31:24]. -/
def opcField (cw : Word) : Byte := cw.extractLsb' 24 8

/-- MOD = cw[23:16]. -/
def modField (cw : Word) : Byte := cw.extractLsb' 16 8

/-- LEN = cw[15:0]. -/
def lenField (cw : Word) : BitVec 16 := cw.extractLsb' 0 16

/-! ### Decoding (R96) -/

/-- INIT's MOD field (R93): ENG 1:0, CLS 2, DIR 3, CE 4, KDF 5, 7:6 zero. -/
def decodeInit (md : Byte) : Except DecodeError Instr :=
  if md.extractLsb' 6 2 ≠ 0 then .error .initReserved
  else match engOfCode (md.extractLsb' 0 2) with
    | none => .error .initEngine
    | some eng =>
      if md.getLsbD 5 = true ∧ eng ≠ .hba then .error .initKdf
      else .ok (.init eng (clsOfBit (md.getLsbD 2)) (dirOfBit (md.getLsbD 3)) (ceOfBit (md.getLsbD 4))
        (kdfOfBit (md.getLsbD 5)))

/-- `Decode(cw)` of R96, an illegal word answered by the reason. -/
def decodeWord (cw : Word) : Except DecodeError Instr :=
  let opc := opcField cw
  let md := modField cw
  let len := lenField cw
  if opc = 0x04 then
    if len ≠ 0 then .error .lenNotZero else decodeInit md
  else if md ≠ 0 then
    if opc = 0x00 ∨ 0x0A < opc then .error .illegalOpcode else .error .modNotZero
  else if opc = 0x01 then .ok (.ldkey len)
  else if opc = 0x02 then .ok (.ldnonce len)
  else if opc = 0x03 then .ok (.ldinfo len)
  else if opc = 0x05 then .ok (.setaad len)
  else if opc = 0x06 then .ok (.xform len)
  else if opc = 0x08 then .ok (.verify len)
  else if opc = 0x07 then if len ≠ 0 then .error .lenNotZero else .ok .final
  else if opc = 0x09 then if len ≠ 0 then .error .lenNotZero else .ok .stnonce
  else if opc = 0x0A then if len ≠ 0 then .error .lenNotZero else .ok .dispose
  else .error .illegalOpcode

/-- A 32-bit word as the hardware stores it: little-endian, the byte at the lowest address is bits 7:0
(20_memory.md R69 item 4). -/
def wordBytes (w : Word) : Bytes :=
  [w.extractLsb' 0 8, w.extractLsb' 8 8, w.extractLsb' 16 8, w.extractLsb' 24 8]

/-- The word of four bytes, the byte at the lowest address first. -/
def wordOfBytes (b0 b1 b2 b3 : Byte) : Word := b3 ++ b2 ++ b1 ++ b0

/-- Decode the first command of a byte string and answer it with the bytes after it; every string has an answer. -/
def decode : Bytes → Except DecodeError (Instr × Bytes)
  | b0 :: b1 :: b2 :: b3 :: rest =>
    match decodeWord (wordOfBytes b0 b1 b2 b3) with
    | .ok i => .ok (i, rest)
    | .error e => .error e
  | _ => .error .truncated

/-- The command of an opcode-table row's bits: the word's four bytes as the hardware stores them, given to `decode`.
Bits above `nbits` are 0. -/
def decodeTableWord (nbits w : Nat) : Option Instr :=
  match decode (wordBytes (BitVec.ofNat 32 (w % 2 ^ nbits))) with
  | .ok (i, _) => some i
  | .error _ => none

/-! ### Encoding (R96) -/

/-- A word from its three fields (R90). -/
def fieldsWord (opc md : Byte) (len : BitVec 16) : Word := opc ++ md ++ len

/-- OPC of each command (R92). -/
def opcode : Instr → Byte
  | .ldkey _ => 0x01
  | .ldnonce _ => 0x02
  | .ldinfo _ => 0x03
  | .init .. => 0x04
  | .setaad _ => 0x05
  | .xform _ => 0x06
  | .final => 0x07
  | .verify _ => 0x08
  | .stnonce => 0x09
  | .dispose => 0x0A

/-- INIT's MOD byte (R93): `k<<5 | ce<<4 | d<<3 | c<<2 | e`. -/
def initMod (eng : Engine) (cls : KeyClass) (dir : Direction) (ce : CounterOrder) (kdf : KdfStrategy) : Byte :=
  (0#2 ++ BitVec.ofBool (kdfBit kdf) ++ BitVec.ofBool (ceBit ce) ++ BitVec.ofBool (dirBit dir)
    ++ BitVec.ofBool (clsBit cls) ++ engCode eng : BitVec 8)

/-- `Encode` of R96. -/
def encodeWord (i : Instr) : Word :=
  match i with
  | .ldkey len | .ldnonce len | .ldinfo len | .setaad len | .xform len | .verify len => fieldsWord (opcode i) 0 len
  | .init eng cls dir ce kdf => fieldsWord (opcode i) (initMod eng cls dir ce kdf) 0
  | .final | .stnonce | .dispose => fieldsWord (opcode i) 0 0

/-- The bytes of a command's word as the hardware stores them. -/
def encode (i : Instr) : Bytes := wordBytes (encodeWord i)

end Sys2Proof
end

