-- ==== Sys2Proof/Config.lean ====
section
/-! DEFINITION. What is fixed for one CORE: the parameters (00_scope.md R8 to R11, 20_memory.md R68) and the external
engines (00_scope.md R6, R10). Log entries 2 to 7, 9 and 17. -/

namespace Sys2Proof

/-- One row of the table of 00_scope.md R8, all lengths in bytes. The nonce length is `blockLen` (R9). -/
structure VariantParams where
  supported : Bool
  keyLen : Nat
  blockLen : Nat
  tagLen : Nat
  mkeyLen : Nat
  aadMax : Nat
  infoMax : Nat
  /-- RC, the rate class handed to the MAC engine. -/
  rc : Nat
  /-- ROUNDS of an RCS class; for CTR and HBA, where the table says "engine's own", the base block cipher's round count. No
  rule of the CORE reads it (log entry 17). -/
  rounds : Nat
  deriving DecidableEq, Repr

/-- The parameters of one implementation and platform: R8 (one field per variant), R10 (KDF_SUPPORTED), R11 and
20_memory.md R61, R68. -/
structure Params where
  ctr0 : VariantParams
  ctr1 : VariantParams
  hba0 : VariantParams
  hba1 : VariantParams
  rcs0 : VariantParams
  rcs1 : VariantParams
  hkdfSupported : Bool
  kmacSupported : Bool
  ibufMax : Nat
  obufMax : Nat
  base : Nat
  busFaultOnBadAccess : Bool
  deriving DecidableEq, Repr

/-- The row of a variant (R8). -/
def Params.variant (p : Params) : Engine → KeyClass → VariantParams
  | .ctr, .class0 => p.ctr0
  | .ctr, .class1 => p.ctr1
  | .hba, .class0 => p.hba0
  | .hba, .class1 => p.hba1
  | .rcs, .class0 => p.rcs0
  | .rcs, .class1 => p.rcs1

/-- The largest value of one column of the table of R8. -/
def Params.maxOf (p : Params) (f : VariantParams → Nat) : Nat :=
  max (max (max (f p.ctr0) (f p.ctr1)) (max (f p.hba0) (f p.hba1))) (max (f p.rcs0) (f p.rcs1))

/-- KEY_CAP = max KEYLEN (R11). -/
def Params.keyCap (p : Params) : Nat := p.maxOf VariantParams.keyLen

/-- NONCE_CAP = max BLOCKLEN (R11). -/
def Params.nonceCap (p : Params) : Nat := p.maxOf VariantParams.blockLen

/-- INFO_CAP = max INFO_MAX (R11). -/
def Params.infoCap (p : Params) : Nat := p.maxOf VariantParams.infoMax

/-- The size of MKEY, "the largest MKEYLEN" (10_state.md R27). -/
def mkeyCap : Nat := 64

/-- What every legal configuration satisfies: the lengths the source fixes and the zeros of the CTR rows (R8), the
constraints of R11 and 20_memory.md R61, and what the registers' widths force (log entry 4). -/
structure Params.Legal (p : Params) : Prop where
  /-- `ceil(n / BL)` (40_ctr_keystream.md R115) needs a block (log entry 4). -/
  blockLen_pos : ∀ e c, 0 < (p.variant e c).blockLen
  /-- "KEYN = 0 is the null key" (44_commands.md R187; log entry 4). -/
  keyLen_pos : ∀ e c, 0 < (p.variant e c).keyLen
  /-- KEYLEN of CTR and HBA is fixed by the source (R8, "src"); that of RCS is an argument (90_conflicts.md C7). -/
  keyLen_src : ∀ e, e ≠ .rcs → (p.variant e .class0).keyLen = 16 ∧ (p.variant e .class1).keyLen = 32
  /-- "32 bytes for the 256-bit-class variant" (R8, "src"). -/
  hba1_tagLen : p.hba1.tagLen = 32
  /-- "Key-size classes determine distinct tag sizes" (R8's note; the nonce sizes are left open: 90_conflicts.md C13). -/
  rcs_tagLen_ne : p.rcs0.tagLen ≠ p.rcs1.tagLen
  /-- Every authenticated variant has TAGLEN ≥ 1 (43_tag_compare.md R170). -/
  tagLen_pos : ∀ e c, e ≠ .ctr → 0 < (p.variant e c).tagLen
  /-- A CTR variant has no tag, no MAC key, no associated data, no info (R8, 40_ctr_keystream.md R118). -/
  ctr_zero : ∀ c, (p.variant .ctr c).tagLen = 0 ∧ (p.variant .ctr c).mkeyLen = 0 ∧
    (p.variant .ctr c).aadMax = 0 ∧ (p.variant .ctr c).infoMax = 0
  /-- MKEY holds any MKEYLEN (10_state.md R27; log entry 4). -/
  mkeyLen_le : ∀ e c, (p.variant e c).mkeyLen ≤ mkeyCap
  /-- AADT never wraps (10_state.md R30; log entry 4). -/
  aadMax_lt : ∀ e c, (p.variant e c).aadMax < 2 ^ 64
  /-- ROUNDS(RCS,1) > ROUNDS(RCS,0) (R8's note). -/
  rounds_lt : p.rcs0.rounds < p.rcs1.rounds
  /-- ROUNDS(RCS,0) > the base block cipher's round count (R8's note). -/
  rounds_base : ∀ e c, e ≠ .rcs → (p.variant e c).rounds < p.rcs0.rounds
  ibufMax_ge : 256 ≤ p.ibufMax
  ibufMax_le : p.ibufMax ≤ 65535
  obufMax_ge : 64 ≤ p.obufMax
  obufMax_le : p.obufMax ≤ 65535
  keyCap_le : p.keyCap ≤ p.ibufMax
  nonceCap_le : p.nonceCap ≤ p.ibufMax
  infoCap_le : p.infoCap ≤ p.ibufMax
  tagLen_le_ibuf : ∀ e c, (p.variant e c).tagLen ≤ p.ibufMax
  tagLen_le_obuf : ∀ e c, (p.variant e c).tagLen ≤ p.obufMax
  blockLen_le_obuf : ∀ e c, (p.variant e c).blockLen ≤ p.obufMax
  /-- BASE is a multiple of 0x40000 (20_memory.md R61). -/
  base_aligned : p.base % 0x40000 = 0

/-- A configuration: parameters and the proof that they are legal. Fixed while the CORE is out of reset
(70_reset_and_hazards.md R251). -/
structure Config where
  params : Params
  legal : params.Legal
  deriving DecidableEq, Repr

/-- The defaults of R8, R10, R11 and 20_memory.md R68 (log entry 3); the base block cipher's rounds: log entry 17. -/
def defaultParams : Params where
  ctr0 := { supported := true, keyLen := 16, blockLen := 16, tagLen := 0, mkeyLen := 0, aadMax := 0, infoMax := 0,
            rc := 0, rounds := 10 }
  ctr1 := { supported := true, keyLen := 32, blockLen := 16, tagLen := 0, mkeyLen := 0, aadMax := 0, infoMax := 0,
            rc := 0, rounds := 14 }
  hba0 := { supported := false, keyLen := 16, blockLen := 16, tagLen := 16, mkeyLen := 16, aadMax := 256,
            infoMax := 256, rc := 128, rounds := 10 }
  hba1 := { supported := true, keyLen := 32, blockLen := 16, tagLen := 32, mkeyLen := 32, aadMax := 256,
            infoMax := 256, rc := 256, rounds := 14 }
  rcs0 := { supported := true, keyLen := 32, blockLen := 32, tagLen := 32, mkeyLen := 32, aadMax := 256,
            infoMax := 48, rc := 256, rounds := 22 }
  rcs1 := { supported := true, keyLen := 64, blockLen := 32, tagLen := 64, mkeyLen := 64, aadMax := 256,
            infoMax := 48, rc := 512, rounds := 30 }
  hkdfSupported := true
  kmacSupported := true
  ibufMax := 4096
  obufMax := 4096
  base := 0
  busFaultOnBadAccess := false

theorem defaultParams_legal : defaultParams.Legal where
  blockLen_pos := by intro e c; cases e <;> cases c <;> decide
  keyLen_pos := by intro e c; cases e <;> cases c <;> decide
  keyLen_src := by intro e _; cases e <;> first | contradiction | decide
  hba1_tagLen := rfl
  rcs_tagLen_ne := by decide
  tagLen_pos := by intro e c _; cases e <;> cases c <;> first | contradiction | decide
  ctr_zero := by intro c; cases c <;> decide
  mkeyLen_le := by intro e c; cases e <;> cases c <;> decide
  aadMax_lt := by intro e c; cases e <;> cases c <;> decide
  rounds_lt := by decide
  rounds_base := by intro e c _; cases e <;> cases c <;> first | contradiction | decide
  ibufMax_ge := by decide
  ibufMax_le := by decide
  obufMax_ge := by decide
  obufMax_le := by decide
  keyCap_le := by decide
  nonceCap_le := by decide
  infoCap_le := by decide
  tagLen_le_ibuf := by intro e c; cases e <;> cases c <;> decide
  tagLen_le_obuf := by intro e c; cases e <;> cases c <;> decide
  blockLen_le_obuf := by intro e c; cases e <;> cases c <;> decide
  base_aligned := by decide

/-- The configuration of the defaults (log entry 3). -/
def defaultConfig : Config := ⟨defaultParams, defaultParams_legal⟩

/-- A key schedule: an opaque value (10_state.md R26), here a byte string of any length (log entry 7). -/
structure KeySchedule where
  schedule : Bytes
  deriving DecidableEq, Repr, Inhabited

/-- `KS0`, "zeroed" (10_state.md R26; log entry 7). -/
def keySchedule0 : KeySchedule := ⟨[]⟩

/-- The external engines (00_scope.md R6) and the customization strings (R10), never looked inside. A function with a
byte-string result is held as the byte at each index, so that its result has the length R6 gives it whatever the engine
is (log entry 5). -/
structure Engines where
  /-- `BcExpand(cls, key)`. -/
  bcExpand : KeyClass → Bytes → KeySchedule
  /-- Byte `i` of `BcEnc(KS, B)`. -/
  bcEncByte : KeySchedule → Bytes → Nat → Byte
  /-- Byte `i` of `Kdf(strategy, key, info, n)`. -/
  kdfByte : KdfStrategy → Bytes → Bytes → Nat → Nat → Byte
  /-- The first component of `RcsExpand(cls, key, info)`. -/
  rcsSchedule : KeyClass → Bytes → Bytes → KeySchedule
  /-- Byte `i` of the second component of `RcsExpand(cls, key, info)`. -/
  rcsMacKeyByte : KeyClass → Bytes → Bytes → Nat → Byte
  /-- Byte `i` of `RcsEnc(cls, KS, B)`. -/
  rcsEncByte : KeyClass → KeySchedule → Bytes → Nat → Byte
  /-- Byte `i` of `MAC(rc, key, cust, msg, n)` (R7). -/
  macByte : Nat → Bytes → Bytes → Bytes → Nat → Nat → Byte
  /-- Byte `i` of `MacFinalize(MAC0, n)`, which no reachable state asks for (log entry 9). -/
  mac0Byte : Nat → Nat → Byte
  /-- `CUST(e, c)` (R10; log entry 6). -/
  cust : Engine → KeyClass → Bytes
  deriving Inhabited

/-- The engines the platform has bound (70_reset_and_hazards.md R251): no body, so nothing can be proved of their values
(log entries 5, 6, 9). -/
opaque engines : Engines

end Sys2Proof
end

