-- ==== Sys2Proof/Machine/State.lean ====
section
/-! DEFINITION. The state of one CORE (10_state.md), its reset value (R39), and how a step can stop. -/

namespace Sys2Proof.Machine

/-- The 3-bit register PHASE (10_state.md R21); its values 6 and 7 are never held (log entry 22). -/
inductive Phase where
  | uninit
  | init
  | aad
  | xform
  | final
  | failed
  deriving DecidableEq, Repr, Inhabited

/-- The mode record MODE (10_state.md R22). -/
structure Mode where
  eng : Engine
  cls : KeyClass
  dir : Direction
  ce : CounterOrder
  kdf : KdfStrategy
  deriving DecidableEq, Repr

/-- MODE with every field 0 (10_state.md R22). -/
def mode0 : Mode := ⟨.ctr, .class0, .encrypt, .bigEndian, .hkdf⟩

/-- A MAC accumulator as 00_scope.md R7 represents it: `msg` is everything absorbed since `MacInit` (log entry 8). -/
structure MacState where
  rc : Nat
  key : Bytes
  cust : Bytes
  msg : Bytes
  deriving DecidableEq, Repr

/-- A byte array that resets to zeros (IBUF, OBUF, HOLD): its non-zero bytes, addresses strictly rising. A byte that is
not listed reads as 0, the reset contents (10_state.md R39; log entry 15). -/
abbrev Memory := List Host.Cell

/-- The canonical form: addresses strictly rising, no listed byte equal to what an unlisted one reads as. -/
def Memory.wf : Memory → Bool
  | [] => true
  | [(_, b)] => b != 0
  | (a, b) :: (a', b') :: rest => b != 0 && decide (a < a') && Memory.wf ((a', b') :: rest)

/-- The result codes a command can raise (60_exceptions.md R221). -/
inductive ErrCode where
  | cfgUnsupported
  | cfgKeyLen
  | cfgNonceLen
  | cfgInfoLen
  | cfgAadLen
  | cfgIllegal
  | seqPhase
  | seqMode
  | authFail
  | bufIn
  | bufOut
  | bufTotal
  | bufTagLen
  deriving DecidableEq, Repr

/-- What the host can do (20_memory.md R62 to R68; 70_reset_and_hazards.md R250). -/
inductive HostAccess where
  /-- `MemRead(addr, n)`. -/
  | read (addr n : Nat)
  /-- `MemWrite(addr, n, v)` (log entry 23). -/
  | write (addr n : Nat) (v : Word)
  /-- Apply reset (log entry 11). -/
  | reset
  deriving DecidableEq, Repr

/-- The whole state: the tuple σ of 10_state.md R20, then the model's own `cfg`, `hostq`, `rdata` (log entries 1, 2,
10). -/
structure State where
  /-- PHASE (R21). -/
  phase : Phase
  /-- MODE (R22). -/
  mode : Mode
  /-- KEYR, KEYN (R23). -/
  keyr : Bytes
  keyn : Nat
  /-- NONR, NONN (R24). -/
  nonr : Bytes
  nonn : Nat
  /-- INFR, INFN (R25). -/
  infr : Bytes
  infn : Nat
  /-- KS (R26). -/
  ks : KeySchedule
  /-- MKEY (R27). -/
  mkey : Bytes
  /-- CTRB (R28). -/
  ctrb : Bytes
  /-- MACST, `none` being MAC0 (R29). -/
  macst : Option MacState
  /-- AADT, CTT (R30). -/
  aadt : BitVec 64
  ctt : BitVec 64
  /-- HOLD, HCNT (R31). -/
  hold : Memory
  hcnt : BitVec 16
  /-- IBUF, ICNT (R32). -/
  ibuf : Memory
  icnt : BitVec 16
  /-- OBUF, OCNT (R33). -/
  obuf : Memory
  ocnt : BitVec 16
  /-- ERR (R34). -/
  err : Byte
  /-- ESTICKY, AUTHOK (R35). -/
  esticky : Bool
  authok : Bool
  /-- The model's own: the parameters (log entry 2). -/
  cfg : Config
  /-- The model's own: the accesses the host has yet to issue, in its program order (log entry 1). -/
  hostq : List HostAccess
  /-- The model's own: what the host's latest bus read returned (log entry 10). -/
  rdata : Word
  deriving DecidableEq, Repr

/-- Reset under a configuration: every register of R20 at its value of R39. -/
def State.resetWith (cfg : Config) : State where
  phase := .uninit
  mode := mode0
  keyr := zeros cfg.params.keyCap
  keyn := 0
  nonr := zeros cfg.params.nonceCap
  nonn := 0
  infr := zeros cfg.params.infoCap
  infn := 0
  ks := keySchedule0
  mkey := zeros mkeyCap
  ctrb := zeros cfg.params.nonceCap
  macst := none
  aadt := 0
  ctt := 0
  hold := []
  hcnt := 0
  ibuf := []
  icnt := 0
  obuf := []
  ocnt := 0
  err := 0
  esticky := false
  authok := false
  cfg := cfg
  hostq := []
  rdata := 0

/-- The machine right after reset (R39, R250) with the spec's default parameters (log entry 3), nothing read and no
access pending (log entries 1, 10). -/
def State.reset : State := State.resetWith defaultConfig

/-- Faults of the machine. -/
inductive Fault where
  /-- A platform bus error. Raised by the bus (`badAccess` in Machine/Bus.lean) for a host access outside rules R62 to
  R66 inside the block, only when the parameter BUS_FAULT_ON_BAD_ACCESS is true (20_memory.md R68). No register has
  changed. Safe: the model stops where the CORE would go on unchanged (log entry 12). -/
  | busError
  deriving DecidableEq, Repr

/-- Refusals of the model. -/
inductive Refusal where
  /-- Raised by `exec` for a command that has no meaning yet (none is left). Safe: nothing can be proved of such a
  command's effect. -/
  | notModelled (mnemonic : String)
  /-- A host access to an address outside BASE .. BASE + 0x3FFFF, which belongs to another device of the platform
  (20_memory.md R61: "Where `BASE` is in the platform's address space, and what else is there, is left to the
  platform"). Raised by the bus. Safe: the model stops where the CORE is not addressed (log entry 13). -/
  | outsideBlock
  deriving DecidableEq, Repr

end Sys2Proof.Machine
end

