-- ==== Sys2Proof/Machine/Ops.lean ====
section
/-! DEFINITION. The named operations over byte arrays, registers and engines, and the one operation by which a command
fails (00_scope.md R6, R7, R12, R13; 60_exceptions.md R220 to R227). -/

namespace Sys2Proof.Machine

/-! ### Byte arrays that reset to zeros (IBUF, OBUF, HOLD) -/

/-- Byte `a` of a byte array; a byte that is not listed is 0 (10_state.md R39). -/
def Memory.read : Memory → Nat → Byte
  | [], _ => 0
  | (k, b) :: rest, a => if k = a then b else Memory.read rest a

/-- Put `b` at `a` and keep the canonical form: writing 0 unlists the byte. -/
def Memory.write : Memory → Nat → Byte → Memory
  | [], a, b => if b = 0 then [] else [(a, b)]
  | (k, c) :: rest, a, b =>
    if a < k then (if b = 0 then (k, c) :: rest else (a, b) :: (k, c) :: rest)
    else if a = k then (if b = 0 then rest else (a, b) :: rest)
    else (k, c) :: Memory.write rest a b

/-- `X[a .. a+n)`. -/
def Memory.readBytes (m : Memory) (a : Nat) : Nat → Bytes
  | 0 => []
  | n + 1 => Memory.read m a :: Memory.readBytes m (a + 1) n

/-- `X[a .. a+|B|) <- B`, the other bytes unchanged. -/
def Memory.writeBytes : Memory → Nat → Bytes → Memory
  | m, _, [] => m
  | m, a, b :: bs => Memory.writeBytes (Memory.write m a b) (a + 1) bs

/-! ### Byte strings (R12) -/

/-- `X[0..|S|) <- S || zeros` for a byte array register of `cap` bytes. -/
def fillArray (cap : Nat) (S : Bytes) : Bytes := S ++ zeros (cap - S.length)

/-- `A xor B`, over the shorter of the two. -/
def xorBytes (A B : Bytes) : Bytes := List.zipWith (· ^^^ ·) A B

/-- `le64(v)`: byte `i` is `(v >> 8i) & 0xFF`. -/
def le64 (v : BitVec 64) : Bytes := (List.range 8).map fun i => v.extractLsb' (8 * i) 8

/-! ### The engines' results as byte strings of the lengths R6 gives them -/

/-- `BcEnc(KS, B)`, as long as B. -/
def bcEnc (E : Engines) (ks : KeySchedule) (B : Bytes) : Bytes := (List.range B.length).map (E.bcEncByte ks B)

/-- `RcsEnc(cls, KS, B)`, as long as B. -/
def rcsEnc (E : Engines) (cls : KeyClass) (ks : KeySchedule) (B : Bytes) : Bytes :=
  (List.range B.length).map (E.rcsEncByte cls ks B)

/-- `Kdf(strategy, key, info, n)`. -/
def kdfBytes (E : Engines) (strategy : KdfStrategy) (key info : Bytes) (n : Nat) : Bytes :=
  (List.range n).map (E.kdfByte strategy key info n)

/-- The MAC key of `RcsExpand(cls, key, info)`, `n` = MKEYLEN bytes. -/
def rcsMacKey (E : Engines) (cls : KeyClass) (key info : Bytes) (n : Nat) : Bytes :=
  (List.range n).map (E.rcsMacKeyByte cls key info)

/-- `MacInit(rc, key, cust)` (R7). -/
def macInit (rc : Nat) (key cust : Bytes) : MacState := ⟨rc, key, cust, []⟩

/-- `MacUpdate(st, data)` (R7). -/
def macUpdate (st : MacState) (data : Bytes) : MacState := { st with msg := st.msg ++ data }

/-- `MacUpdate` on the register MACST; MAC0 has no accumulator and stays. -/
def macAbsorb (st : Option MacState) (data : Bytes) : Option MacState := st.map (macUpdate · data)

/-- `MacFinalize(MACST, n)` (R7); of MAC0 a free value (log entry 9). -/
def macFinalize (E : Engines) (st : Option MacState) (n : Nat) : Bytes :=
  match st with
  | some m => (List.range n).map (E.macByte m.rc m.key m.cust m.msg n)
  | none => (List.range n).map (E.mac0Byte n)

/-! ### Registers -/

/-- The parameters of the session's variant (ENG, CLS) (R8). -/
def sessionVariant (s : State) : VariantParams := s.cfg.params.variant s.mode.eng s.mode.cls

/-- BL, the session's BLOCKLEN. -/
def blockLen (s : State) : Nat := (sessionVariant s).blockLen

/-- `IBUF <- zeros; ICNT <- 0; OBUF <- zeros; OCNT <- 0`, as every command begins (44_commands.md R180). -/
def clearBuffers (s : State) : State := { s with ibuf := [], icnt := 0, obuf := [], ocnt := 0 }

/-- `OBUF[0..|B|) <- B ; OCNT <- |B|`. -/
def respond (s : State) (B : Bytes) : State :=
  { s with obuf := Memory.writeBytes s.obuf 0 B, ocnt := BitVec.ofNat 16 B.length }

/-- `HOLD[HCNT .. HCNT+|B|) <- B ; HCNT <- HCNT + |B|` (10_state.md R31). -/
def withhold (s : State) (B : Bytes) : State :=
  { s with hold := Memory.writeBytes s.hold s.hcnt.toNat B, hcnt := s.hcnt + BitVec.ofNat 16 B.length }

/-- Every register of 10_state.md R20 to its value of R39: reset (70_reset_and_hazards.md R250) and DISPOSE
(44_commands.md R193). The parameters, the host's program and what the host has read are no registers. -/
def zeroRegisters (s : State) : State := { State.resetWith s.cfg with hostq := s.hostq, rdata := s.rdata }

/-! ### Failing -/

/-- The numeric codes (60_exceptions.md R221): the high nibble is the class (R220). -/
def errByte : ErrCode → Byte
  | .cfgUnsupported => 0x10
  | .cfgKeyLen => 0x11
  | .cfgNonceLen => 0x12
  | .cfgInfoLen => 0x13
  | .cfgAadLen => 0x14
  | .cfgIllegal => 0x1F
  | .seqPhase => 0x20
  | .seqMode => 0x21
  | .authFail => 0x30
  | .bufIn => 0x40
  | .bufOut => 0x41
  | .bufTotal => 0x42
  | .bufTagLen => 0x43

/-- Taking an exception (60_exceptions.md R225): `ERR <- code`, `ESTICKY <- 1`, and nothing else: no saved state, no
mode change, no vector, no handler. There is no return from one and nothing to restore (R227): the next command is judged
against the state this leaves. -/
def takeError (c : ErrCode) (s : State) : State := { s with err := errByte c, esticky := true }

/-- The first violated check's code: "the first `raise` wins" (R13, 44_commands.md R183). A check is a pair of the
violation and its code. -/
def firstRaise : List (Bool × ErrCode) → Option ErrCode
  | [] => none
  | (violated, c) :: rest => if violated then some c else firstRaise rest

end Sys2Proof.Machine
end

