-- ==== Sys2Proof/Machine/Operands.lean ====
section
/-! DEFINITION. The operands of commands (30_encoding.md R94; 10_state.md R23 to R25, R32). -/

namespace Sys2Proof.Machine

/-- The operand `IBUF[0..ICNT)` (10_state.md R32). -/
def operand (s : State) : Bytes := Memory.readBytes s.ibuf 0 s.icnt.toNat

/-- The check of code 0x40: `|opnd| ≠ LEN` (60_exceptions.md R221). -/
def operandCheck (opnd : Bytes) (len : BitVec 16) : Bool × ErrCode := (decide (opnd.length ≠ len.toNat), .bufIn)

/-- INIT's key `KEYR[0..KEYN)`. -/
def stagedKey (s : State) : Bytes := s.keyr.take s.keyn

/-- INIT's nonce `NONR[0..NONN)`. -/
def stagedNonce (s : State) : Bytes := s.nonr.take s.nonn

/-- INIT's info `INFR[0..INFN)`. -/
def stagedInfo (s : State) : Bytes := s.infr.take s.infn

/-- LEN as a 64-bit count (`zext_64(cw[15:0])`, R94). -/
def len64 (len : BitVec 16) : BitVec 64 := len.setWidth 64

/-- The session's MAC key `MKEY[0..MKEYLEN)` (10_state.md R27). -/
def macKey (s : State) : Bytes := s.mkey.take (sessionVariant s).mkeyLen

/-- The counter block `CTRB[0..BL)` (10_state.md R28). -/
def counterBlock (s : State) : Bytes := s.ctrb.take (blockLen s)

/-- `CTRB[0..BL) <- C`, the rest unchanged. -/
def setCounterBlock (s : State) (C : Bytes) : State := { s with ctrb := C ++ s.ctrb.drop (blockLen s) }

end Sys2Proof.Machine
end

