-- ==== Sys2Proof/Machine/Counter.lean ====
section
/-! DEFINITION. The counter-mode keystream generator (40_ctr_keystream.md R111 to R116) and RCS's fused loop
(42_rcs.md R154), both over any engines. -/

namespace Sys2Proof.Machine

/-- `IncLE` (R112): byte 0 is least significant, the carry out of the last byte is dropped (R113). -/
def incLE : Bytes → Bytes
  | [] => []
  | b :: bs => if b + 1 = 0 then 0 :: incLE bs else (b + 1) :: bs

/-- `IncBE` (R111): the same loop from the other end. -/
def incBE (C : Bytes) : Bytes := (incLE C.reverse).reverse

/-- `Inc(ce, C)` (R112). -/
def incCounter (ce : CounterOrder) (C : Bytes) : Bytes :=
  match ce with
  | .bigEndian => incBE C
  | .littleEndian => incLE C

/-- `KsBlock` (R114) from a counter block. -/
def ksBlock (E : Engines) (mode : Mode) (ks : KeySchedule) (C : Bytes) : Bytes :=
  match mode.eng with
  | .ctr | .hba => bcEnc E ks C
  | .rcs => rcsEnc E mode.cls ks C

/-- `ceil(n / BL)` (R13). -/
def blockCount (n bl : Nat) : Nat := (n + bl - 1) / bl

/-- The loop of R115 over `k` blocks from the counter block `C`: the output and the counter block after it. -/
def ctrBlocks (E : Engines) (mode : Mode) (ks : KeySchedule) (bl : Nat) : Nat → Bytes → Bytes → Bytes × Bytes
  | 0, C, _ => ([], C)
  | k + 1, C, X =>
    let Y := xorBytes (X.take bl) (ksBlock E mode ks C)
    let r := ctrBlocks E mode ks bl k (incCounter mode.ce C) (X.drop bl)
    (Y ++ r.1, r.2)

/-- `CtrXor(σ, X)` (R115): the output and the state with CTRB advanced. -/
def ctrXor (E : Engines) (s : State) (X : Bytes) : Bytes × State :=
  let r := ctrBlocks E s.mode s.ks (blockLen s) (blockCount X.length (blockLen s)) (counterBlock s) X
  (r.1, setCounterBlock s r.2)

/-- The ciphertext bytes of a block: the output when encrypting, the input when decrypting (R154). -/
def ciphertextOf (dir : Direction) (X Y : Bytes) : Bytes :=
  match dir with
  | .encrypt => Y
  | .decrypt => X

/-- The loop of R154 over `k` blocks: output, counter block and accumulator after it, each block's ciphertext absorbed
as it is made. -/
def rcsBlocks (E : Engines) (mode : Mode) (ks : KeySchedule) (bl : Nat) :
    Nat → Bytes → Option MacState → Bytes → Bytes × Bytes × Option MacState
  | 0, C, st, _ => ([], C, st)
  | k + 1, C, st, X =>
    let Y := xorBytes (X.take bl) (ksBlock E mode ks C)
    let st' := macAbsorb st (ciphertextOf mode.dir (X.take bl) Y)
    let r := rcsBlocks E mode ks bl k (incCounter mode.ce C) st' (X.drop bl)
    (Y ++ r.1, r.2)

/-- The fused transform of R154: the output and the state with CTRB and MACST advanced. -/
def rcsXor (E : Engines) (s : State) (X : Bytes) : Bytes × State :=
  let r := rcsBlocks E s.mode s.ks (blockLen s) (blockCount X.length (blockLen s)) (counterBlock s) s.macst X
  (r.1, { setCounterBlock s r.2.1 with macst := r.2.2 })

end Sys2Proof.Machine
end

