-- ==== Sys2Proof/Machine/Flags.lean ====
section
/-! DEFINITION. The flags and the STATUS view (10_state.md R35, R36). No command computes an arithmetic flag (R35). -/

namespace Sys2Proof.Machine

/-- KLD = (KEYN ≠ 0) (R35). -/
def keyLoaded (s : State) : Bool := decide (s.keyn ≠ 0)

/-- NLD = (NONN ≠ 0) (R35). -/
def nonceLoaded (s : State) : Bool := decide (s.nonn ≠ 0)

/-- ILD = (INFN ≠ 0) (R35). -/
def infoLoaded (s : State) : Bool := decide (s.infn ≠ 0)

/-- PHASE's code (R21). -/
def phaseCode : Phase → BitVec 3
  | .uninit => 0
  | .init => 1
  | .aad => 2
  | .xform => 3
  | .final => 4
  | .failed => 5

/-- STATUS (R36), bit 31 first. -/
def statusWord (s : State) : Word :=
  (0#18 ++ BitVec.ofBool s.authok ++ BitVec.ofBool s.esticky ++ BitVec.ofBool (infoLoaded s)
    ++ BitVec.ofBool (nonceLoaded s) ++ BitVec.ofBool (keyLoaded s) ++ BitVec.ofBool (kdfBit s.mode.kdf)
    ++ BitVec.ofBool (ceBit s.mode.ce) ++ BitVec.ofBool (dirBit s.mode.dir) ++ BitVec.ofBool (clsBit s.mode.cls)
    ++ engCode s.mode.eng ++ phaseCode s.phase : BitVec 32)

end Sys2Proof.Machine
end

