-- ==== Sys2Proof/Machine/Frame.lean ====
section
/-! DEFINITION. What every command shares: admission and the execution frame (44_commands.md R180, R181, R183). -/

namespace Sys2Proof.Machine

/-- The result type of every meaning. -/
abbrev Result := Host.Outcome State Fault Refusal

/-- The "engines" and "DIR" columns of R181's table. -/
def sessionAllows (i : Instr) (mode : Mode) : Bool :=
  match i with
  | .setaad _ => mode.eng != .ctr
  | .xform _ => true
  | .final => mode.eng != .ctr && mode.dir == .encrypt
  | .verify _ => mode.eng != .ctr && mode.dir == .decrypt
  | .stnonce => mode.eng == .rcs
  | .ldkey _ | .ldnonce _ | .ldinfo _ | .init .. | .dispose => true

/-- The "phases" column of R181's table, for XFORM the row of the session's engine. -/
def phaseAllows (i : Instr) (eng : Engine) (ph : Phase) : Bool :=
  match i with
  | .setaad _ => ph == .init || ph == .aad
  | .xform _ => match eng with
    | .ctr => ph == .init || ph == .xform
    | .hba | .rcs => ph == .aad || ph == .xform
  | .final | .verify _ => ph == .aad || ph == .xform
  | .stnonce => ph == .init || ph == .aad || ph == .xform || ph == .final
  | .ldkey _ | .ldnonce _ | .ldinfo _ | .init .. => ph == .uninit
  | .dispose => true

/-- `Admit` of R181 for a command of a session. -/
def admitSession (i : Instr) (s : State) : Option ErrCode :=
  if s.phase = .uninit then some .seqPhase
  else if !sessionAllows i s.mode then some .seqMode
  else if !phaseAllows i s.mode.eng s.phase then some .seqPhase
  else none

/-- `Admit(d, σ)` of R181: the code raised, none when the command is admitted. -/
def admission (i : Instr) (s : State) : Option ErrCode :=
  match i with
  | .dispose => none
  | .ldkey _ | .ldnonce _ | .ldinfo _ | .init .. => if s.phase = .uninit then none else some .seqPhase
  | .setaad _ | .xform _ | .final | .verify _ | .stnonce => admitSession i s

/-- How a command's effect ends: normally, or VERIFY's tags-unequal outcome, which is no `raise`
(43_tag_compare.md R175). -/
inductive Ending where
  | done (s : State)
  | authFailed (s : State)

/-- The effect's end in the frame: `ERR <- 0x00`, or code 0x30 with ESTICKY (R180; 43_tag_compare.md R175). -/
def finishCommand : Ending → State
  | .done t => { t with err := 0 }
  | .authFailed t => takeError .authFail t

/-- The execution frame `Exec(σ, cw)` of R180 for the decoded command `i`: sample the operand, clear the buffers, make
the checks in order (R183), then the effect. A raise keeps the state after the four clears (60_exceptions.md R226). -/
def runCommand (i : Instr) (checks : State → Bytes → List (Bool × ErrCode)) (effect : State → Bytes → Ending)
    (s : State) : Result :=
  match admission i (clearBuffers s) with
  | some c => .next (takeError c (clearBuffers s))
  | none =>
    match firstRaise (checks (clearBuffers s) (operand s)) with
    | some c => .next (takeError c (clearBuffers s))
    | none => .next (finishCommand (effect (clearBuffers s) (operand s)))

/-- An illegal command word in the same frame: code 0x1F, buffers cleared, nothing else (30_encoding.md R95). -/
def illegalCommand (s : State) : Result := .next (takeError .cfgIllegal (clearBuffers s))

end Sys2Proof.Machine
end

