-- ==== Sys2Proof/Machine/Data.lean ====
section
/-! DEFINITION. The data commands SETAAD and XFORM (44_commands.md R188, R189; 40_ctr_keystream.md R119; 41_hba.md R133
to R136; 42_rcs.md R153, R154). -/

namespace Sys2Proof.Machine

/-- SETAAD's effect, the same for HBA (41_hba.md R133) and RCS (42_rcs.md R153). -/
def absorbAad (len : BitVec 16) (A : Bytes) (s : State) : State :=
  { s with macst := macAbsorb s.macst A, aadt := s.aadt + len64 len, phase := .aad }

/-- SETAAD (R188; the maximum: 41_hba.md R134). -/
def execSetaad (len : BitVec 16) (s : State) : Result :=
  runCommand (.setaad len)
    (fun s opnd => [(decide ((sessionVariant s).aadMax < s.aadt.toNat + len.toNat), .cfgAadLen), operandCheck opnd len])
    (fun s opnd => .done (absorbAad len opnd s))
    s

/-- XFORM's checks after admission, in the order of R189. -/
def xformChecks (len : BitVec 16) (s : State) (opnd : Bytes) : List (Bool × ErrCode) :=
  [ operandCheck opnd len,
    ((s.mode.eng == .ctr || s.mode.dir == .encrypt) && decide (s.cfg.params.obufMax < len.toNat), .bufOut),
    (s.mode.eng != .ctr && s.mode.dir == .decrypt && decide (s.cfg.params.obufMax < s.hcnt.toNat + len.toNat), .bufOut),
    (decide (2 ^ 64 - 1 < s.ctt.toNat + len.toNat), .bufTotal) ]

/-- `CTT <- CTT + LEN ; PHASE <- XFORM`. -/
def countTransformed (len : BitVec 16) (s : State) : State := { s with ctt := s.ctt + len64 len, phase := .xform }

/-- XFORM under CTR (40_ctr_keystream.md R119): the output is the response in both directions. -/
def xformCtr (E : Engines) (len : BitVec 16) (X : Bytes) (s : State) : State :=
  let r := ctrXor E s X
  countTransformed len (respond r.2 r.1)

/-- XFORM under HBA, encrypting (41_hba.md R135): absorb the ciphertext just produced. -/
def xformHbaEncrypt (E : Engines) (len : BitVec 16) (P : Bytes) (s : State) : State :=
  let r := ctrXor E s P
  countTransformed len (respond { r.2 with macst := macAbsorb r.2.macst r.1 } r.1)

/-- XFORM under HBA, decrypting (41_hba.md R136): absorb the received ciphertext first, then transform; the plaintext is
withheld. -/
def xformHbaDecrypt (E : Engines) (len : BitVec 16) (C : Bytes) (s : State) : State :=
  let r := ctrXor E { s with macst := macAbsorb s.macst C } C
  countTransformed len (withhold r.2 r.1)

/-- XFORM under RCS (42_rcs.md R154): transform and absorption in one pass. -/
def xformRcs (E : Engines) (len : BitVec 16) (X : Bytes) (s : State) : State :=
  let r := rcsXor E s X
  match s.mode.dir with
  | .encrypt => countTransformed len (respond r.2 r.1)
  | .decrypt => countTransformed len (withhold r.2 r.1)

/-- XFORM's effect by the session's engine and direction (R189). -/
def xformEffect (E : Engines) (len : BitVec 16) (s : State) (X : Bytes) : State :=
  match s.mode.eng, s.mode.dir with
  | .ctr, _ => xformCtr E len X s
  | .hba, .encrypt => xformHbaEncrypt E len X s
  | .hba, .decrypt => xformHbaDecrypt E len X s
  | .rcs, _ => xformRcs E len X s

/-- XFORM over any engines. -/
def xformWith (E : Engines) (len : BitVec 16) (s : State) : Result :=
  runCommand (.xform len) (xformChecks len) (fun s X => .done (xformEffect E len s X)) s

/-- XFORM (R189) with the engines the platform has bound. -/
def execXform (len : BitVec 16) (s : State) : Result := xformWith engines len s

end Sys2Proof.Machine
end

