-- ==== Sys2Proof/Machine/Init.lean ====
section
/-! DEFINITION. INIT (44_commands.md R187) and its engine parts (40_ctr_keystream.md R110, R118; 41_hba.md R130 to R132;
42_rcs.md R150 to R152). -/

namespace Sys2Proof.Machine

/-- KDF_SUPPORTED(k) (00_scope.md R10). -/
def kdfSupported (p : Params) : KdfStrategy → Bool
  | .hkdf => p.hkdfSupported
  | .kmac => p.kmacSupported

/-- INIT's configuration checks in the order of R187. -/
def initChecks (m : Mode) (s : State) : List (Bool × ErrCode) :=
  let v := s.cfg.params.variant m.eng m.cls
  [ (!v.supported, .cfgUnsupported),
    (m.eng == .hba && !kdfSupported s.cfg.params m.kdf, .cfgUnsupported),
    (decide (s.keyn ≠ v.keyLen), .cfgKeyLen),
    (decide (s.nonn ≠ v.blockLen), .cfgNonceLen),
    (decide (v.infoMax < s.infn), .cfgInfoLen) ]

/-- KS for the session's engine (R118, R130, R150). -/
def sessionSchedule (E : Engines) (m : Mode) (key info : Bytes) : KeySchedule :=
  match m.eng with
  | .ctr | .hba => E.bcExpand m.cls key
  | .rcs => E.rcsSchedule m.cls key info

/-- The session's MAC key, MKEYLEN bytes (R130, R150); none under CTR (R118). -/
def sessionMacKey (E : Engines) (m : Mode) (v : VariantParams) (key info : Bytes) : Bytes :=
  match m.eng with
  | .ctr => []
  | .hba => kdfBytes E m.kdf key info v.mkeyLen
  | .rcs => rcsMacKey E m.cls key info v.mkeyLen

/-- MAC priming (R131, R151): the customization string in `MacInit`, the nonce the first data absorbed; MAC0 under CTR
(R118). -/
def primedMac (E : Engines) (m : Mode) (v : VariantParams) (mk nonce : Bytes) : Option MacState :=
  match m.eng with
  | .ctr => none
  | .hba | .rcs => some (macUpdate (macInit v.rc mk (E.cust m.eng m.cls)) nonce)

/-- INIT's effect: MODE, the engine part, the staging registers consumed, the session's bookkeeping zeroed (R187; R31
for HOLD). -/
def startSession (E : Engines) (m : Mode) (s : State) : State :=
  let v := s.cfg.params.variant m.eng m.cls
  let mk := sessionMacKey E m v (stagedKey s) (stagedInfo s)
  { s with
    mode := m
    ks := sessionSchedule E m (stagedKey s) (stagedInfo s)
    mkey := fillArray mkeyCap mk
    macst := primedMac E m v mk (stagedNonce s)
    ctrb := fillArray s.cfg.params.nonceCap (stagedNonce s)
    aadt := 0
    ctt := 0
    hold := []
    hcnt := 0
    keyr := zeros s.cfg.params.keyCap
    keyn := 0
    nonr := zeros s.cfg.params.nonceCap
    nonn := 0
    infr := zeros s.cfg.params.infoCap
    infn := 0
    authok := false
    phase := .init }

/-- INIT over any engines. -/
def initWith (E : Engines) (eng : Engine) (cls : KeyClass) (dir : Direction) (ce : CounterOrder) (kdf : KdfStrategy)
    (s : State) : Result :=
  runCommand (.init eng cls dir ce kdf)
    (fun s _ => initChecks ⟨eng, cls, dir, ce, kdf⟩ s)
    (fun s _ => .done (startSession E ⟨eng, cls, dir, ce, kdf⟩ s))
    s

/-- INIT (R187) with the engines the platform has bound. -/
def execInit (eng : Engine) (cls : KeyClass) (dir : Direction) (ce : CounterOrder) (kdf : KdfStrategy) (s : State) :
    Result :=
  initWith engines eng cls dir ce kdf s

end Sys2Proof.Machine
end

