-- ==== Sys2Proof/Machine/Load.lean ====
section
/-! DEFINITION. Loading the initialisation arguments: LDKEY, LDNONCE, LDINFO (44_commands.md R184 to R186). -/

namespace Sys2Proof.Machine

/-- LDKEY (R184). -/
def execLdkey (len : BitVec 16) (s : State) : Result :=
  runCommand (.ldkey len)
    (fun s opnd => [(decide (len = 0 ∨ s.cfg.params.keyCap < len.toNat), .cfgKeyLen), operandCheck opnd len])
    (fun s opnd => .done { s with keyr := fillArray s.cfg.params.keyCap opnd, keyn := len.toNat })
    s

/-- LDNONCE (R185). -/
def execLdnonce (len : BitVec 16) (s : State) : Result :=
  runCommand (.ldnonce len)
    (fun s opnd => [(decide (len = 0 ∨ s.cfg.params.nonceCap < len.toNat), .cfgNonceLen), operandCheck opnd len])
    (fun s opnd => .done { s with nonr := fillArray s.cfg.params.nonceCap opnd, nonn := len.toNat })
    s

/-- LDINFO (R186). -/
def execLdinfo (len : BitVec 16) (s : State) : Result :=
  runCommand (.ldinfo len)
    (fun s opnd => [(decide (s.cfg.params.infoCap < len.toNat), .cfgInfoLen), operandCheck opnd len])
    (fun s opnd => .done { s with infr := fillArray s.cfg.params.infoCap opnd, infn := len.toNat })
    s

end Sys2Proof.Machine
end

