-- ==== Sys2Proof/Machine/Session.lean ====
section
/-! DEFINITION. STNONCE (44_commands.md R192, 42_rcs.md R156) and DISPOSE (44_commands.md R193). -/

namespace Sys2Proof.Machine

/-- STNONCE (R192): the response is the current counter block and nothing else changes (R156). -/
def execStnonce (s : State) : Result :=
  runCommand .stnonce (fun _ _ => []) (fun s _ => .done (respond s (counterBlock s))) s

/-- DISPOSE (R193): every register to its reset value; it never fails. -/
def execDispose (s : State) : Result :=
  runCommand .dispose (fun _ _ => []) (fun s _ => .done (zeroRegisters s)) s

end Sys2Proof.Machine
end

