-- ==== Sys2Proof/Machine/Tag.lean ====
section
/-! DEFINITION. The tag, the constant-time comparator, FINAL and VERIFY (43_tag_compare.md; 44_commands.md R190, R191). -/

namespace Sys2Proof.Machine

/-- The accumulator of R170's loop: every byte pair is combined whatever the values are. -/
def ctAcc : Byte → Bytes → Bytes → Byte
  | acc, a :: A, b :: B => ctAcc (acc ||| (a ^^^ b)) A B
  | acc, _, _ => acc

/-- `CtEq(A, B)` (R170) for byte strings of equal length. -/
def ctEq (A B : Bytes) : Bool := ctAcc 0 A B == 0

/-- The length block `le64(AADT) || le64(CTT)` (R171). -/
def lengthBlock (s : State) : Bytes := le64 s.aadt ++ le64 s.ctt

/-- `TagCompute(σ)` (R171): the tag and the state with the length block absorbed. -/
def tagCompute (E : Engines) (s : State) : Bytes × State :=
  let st := macAbsorb s.macst (lengthBlock s)
  (macFinalize E st (sessionVariant s).tagLen, { s with macst := st })

/-- FINAL's core (R172). -/
def produceTag (E : Engines) (s : State) : State :=
  let r := tagCompute E s
  { respond r.2 r.1 with phase := .final }

/-- Tags equal (R174): the whole withheld plaintext is the response. -/
def releasePlaintext (s : State) : State :=
  { s with
    obuf := Memory.writeBytes s.obuf 0 (Memory.readBytes s.hold 0 s.hcnt.toNat)
    ocnt := s.hcnt
    hold := []
    hcnt := 0
    authok := true
    phase := .final }

/-- Tags unequal (R175): the withheld plaintext is destroyed and the session poisoned; ERR and ESTICKY are the
frame's. -/
def poisonSession (s : State) : State := { s with hold := [], hcnt := 0, phase := .failed }

/-- VERIFY's core (R173): one comparison of the whole tag. -/
def compareTag (E : Engines) (s : State) (R : Bytes) : Ending :=
  let r := tagCompute E s
  if ctEq r.1 R then .done (releasePlaintext r.2) else .authFailed (poisonSession r.2)

/-- FINAL over any engines. -/
def finalWith (E : Engines) (s : State) : Result :=
  runCommand .final (fun _ _ => []) (fun s _ => .done (produceTag E s)) s

/-- FINAL (R190) with the engines the platform has bound. -/
def execFinal (s : State) : Result := finalWith engines s

/-- VERIFY over any engines. -/
def verifyWith (E : Engines) (len : BitVec 16) (s : State) : Result :=
  runCommand (.verify len)
    (fun s opnd => [operandCheck opnd len, (decide (len.toNat ≠ (sessionVariant s).tagLen), .bufTagLen)])
    (compareTag E)
    s

/-- VERIFY (R191) with the engines the platform has bound. -/
def execVerify (len : BitVec 16) (s : State) : Result := verifyWith engines len s

end Sys2Proof.Machine
end

