-- ==== Sys2Proof/Machine/Dispatch.lean ====
section
/-! DEFINITION. One arm per command (30_encoding.md R92). -/

namespace Sys2Proof.Machine

def exec (i : Instr) (s : State) : Host.Outcome State Fault Refusal :=
  match i with
  | .ldkey len => Sys2Proof.Machine.execLdkey len s
  | .ldnonce len => Sys2Proof.Machine.execLdnonce len s
  | .ldinfo len => Sys2Proof.Machine.execLdinfo len s
  | .init eng cls dir ce kdf => Sys2Proof.Machine.execInit eng cls dir ce kdf s
  | .setaad len => Sys2Proof.Machine.execSetaad len s
  | .xform len => Sys2Proof.Machine.execXform len s
  | .final => Sys2Proof.Machine.execFinal s
  | .verify len => Sys2Proof.Machine.execVerify len s
  | .stnonce => Sys2Proof.Machine.execStnonce s
  | .dispose => Sys2Proof.Machine.execDispose s

end Sys2Proof.Machine
end

