-- ==== Sys2Proof/Machine/Bus.lean ====
section
/-! DEFINITION. The host's bus (20_memory.md): the address map, the register values, reads, writes, and the fetch of a
command word. -/

namespace Sys2Proof.Machine

/-- The twelve registers of the register block (R61). -/
inductive Reg where
  | cmd
  | status
  | err
  | icnt
  | ocnt
  | aadtLo
  | aadtHi
  | cttLo
  | cttHi
  | hcnt
  | cap
  | var
  deriving DecidableEq, Repr

/-- The register at an offset (R61); none where nothing is mapped or the offset is not a multiple of 4. -/
def regAt (off : Nat) : Option Reg :=
  if off = 0x00 then some .cmd
  else if off = 0x04 then some .status
  else if off = 0x08 then some .err
  else if off = 0x0C then some .icnt
  else if off = 0x10 then some .ocnt
  else if off = 0x14 then some .aadtLo
  else if off = 0x18 then some .aadtHi
  else if off = 0x1C then some .cttLo
  else if off = 0x20 then some .cttHi
  else if off = 0x24 then some .hcnt
  else if off = 0x28 then some .cap
  else if off = 0x2C then some .var
  else none

/-- What an access of `n` bytes at `addr` reaches (R61 to R64, R68). -/
inductive Target where
  | reg (r : Reg)
  | operandByte (i : Nat)
  | responseByte (i : Nat)
  /-- An access outside rules R62 to R66 (R68). -/
  | bad
  /-- No address of the CORE's block. -/
  | outside
  deriving DecidableEq, Repr

/-- The register block's part of `targetAt`: 4-byte accesses at a register's offset (R62). -/
def regTarget (off n : Nat) : Target :=
  match regAt off with
  | some r => if n = 4 then .reg r else .bad
  | none => .bad

/-- The address map (R61): register block, operand window, response window, nothing. -/
def targetAt (p : Params) (addr n : Nat) : Target :=
  if addr < p.base ∨ p.base + 0x40000 ≤ addr then .outside
  else
    let off := addr - p.base
    if off < 0x10000 then regTarget off n
    else if off < 0x20000 then (if n = 1 ∧ off - 0x10000 < p.ibufMax then .operandByte (off - 0x10000) else .bad)
    else if off < 0x30000 then (if n = 1 ∧ off - 0x20000 < p.obufMax then .responseByte (off - 0x20000) else .bad)
    else .bad

/-- CAP: bits 15:0 IBUF_MAX, bits 31:16 OBUF_MAX (10_state.md R37). -/
def capWord (p : Params) : Word := (BitVec.ofNat 16 p.obufMax ++ BitVec.ofNat 16 p.ibufMax : BitVec 32)

/-- VAR: bit 2e+c is SUPPORTED(e,c), bit 8 KDF_SUPPORTED(0), bit 9 KDF_SUPPORTED(1) (10_state.md R37). -/
def varWord (p : Params) : Word :=
  (0#22 ++ BitVec.ofBool p.kmacSupported ++ BitVec.ofBool p.hkdfSupported ++ 0#2 ++ BitVec.ofBool p.rcs1.supported
    ++ BitVec.ofBool p.rcs0.supported ++ BitVec.ofBool p.hba1.supported ++ BitVec.ofBool p.hba0.supported
    ++ BitVec.ofBool p.ctr1.supported ++ BitVec.ofBool p.ctr0.supported : BitVec 32)

/-- The 32-bit value a read of a register returns (R61, R62; 10_state.md R36, R37). -/
def regValue (s : State) : Reg → Word
  | .cmd => 0
  | .status => statusWord s
  | .err => s.err.setWidth 32
  | .icnt => s.icnt.setWidth 32
  | .ocnt => s.ocnt.setWidth 32
  | .aadtLo => s.aadt.extractLsb' 0 32
  | .aadtHi => s.aadt.extractLsb' 32 32
  | .cttLo => s.ctt.extractLsb' 0 32
  | .cttHi => s.ctt.extractLsb' 32 32
  | .hcnt => s.hcnt.setWidth 32
  | .cap => capWord s.cfg.params
  | .var => varWord s.cfg.params

/-- A bad access (R68): `answer` where the platform ignores it, a bus fault where it signals one. -/
def badAccess (s answer : State) : Result :=
  if s.cfg.params.busFaultOnBadAccess then .fault .busError else .next answer

/-- `MemRead(addr, n)` (R62, R64, R68): the value goes to the host, no register changes. -/
def busRead (addr n : Nat) (s : State) : Result :=
  match targetAt s.cfg.params addr n with
  | .reg r => .next { s with rdata := regValue s r }
  | .operandByte _ => .next { s with rdata := 0 }
  | .responseByte i => .next { s with rdata := (Memory.read s.obuf i).setWidth 32 }
  | .bad => badAccess s { s with rdata := 0 }
  | .outside => .refused .outsideBlock

/-- A write of ICNT (R65): `min(v[15:0], IBUF_MAX)`. -/
def writeIcnt (v : Word) (s : State) : State :=
  { s with icnt := BitVec.ofNat 16 (min (v.extractLsb' 0 16).toNat s.cfg.params.ibufMax) }

/-- A write of the operand window (R64); the byte is the low byte of the access. -/
def writeOperandByte (i : Nat) (v : Word) (s : State) : State :=
  { s with ibuf := Memory.write s.ibuf i (v.extractLsb' 0 8) }

/-- The bytes of a command word as the bus carries them (R69 item 4). -/
def fetchCommand (cw : Word) : Bytes := wordBytes cw

/-- A write of CMD (R66): decode the word and execute it; an illegal word is a failed command (30_encoding.md R95). -/
def writeCmd (cw : Word) (s : State) : Result :=
  match decode (fetchCommand cw) with
  | .ok (i, _) => exec i s
  | .error _ => illegalCommand s

/-- A write of a register (R63): CMD executes, ICNT stores, a read-only register ignores it. -/
def writeReg (r : Reg) (v : Word) (s : State) : Result :=
  match r with
  | .cmd => writeCmd v s
  | .icnt => .next (writeIcnt v s)
  | .status | .err | .ocnt | .aadtLo | .aadtHi | .cttLo | .cttHi | .hcnt | .cap | .var => .next s

/-- `MemWrite(addr, n, v)` (R63, R64, R68). -/
def busWrite (addr n : Nat) (v : Word) (s : State) : Result :=
  match targetAt s.cfg.params addr n with
  | .reg r => writeReg r v s
  | .operandByte i => .next (writeOperandByte i v s)
  | .responseByte _ => .next s
  | .bad => badAccess s s
  | .outside => .refused .outsideBlock

/-- One host access, performed completely (R72); reset is 70_reset_and_hazards.md R250. -/
def performAccess (a : HostAccess) (s : State) : Result :=
  match a with
  | .read addr n => busRead addr n s
  | .write addr n v => busWrite addr n v s
  | .reset => .next (zeroRegisters s)

/-- One step: the host's next access in its program order (R72); with none pending the CORE does nothing
(00_scope.md R5). -/
def hostStep (s : State) : Result :=
  match s.hostq with
  | [] => .next s
  | a :: rest => performAccess a { s with hostq := rest }

/-- The access that writes a command word to CMD. -/
def commandWrite (p : Params) (cw : Word) : HostAccess := .write p.base 4 cw

end Sys2Proof.Machine
end

