-- ==== Sys2Proof/Machine/Step.lean ====
section
/-! DEFINITION. One step of the machine, and where it takes its next command from (log entry 1). -/

namespace Sys2Proof.Machine

/-- One step: the host's next bus access (20_memory.md R66, R72). -/
def step (s : State) : Host.Outcome State Fault Refusal := hostStep s

/-- `s` with the host's write of a command word to CMD as its next access (log entry 1). -/
def State.withFetchWord (s : State) (nbits w : Nat) : State :=
  { s with hostq := commandWrite s.cfg.params (BitVec.ofNat 32 (w % 2 ^ nbits)) :: s.hostq }

end Sys2Proof.Machine
end

