-- ==== Sys2Proof/Safety.lean ====
section
/-! DEFINITION. The terms claims are written in: what a refused command leaves, what a response is, the spec's tables as
propositions, the invariants of 10_state.md R40. Nothing here is part of the machine. -/

namespace Sys2Proof.Safety

open Sys2Proof.Machine

/-! ### Byte strings as numbers, and the operand by bytes -/

/-- The number of a byte string whose byte 0 is least significant (40_ctr_keystream.md R112). -/
def leNat : Bytes → Nat
  | [] => 0
  | b :: bs => b.toNat + 256 * leNat bs

/-- The number of a byte string whose byte 0 is most significant (40_ctr_keystream.md R111). -/
def beNat : Bytes → Nat
  | [] => 0
  | b :: bs => b.toNat * 256 ^ bs.length + beNat bs

/-- `IBUF[0..n)`, byte by byte. -/
def operandBytes (s : State) (n : Nat) : Bytes := (List.range n).map (Memory.read s.ibuf)

/-! ### What a command leaves -/

/-- `IBUF = zeros, ICNT = 0` (10_state.md R32). -/
def OperandCleared (t : State) : Prop := (∀ a, Memory.read t.ibuf a = 0) ∧ t.icnt = 0

/-- The response is B and the rest of OBUF is zero (10_state.md R33). -/
def Response (t : State) (B : Bytes) : Prop :=
  t.ocnt.toNat = B.length ∧ ∀ a, Memory.read t.obuf a = B.getD a 0

/-- A failed command (60_exceptions.md R226): buffers cleared, `ERR` = code, `ESTICKY` = 1, every other field as it
was. -/
def Refused (s t : State) (code : Byte) : Prop :=
  OperandCleared t ∧ Response t [] ∧ t.err = code ∧ t.esticky = true ∧
  t = { s with ibuf := t.ibuf, icnt := t.icnt, obuf := t.obuf, ocnt := t.ocnt, err := t.err, esticky := t.esticky }

/-- A successful command's part of the frame (44_commands.md R180): operand cleared, `ERR` = 0x00. -/
def Succeeded (t : State) : Prop := OperandCleared t ∧ t.err = 0

/-- Every register of 10_state.md R20 at its value of R39. -/
structure AtReset (t : State) : Prop where
  phase : t.phase = .uninit
  mode : t.mode = ⟨.ctr, .class0, .encrypt, .bigEndian, .hkdf⟩
  staging : (∀ b ∈ t.keyr, b = 0) ∧ (∀ b ∈ t.nonr, b = 0) ∧ (∀ b ∈ t.infr, b = 0)
  sizes : t.keyr.length = t.cfg.params.keyCap ∧ t.nonr.length = t.cfg.params.nonceCap ∧
    t.infr.length = t.cfg.params.infoCap ∧ t.mkey.length = 64 ∧ t.ctrb.length = t.cfg.params.nonceCap
  counts : t.keyn = 0 ∧ t.nonn = 0 ∧ t.infn = 0
  secrets : t.ks = keySchedule0 ∧ (∀ b ∈ t.mkey, b = 0) ∧ (∀ b ∈ t.ctrb, b = 0) ∧ t.macst = none
  totals : t.aadt = 0 ∧ t.ctt = 0
  buffers : (∀ a, Memory.read t.hold a = 0) ∧ (∀ a, Memory.read t.ibuf a = 0) ∧ (∀ a, Memory.read t.obuf a = 0)
  bufferCounts : t.hcnt = 0 ∧ t.icnt = 0 ∧ t.ocnt = 0
  flags : t.err = 0 ∧ t.esticky = false ∧ t.authok = false

/-! ### The spec's tables as propositions -/

/-- The "engines" and "DIR" columns of the admission table (44_commands.md R181), for session commands. -/
def EngineAndDirColumn : Instr → Engine → Direction → Prop
  | .setaad _, e, _ => e = .hba ∨ e = .rcs
  | .xform _, e, _ => e = .ctr ∨ e = .hba ∨ e = .rcs
  | .final, e, d => (e = .hba ∨ e = .rcs) ∧ d = .encrypt
  | .verify _, e, d => (e = .hba ∨ e = .rcs) ∧ d = .decrypt
  | .stnonce, e, _ => e = .rcs
  | .ldkey _, _, _ | .ldnonce _, _, _ | .ldinfo _, _, _ | .init .., _, _ | .dispose, _, _ => True

/-- The "phases" column of the admission table (44_commands.md R181). -/
def PhaseColumn : Instr → Engine → Phase → Prop
  | .setaad _, _, p => p = .init ∨ p = .aad
  | .xform _, .ctr, p => p = .init ∨ p = .xform
  | .xform _, .hba, p => p = .aad ∨ p = .xform
  | .xform _, .rcs, p => p = .aad ∨ p = .xform
  | .final, _, p => p = .aad ∨ p = .xform
  | .verify _, _, p => p = .aad ∨ p = .xform
  | .stnonce, _, p => p = .init ∨ p = .aad ∨ p = .xform ∨ p = .final
  | .ldkey _, _, p | .ldnonce _, _, p | .ldinfo _, _, p | .init .., _, p => p = .uninit
  | .dispose, _, _ => True

/-- The commands of a session, which R181 tests for UNINIT, engine and direction before the phase. -/
def SessionCommand : Instr → Prop
  | .setaad _ | .xform _ | .final | .verify _ | .stnonce => True
  | .ldkey _ | .ldnonce _ | .ldinfo _ | .init .. | .dispose => False

/-- The table of phase transitions of successful commands (44_commands.md R182): from, to. -/
def Transition : Instr → Engine → Phase → Phase → Prop
  | .ldkey _, _, p, p' | .ldnonce _, _, p, p' | .ldinfo _, _, p, p' => p = .uninit ∧ p' = .uninit
  | .init .., _, p, p' => p = .uninit ∧ p' = .init
  | .setaad _, _, p, p' => (p = .init ∨ p = .aad) ∧ p' = .aad
  | .xform _, e, p, p' => ((p = .init ∧ e = .ctr) ∨ (p = .aad ∧ e ≠ .ctr) ∨ p = .xform) ∧ p' = .xform
  | .final, _, p, p' => (p = .aad ∨ p = .xform) ∧ p' = .final
  | .verify _, _, p, p' => (p = .aad ∨ p = .xform) ∧ p' = .final
  | .stnonce, _, p, p' => (p = .init ∨ p = .aad ∨ p = .xform ∨ p = .final) ∧ p' = p
  | .dispose, _, _, p' => p' = .uninit

/-- The column "raised by" of the table of result codes (60_exceptions.md R221), command by command, with 0x00. -/
def codesOf : Instr → List Byte
  | .ldkey _ => [0x00, 0x11, 0x20, 0x40]
  | .ldnonce _ => [0x00, 0x12, 0x20, 0x40]
  | .ldinfo _ => [0x00, 0x13, 0x20, 0x40]
  | .init .. => [0x00, 0x10, 0x11, 0x12, 0x13, 0x20]
  | .setaad _ => [0x00, 0x14, 0x20, 0x21, 0x40]
  | .xform _ => [0x00, 0x20, 0x40, 0x41, 0x42]
  | .final => [0x00, 0x20, 0x21]
  | .verify _ => [0x00, 0x20, 0x21, 0x30, 0x40, 0x43]
  | .stnonce => [0x00, 0x20, 0x21]
  | .dispose => [0x00]

/-- The codes a command word of any kind can leave in ERR (60_exceptions.md R221). -/
def allCodes : List Byte := [0x00, 0x10, 0x11, 0x12, 0x13, 0x14, 0x1F, 0x20, 0x21, 0x30, 0x40, 0x41, 0x42, 0x43]

/-- The illegal words (30_encoding.md R95), by the bits of the word. -/
def IllegalWord (cw : Word) : Prop :=
  let opc := cw.extractLsb' 24 8
  let md := cw.extractLsb' 16 8
  let len := cw.extractLsb' 0 16
  (opc = 0x00 ∨ 0x0B ≤ opc) ∨ (opc ≠ 0x04 ∧ md ≠ 0) ∨
  ((opc = 0x04 ∨ opc = 0x07 ∨ opc = 0x09 ∨ opc = 0x0A) ∧ len ≠ 0) ∨
  (opc = 0x04 ∧ (cw.extractLsb' 22 2 ≠ 0 ∨ cw.extractLsb' 16 2 = 3 ∨
    (cw.getLsbD 21 = true ∧ cw.extractLsb' 16 2 ≠ 1)))

/-- An access that rules R62 to R66 of 20_memory.md give a meaning, `off` being the offset from BASE. -/
def MappedAccess (p : Params) (off n : Nat) : Prop :=
  (n = 4 ∧ off % 4 = 0 ∧ off ≤ 0x2C) ∨
  (n = 1 ∧ 0x10000 ≤ off ∧ off < 0x10000 + p.ibufMax) ∨
  (n = 1 ∧ 0x20000 ≤ off ∧ off < 0x20000 + p.obufMax)

/-! ### The keystream and the tag in closed form -/

/-- The counter block after `k` increments (40_ctr_keystream.md R112, R115). -/
def counterAfter (s : State) (k : Nat) : Bytes := (incCounter s.mode.ce)^[k] (counterBlock s)

/-- Keystream byte `j` of the session's next transform (R114, R115): byte `j mod BL` of the engine's output, `BcEnc` under
CTR and HBA and `RcsEnc` under RCS, for the counter block incremented `j / BL` times. DIR does not enter. -/
def keystreamByte (E : Engines) (s : State) (j : Nat) : Byte :=
  match s.mode.eng with
  | .ctr | .hba => E.bcEncByte s.ks (counterAfter s (j / blockLen s)) (j % blockLen s)
  | .rcs => E.rcsEncByte s.mode.cls s.ks (counterAfter s (j / blockLen s)) (j % blockLen s)

/-- The transform of X in closed form: byte `j` is `X[j] xor` keystream byte `j`. -/
def transformed (E : Engines) (s : State) (X : Bytes) : Bytes :=
  (List.range X.length).map fun j => X.getD j 0 ^^^ keystreamByte E s j

/-- `ceil(n / BL)` keystream blocks, as the least count that covers `n` bytes. -/
def blocksFor (s : State) (n : Nat) : Nat := n / blockLen s + (if n % blockLen s = 0 then 0 else 1)

/-- The tag of the session's transcript (43_tag_compare.md R171, 41_hba.md R138). -/
def tagOf (E : Engines) (s : State) (m : MacState) : Bytes :=
  (List.range (sessionVariant s).tagLen).map
    (E.macByte m.rc m.key m.cust (m.msg ++ (le64 s.aadt ++ le64 s.ctt)) (sessionVariant s).tagLen)

/-! ### The invariants of reachable states (10_state.md R40) -/

/-- Register sizes, counts within their capacities, canonical memories, zeros beyond the counts (R23 to R25, R27, R28,
R31 to R33, R40 item 5). -/
structure Shaped (s : State) : Prop where
  keyr_len : s.keyr.length = s.cfg.params.keyCap
  nonr_len : s.nonr.length = s.cfg.params.nonceCap
  infr_len : s.infr.length = s.cfg.params.infoCap
  mkey_len : s.mkey.length = mkeyCap
  ctrb_len : s.ctrb.length = s.cfg.params.nonceCap
  keyn_le : s.keyn ≤ s.cfg.params.keyCap
  nonn_le : s.nonn ≤ s.cfg.params.nonceCap
  infn_le : s.infn ≤ s.cfg.params.infoCap
  icnt_le : s.icnt.toNat ≤ s.cfg.params.ibufMax
  ocnt_le : s.ocnt.toNat ≤ s.cfg.params.obufMax
  hcnt_le : s.hcnt.toNat ≤ s.cfg.params.obufMax
  aadt_le : s.aadt.toNat ≤ (sessionVariant s).aadMax
  keyr_tail : ∀ b ∈ s.keyr.drop s.keyn, b = 0
  nonr_tail : ∀ b ∈ s.nonr.drop s.nonn, b = 0
  infr_tail : ∀ b ∈ s.infr.drop s.infn, b = 0
  mkey_tail : ∀ b ∈ s.mkey.drop (sessionVariant s).mkeyLen, b = 0
  ctrb_tail : ∀ b ∈ s.ctrb.drop (blockLen s), b = 0
  ibuf_wf : Memory.wf s.ibuf = true
  obuf_wf : Memory.wf s.obuf = true
  hold_wf : Memory.wf s.hold = true
  ibuf_tail : ∀ a, s.cfg.params.ibufMax ≤ a → Memory.read s.ibuf a = 0
  obuf_tail : ∀ a, s.ocnt.toNat ≤ a → Memory.read s.obuf a = 0
  hold_tail : ∀ a, s.hcnt.toNat ≤ a → Memory.read s.hold a = 0

/-- R40 item 2: nothing of a session in phase UNINIT. -/
structure NoSession (s : State) : Prop where
  mode : s.mode = mode0
  ks : s.ks = keySchedule0
  mkey : ∀ b ∈ s.mkey, b = 0
  ctrb : ∀ b ∈ s.ctrb, b = 0
  macst : s.macst = none
  aadt : s.aadt = 0
  ctt : s.ctt = 0
  hold : ∀ a, Memory.read s.hold a = 0
  hcnt : s.hcnt = 0
  authok : s.authok = false

/-- R40 item 3: a live session has consumed its arguments; and its accumulator is the primed one, extended (R29, 41_hba.md
R131, 42_rcs.md R151). -/
structure LiveSession (s : State) : Prop where
  counts : s.keyn = 0 ∧ s.nonn = 0 ∧ s.infn = 0
  supported : (sessionVariant s).supported = true
  mac0_iff : s.macst = none ↔ s.mode.eng = .ctr
  keyed : ∀ m, s.macst = some m → m.rc = (sessionVariant s).rc ∧ m.key = macKey s ∧
    m.cust = engines.cust s.mode.eng s.mode.cls

/-- R40 items 2 to 4 and 6 to 8, with R22 (KDF), R31 (HOLD) and R35 (ESTICKY, ERR). -/
structure Sequenced (s : State) : Prop where
  uninit : s.phase = .uninit → NoSession s
  live : s.phase ≠ .uninit → LiveSession s
  ctr : s.mode.eng = .ctr → (s.phase = .uninit ∨ s.phase = .init ∨ s.phase = .xform) ∧ s.aadt = 0 ∧ s.hcnt = 0 ∧
    s.authok = false
  kdf : s.mode.eng ≠ .hba → s.mode.kdf = .hkdf
  transcript : ∀ m, s.macst = some m → (s.phase = .init ∨ s.phase = .aad ∨ s.phase = .xform) →
    m.msg.length = blockLen s + s.aadt.toNat + s.ctt.toNat
  withheld : s.mode.eng ≠ .ctr → s.mode.dir = .decrypt → (s.phase = .init ∨ s.phase = .aad ∨ s.phase = .xform) →
    s.hcnt.toNat = s.ctt.toNat
  nothing_withheld : s.mode.dir = .encrypt → s.hcnt = 0
  init : s.phase = .init → s.aadt = 0 ∧ s.ctt = 0
  aad : s.phase = .aad → s.ctt = 0
  final : s.phase = .final → s.hcnt = 0
  authok : s.authok = true → s.phase = .final ∧ s.mode.dir = .decrypt
  failed : s.phase = .failed → s.mode.dir = .decrypt ∧ s.hcnt = 0 ∧ s.authok = false ∧ s.esticky = true
  sticky : s.err ≠ 0 → s.esticky = true
  code : s.err ∈ allCodes

/-- The invariants of 10_state.md R40. -/
structure Invariants (s : State) : Prop where
  shaped : Shaped s
  sequenced : Sequenced s

end Sys2Proof.Safety
end

