-- ==== Sys2Proof/Certificates/Slice0/Obligations.lean ====
section
/-! DEFINITION. The statements for the provers. `Obligations.<Name>` is one statement; its rule is in OBLIGATIONS.json and
in its docstring. -/

open Sys2Proof Sys2Proof.Machine Sys2Proof.Safety

/-! ### The command word -/

/-- 30_encoding.md R96: decoding the bytes of an encoded legal command, whatever bytes follow, gives the command back. -/
def Obligations.DecodeOfEncodeIsTheCommand : Prop :=
  ∀ (i : Instr) (rest : Bytes), WellFormed i → decode (encode i ++ rest) = .ok (i, rest)

/-- 30_encoding.md R96: a word that decodes is the encoding of what it decodes to, and that is a legal command. -/
def Obligations.EncodeOfDecodeIsTheWord : Prop :=
  ∀ (cw : Word) (i : Instr), decodeWord cw = .ok i → encodeWord i = cw ∧ WellFormed i

/-- 30_encoding.md R92: a word is a row's command exactly when its masked bits match (INIT: and the side conditions of
R93 hold), with the fields where R90 and R93 put them. -/
def Obligations.OpcodeMapMatchAndMask : Prop :=
  ∀ cw : Word,
    (∀ len, decodeWord cw = .ok (.ldkey len) ↔ cw &&& 0xFFFF0000 = 0x01000000 ∧ len = cw.extractLsb' 0 16) ∧
    (∀ len, decodeWord cw = .ok (.ldnonce len) ↔ cw &&& 0xFFFF0000 = 0x02000000 ∧ len = cw.extractLsb' 0 16) ∧
    (∀ len, decodeWord cw = .ok (.ldinfo len) ↔ cw &&& 0xFFFF0000 = 0x03000000 ∧ len = cw.extractLsb' 0 16) ∧
    (∀ eng cls dir ce kdf, decodeWord cw = .ok (.init eng cls dir ce kdf) ↔
      cw &&& 0xFFC0FFFF = 0x04000000 ∧ cw.extractLsb' 16 2 = engCode eng ∧ cw.getLsbD 18 = clsBit cls ∧
      cw.getLsbD 19 = dirBit dir ∧ cw.getLsbD 20 = ceBit ce ∧ cw.getLsbD 21 = kdfBit kdf ∧
      (kdf = .kmac → eng = .hba)) ∧
    (∀ len, decodeWord cw = .ok (.setaad len) ↔ cw &&& 0xFFFF0000 = 0x05000000 ∧ len = cw.extractLsb' 0 16) ∧
    (∀ len, decodeWord cw = .ok (.xform len) ↔ cw &&& 0xFFFF0000 = 0x06000000 ∧ len = cw.extractLsb' 0 16) ∧
    (decodeWord cw = .ok .final ↔ cw &&& 0xFFFFFFFF = 0x07000000) ∧
    (∀ len, decodeWord cw = .ok (.verify len) ↔ cw &&& 0xFFFF0000 = 0x08000000 ∧ len = cw.extractLsb' 0 16) ∧
    (decodeWord cw = .ok .stnonce ↔ cw &&& 0xFFFFFFFF = 0x09000000) ∧
    (decodeWord cw = .ok .dispose ↔ cw &&& 0xFFFFFFFF = 0x0A000000)

/-- 30_encoding.md R95: the words without a command are exactly the illegal ones, and writing one to CMD is a failed
command with code 0x1F that changes nothing but the buffers, ERR and ESTICKY. -/
def Obligations.IllegalWordsFailAndChangeNothingElse : Prop :=
  (∀ cw : Word, (∃ e, decodeWord cw = .error e) ↔ IllegalWord cw) ∧
  (∀ (s : State) (cw : Word) (q : List HostAccess), s.hostq = .write s.cfg.params.base 4 cw :: q → IllegalWord cw →
    ∃ t, step s = .next t ∧ Refused { s with hostq := q } t 0x1F) ∧
  IllegalWord 0x00000000 ∧ IllegalWord 0xFFFFFFFF

/-- 95_test_vectors.md section 3.1: words written out from the encodings decode to their commands (a sanity check). -/
def Obligations.SampleWordsDecode : Prop :=
  decodeWord 0x01000020 = .ok (.ldkey 32) ∧ decodeWord 0x02000010 = .ok (.ldnonce 16) ∧
  decodeWord 0x03000003 = .ok (.ldinfo 3) ∧
  decodeWord 0x041A0000 = .ok (.init .rcs .class0 .decrypt .littleEndian .hkdf) ∧
  decodeWord 0x05000003 = .ok (.setaad 3) ∧ decodeWord 0x06000014 = .ok (.xform 20) ∧
  decodeWord 0x07000000 = .ok .final ∧ decodeWord 0x08000020 = .ok (.verify 32) ∧
  decodeWord 0x09000000 = .ok .stnonce ∧ decodeWord 0x0A000000 = .ok .dispose

/-! ### The host's accesses -/

/-- 20_memory.md R66: a write of a legal command word to CMD is the execution of the decoded command, on the state from
which that one access has been taken; and `withFetchWord` places exactly such an access. That accesses are taken from a
queue in State is the model's own form (log entry 1). -/
def Obligations.StepRunsTheDecodedCommand : Prop :=
  (∀ (s : State) (q : List HostAccess) (cw : Word) (i : Instr),
    s.hostq = .write s.cfg.params.base 4 cw :: q → decode (wordBytes cw) = .ok (i, []) →
    WellFormed i ∧ step s = exec i { s with hostq := q }) ∧
  (∀ (s : State) (cw : Word) (i : Instr),
    decode (wordBytes cw) = .ok (i, []) → step (s.withFetchWord 32 cw.toNat) = exec i s)

/-- 20_memory.md R62: a 4-byte read of a register answers its value, 0 for CMD, and changes nothing. The bits of the two
constant registers, CAP and VAR, are those of 10_state.md R37. -/
def Obligations.RegisterReadsAnswerTheirValues : Prop :=
  (∀ (s : State) (q : List HostAccess) (k : Nat), k < 12 → s.hostq = .read (s.cfg.params.base + 4 * k) 4 :: q →
    step s = .next { s with
      hostq := q
      rdata := [0, statusWord s, s.err.setWidth 32, s.icnt.setWidth 32, s.ocnt.setWidth 32,
        s.aadt.setWidth 32, (s.aadt >>> 32).setWidth 32, s.ctt.setWidth 32, (s.ctt >>> 32).setWidth 32,
        s.hcnt.setWidth 32, capWord s.cfg.params, varWord s.cfg.params].getD k 0 }) ∧
  (∀ c : Config,
    ((capWord c.params).extractLsb' 0 16).toNat = c.params.ibufMax ∧
    ((capWord c.params).extractLsb' 16 16).toNat = c.params.obufMax ∧
    (varWord c.params).getLsbD 0 = (c.params.variant .ctr .class0).supported ∧
    (varWord c.params).getLsbD 1 = (c.params.variant .ctr .class1).supported ∧
    (varWord c.params).getLsbD 2 = (c.params.variant .hba .class0).supported ∧
    (varWord c.params).getLsbD 3 = (c.params.variant .hba .class1).supported ∧
    (varWord c.params).getLsbD 4 = (c.params.variant .rcs .class0).supported ∧
    (varWord c.params).getLsbD 5 = (c.params.variant .rcs .class1).supported ∧
    (varWord c.params).extractLsb' 6 2 = 0 ∧
    (varWord c.params).getLsbD 8 = kdfSupported c.params .hkdf ∧
    (varWord c.params).getLsbD 9 = kdfSupported c.params .kmac ∧
    (varWord c.params).extractLsb' 10 22 = 0)

/-- 10_state.md R36: the fields of STATUS, with the codes of PHASE (R21) and of MODE's fields (R22), that a read of offset
0x004 answers it, and that a write to it is ignored. -/
def Obligations.StatusFields : Prop :=
  (phaseCode .uninit = 0 ∧ phaseCode .init = 1 ∧ phaseCode .aad = 2 ∧ phaseCode .xform = 3 ∧ phaseCode .final = 4 ∧
    phaseCode .failed = 5) ∧
  (engCode .ctr = 0 ∧ engCode .hba = 1 ∧ engCode .rcs = 2 ∧ clsBit .class0 = false ∧ clsBit .class1 = true ∧
    dirBit .encrypt = false ∧ dirBit .decrypt = true ∧ ceBit .bigEndian = false ∧ ceBit .littleEndian = true ∧
    kdfBit .hkdf = false ∧ kdfBit .kmac = true) ∧
  ∀ s : State,
    (statusWord s).extractLsb' 0 3 = phaseCode s.phase ∧
    (statusWord s).extractLsb' 3 2 = engCode s.mode.eng ∧
    (statusWord s).getLsbD 5 = clsBit s.mode.cls ∧
    (statusWord s).getLsbD 6 = dirBit s.mode.dir ∧
    (statusWord s).getLsbD 7 = ceBit s.mode.ce ∧
    (statusWord s).getLsbD 8 = kdfBit s.mode.kdf ∧
    ((statusWord s).getLsbD 9 = true ↔ s.keyn ≠ 0) ∧
    ((statusWord s).getLsbD 10 = true ↔ s.nonn ≠ 0) ∧
    ((statusWord s).getLsbD 11 = true ↔ s.infn ≠ 0) ∧
    (statusWord s).getLsbD 12 = s.esticky ∧
    (statusWord s).getLsbD 13 = s.authok ∧
    (statusWord s).extractLsb' 14 18 = 0 ∧
    (∀ q, s.hostq = .read (s.cfg.params.base + 4) 4 :: q →
      step s = .next { s with hostq := q, rdata := statusWord s }) ∧
    (∀ v q, s.hostq = .write (s.cfg.params.base + 4) 4 v :: q → step s = .next { s with hostq := q })

/-- 20_memory.md R63, R65: a write of ICNT stores min(v[15:0], IBUF_MAX) and a write of a read-only register is
ignored. -/
def Obligations.RegisterWritesStoreOnlyIcnt : Prop :=
  (∀ (s : State) (q : List HostAccess) (v : Word), s.hostq = .write (s.cfg.params.base + 0x0C) 4 v :: q →
    ∃ t, step s = .next t ∧ t.icnt.toNat = min (v.toNat % 65536) s.cfg.params.ibufMax ∧
      t = { s with hostq := q, icnt := t.icnt }) ∧
  (∀ (s : State) (q : List HostAccess) (v : Word) (k : Nat), k < 12 → k ≠ 0 → k ≠ 3 →
    s.hostq = .write (s.cfg.params.base + 4 * k) 4 v :: q → step s = .next { s with hostq := q })

/-- 20_memory.md R64: the operand window stores the byte and reads as 0; the response window reads OBUF and ignores
writes. -/
def Obligations.WindowAccesses : Prop :=
  (∀ (s : State) (q : List HostAccess) (v : Word) (j : Nat), j < s.cfg.params.ibufMax → Memory.wf s.ibuf = true →
    s.hostq = .write (s.cfg.params.base + 0x10000 + j) 1 v :: q →
    ∃ t, step s = .next t ∧ Memory.read t.ibuf j = v.setWidth 8 ∧
      (∀ a, a ≠ j → Memory.read t.ibuf a = Memory.read s.ibuf a) ∧ t = { s with hostq := q, ibuf := t.ibuf }) ∧
  (∀ (s : State) (q : List HostAccess) (j : Nat), j < s.cfg.params.ibufMax →
    s.hostq = .read (s.cfg.params.base + 0x10000 + j) 1 :: q → step s = .next { s with hostq := q, rdata := 0 }) ∧
  (∀ (s : State) (q : List HostAccess) (j : Nat), j < s.cfg.params.obufMax →
    s.hostq = .read (s.cfg.params.base + 0x20000 + j) 1 :: q →
    step s = .next { s with hostq := q, rdata := (Memory.read s.obuf j).setWidth 32 }) ∧
  (∀ (s : State) (q : List HostAccess) (v : Word) (j : Nat), j < s.cfg.params.obufMax →
    s.hostq = .write (s.cfg.params.base + 0x20000 + j) 1 v :: q → step s = .next { s with hostq := q })

/-- 20_memory.md R68: any other access inside the block reads 0 and writes nothing. Where the platform signals a bus error
instead, that the step is the fault `busError` is the model's choice (log entry 12). -/
def Obligations.BadAccessesDoNothing : Prop :=
  ∀ (s : State) (q : List HostAccess) (off n : Nat), off < 0x40000 → ¬ MappedAccess s.cfg.params off n →
    (s.cfg.params.busFaultOnBadAccess = false →
      (s.hostq = .read (s.cfg.params.base + off) n :: q → step s = .next { s with hostq := q, rdata := 0 }) ∧
      (∀ v, s.hostq = .write (s.cfg.params.base + off) n v :: q → step s = .next { s with hostq := q })) ∧
    (s.cfg.params.busFaultOnBadAccess = true →
      (s.hostq = .read (s.cfg.params.base + off) n :: q → step s = .fault .busError) ∧
      (∀ v, s.hostq = .write (s.cfg.params.base + off) n v :: q → step s = .fault .busError))

/-- The model's choice (log entries 12 and 13): a step faults only for an unmapped access inside the block on a platform
that signals a bus error, and refuses only an access outside the CORE's block; no command word ever stops the machine. -/
def Obligations.WhereAStepStops : Prop :=
  (∀ (s : State) (f : Fault), step s = .fault f → f = .busError ∧ s.cfg.params.busFaultOnBadAccess = true ∧
    ∃ off n v q,
      (s.hostq = .read (s.cfg.params.base + off) n :: q ∨ s.hostq = .write (s.cfg.params.base + off) n v :: q) ∧
      off < 0x40000 ∧ ¬ MappedAccess s.cfg.params off n) ∧
  (∀ (s : State) (r : Refusal), step s = .refused r → r = .outsideBlock ∧ ∃ addr n v q,
    (s.hostq = .read addr n :: q ∨ s.hostq = .write addr n v :: q) ∧
    (addr < s.cfg.params.base ∨ s.cfg.params.base + 0x40000 ≤ addr)) ∧
  (∀ (s : State) (cw : Word) (q : List HostAccess), s.hostq = .write s.cfg.params.base 4 cw :: q →
    ∃ t, step s = .next t)

/-- 20_memory.md R72, 00_scope.md R5: a step that answers a next state has taken exactly the first pending access and has
kept the configuration; with none pending it changes nothing. The queue of accesses is the model's own form (log
entry 1); what each access does is in the other statements. -/
def Obligations.OneAccessPerStep : Prop :=
  (∀ (s : State), s.hostq = [] → step s = .next s) ∧
  (∀ (s t : State) (a : HostAccess) (q : List HostAccess), s.hostq = a :: q → step s = .next t →
    t.hostq = q ∧ t.cfg = s.cfg)

/-- 20_memory.md R71, 10_state.md R21, R22: an access that is neither a write to CMD nor a reset changes no register but
IBUF and ICNT. -/
def Obligations.OnlyCommandsAndResetChangeTheSession : Prop :=
  ∀ (s t : State) (a : HostAccess) (q : List HostAccess), s.hostq = a :: q → a ≠ .reset →
    (∀ v, a ≠ .write s.cfg.params.base 4 v) → step s = .next t →
    t = { s with hostq := q, rdata := t.rdata, ibuf := t.ibuf, icnt := t.icnt }

/-- 10_state.md R38: no bus address returns a secret: two states that differ only in KS, MKEY, MACST, HOLD, CTRB, the
staging registers and IBUF answer every bus read alike. -/
def Obligations.SecretsHaveNoBusReadPath : Prop :=
  ∀ (s s' t t' : State) (addr n : Nat) (q : List HostAccess),
    s' = { s with ks := s'.ks, mkey := s'.mkey, macst := s'.macst, hold := s'.hold, ctrb := s'.ctrb,
                  keyr := s'.keyr, nonr := s'.nonr, infr := s'.infr, ibuf := s'.ibuf } →
    s.hostq = .read addr n :: q → step s = .next t → step s' = .next t' → t'.rdata = t.rdata

/-! ### Reset -/

/-- 10_state.md R39, 70_reset_and_hazards.md R250: after reset, which the host may apply in any state, every register of
R20 holds its zero value and STATUS reads 0. -/
def Obligations.ResetLeavesTheResetValues : Prop :=
  AtReset State.reset ∧ statusWord State.reset = 0 ∧
  (∀ (s : State) (q : List HostAccess), s.hostq = .reset :: q →
    ∃ t, step s = .next t ∧ AtReset t ∧ statusWord t = 0)

/-- The invariants of 10_state.md R40 hold at reset. -/
def Obligations.InvariantsHoldAtReset : Prop := Invariants State.reset

/-! ### What every command shares -/

/-- 44_commands.md R180: every command is total: in every state it ends in a next state with an empty operand buffer, and
with ERR = 0x00 or ESTICKY set. -/
def Obligations.EveryCommandIsTotal : Prop :=
  ∀ (i : Instr) (s : State), ∃ t, exec i s = .next t ∧ OperandCleared t ∧ (t.err = 0 ∨ t.esticky = true) ∧
    t.cfg = s.cfg ∧ t.hostq = s.hostq ∧ t.rdata = s.rdata

/-- 60_exceptions.md R226: a command that ends with a raise, an illegal word among them, has changed nothing but the
buffers, ERR and ESTICKY; code 0x30, no raise, is the exception. -/
def Obligations.FailedCommandsChangeNothingElse : Prop :=
  (∀ (i : Instr) (s t : State), exec i s = .next t → t.err ≠ 0x00 → t.err ≠ 0x30 → Refused s t t.err) ∧
  (∀ (cw : Word) (e : DecodeError) (s t : State), decodeWord cw = .error e → writeCmd cw s = .next t → Refused s t 0x1F)

/-- 44_commands.md R181: the admission table, engine and direction (0x21) before the phase (0x20) in a session. -/
def Obligations.AdmissionTable : Prop :=
  ∀ (i : Instr) (s t : State), exec i s = .next t →
    (t.err = 0x21 ↔ SessionCommand i ∧ s.phase ≠ .uninit ∧ ¬ EngineAndDirColumn i s.mode.eng s.mode.dir) ∧
    (t.err = 0x20 ↔
      (SessionCommand i ∧ (s.phase = .uninit ∨
        (EngineAndDirColumn i s.mode.eng s.mode.dir ∧ ¬ PhaseColumn i s.mode.eng s.phase))) ∨
      (¬ SessionCommand i ∧ ¬ PhaseColumn i s.mode.eng s.phase))

/-- 44_commands.md R182: the phase after a command: the transition table on success, FAILED from AAD or XFORM on VERIFY's
tags-unequal outcome, unchanged otherwise. -/
def Obligations.PhaseTransitions : Prop :=
  ∀ (i : Instr) (s t : State), exec i s = .next t →
    (t.err = 0x00 → Transition i s.mode.eng s.phase t.phase) ∧
    (t.err = 0x30 → (∃ len, i = .verify len) ∧ (s.phase = .aad ∨ s.phase = .xform) ∧ t.phase = .failed) ∧
    (t.err ≠ 0x00 → t.err ≠ 0x30 → t.phase = s.phase)

/-- 44_commands.md R181 ("single-use"): in phase FAILED every command but DISPOSE is refused; in phase FINAL every command
but DISPOSE and, in an RCS session, STNONCE. -/
def Obligations.FinishedSessionsAdmitOnlyDisposal : Prop :=
  ∀ (i : Instr) (s t : State), exec i s = .next t → i ≠ .dispose →
    (s.phase = .failed → Refused s t 0x20 ∨ Refused s t 0x21) ∧
    (s.phase = .final → (i = .stnonce ∧ s.mode.eng = .rcs ∧ t.err = 0x00) ∨ Refused s t 0x20 ∨ Refused s t 0x21)

/-- 60_exceptions.md R221: no command ends with a code its row of the table does not list. -/
def Obligations.CodesEachCommandCanEndWith : Prop :=
  ∀ (i : Instr) (s t : State), exec i s = .next t → t.err ∈ codesOf i

/-- 10_state.md R35: ESTICKY is set by every failing command and cleared by DISPOSE alone; AUTHOK is set by a successful
VERIFY, cleared by a successful INIT and by DISPOSE, and otherwise kept. -/
def Obligations.StickyAndAuthFlags : Prop :=
  ∀ (i : Instr) (s t : State), exec i s = .next t →
    (i ≠ .dispose → (t.esticky = true ↔ s.esticky = true ∨ t.err ≠ 0x00)) ∧
    (i = .dispose → t.esticky = false) ∧
    (t.authok = true ↔ ((∃ len, i = .verify len) ∧ t.err = 0x00) ∨
      (s.authok = true ∧ i ≠ .dispose ∧ ¬ (t.err = 0x00 ∧ ∃ e c d o k, i = .init e c d o k)))

/-- 10_state.md R33: a command that leaves a response is one of the five: XFORM of a CTR or an encrypting session, FINAL, a
VERIFY that found the tags equal, STNONCE. -/
def Obligations.OnlyFiveThingsAreEverResponses : Prop :=
  ∀ (i : Instr) (s t : State), exec i s = .next t → t.ocnt ≠ 0 ∨ (∃ a, Memory.read t.obuf a ≠ 0) →
    t.err = 0x00 ∧
    (((∃ len, i = .xform len) ∧ (s.mode.eng = .ctr ∨ s.mode.dir = .encrypt)) ∨
      i = .final ∨ ((∃ len, i = .verify len) ∧ t.authok = true) ∨ i = .stnonce)

/-! ### Loading the arguments -/

/-- 44_commands.md R184: LDKEY. -/
def Obligations.LdkeyRule : Prop :=
  ∀ (len : BitVec 16) (s : State), ∃ t, exec (.ldkey len) s = .next t ∧
    if s.phase ≠ .uninit then Refused s t 0x20
    else if len = 0 ∨ s.cfg.params.keyCap < len.toNat then Refused s t 0x11
    else if s.icnt ≠ len then Refused s t 0x40
    else Succeeded t ∧ Response t [] ∧ t.keyn = len.toNat ∧ keyLoaded t = true ∧
      t.keyr.length = s.cfg.params.keyCap ∧
      (∀ j, t.keyr.getD j 0 = if j < len.toNat then Memory.read s.ibuf j else 0) ∧
      t = { s with keyr := t.keyr, keyn := t.keyn, ibuf := t.ibuf, icnt := t.icnt, obuf := t.obuf, ocnt := t.ocnt,
                   err := t.err }

/-- 44_commands.md R185: LDNONCE. -/
def Obligations.LdnonceRule : Prop :=
  ∀ (len : BitVec 16) (s : State), ∃ t, exec (.ldnonce len) s = .next t ∧
    if s.phase ≠ .uninit then Refused s t 0x20
    else if len = 0 ∨ s.cfg.params.nonceCap < len.toNat then Refused s t 0x12
    else if s.icnt ≠ len then Refused s t 0x40
    else Succeeded t ∧ Response t [] ∧ t.nonn = len.toNat ∧ nonceLoaded t = true ∧
      t.nonr.length = s.cfg.params.nonceCap ∧
      (∀ j, t.nonr.getD j 0 = if j < len.toNat then Memory.read s.ibuf j else 0) ∧
      t = { s with nonr := t.nonr, nonn := t.nonn, ibuf := t.ibuf, icnt := t.icnt, obuf := t.obuf, ocnt := t.ocnt,
                   err := t.err }

/-- 44_commands.md R186: LDINFO; LEN = 0 is legal. -/
def Obligations.LdinfoRule : Prop :=
  ∀ (len : BitVec 16) (s : State), ∃ t, exec (.ldinfo len) s = .next t ∧
    if s.phase ≠ .uninit then Refused s t 0x20
    else if s.cfg.params.infoCap < len.toNat then Refused s t 0x13
    else if s.icnt ≠ len then Refused s t 0x40
    else Succeeded t ∧ Response t [] ∧ t.infn = len.toNat ∧ (infoLoaded t = true ↔ len ≠ 0) ∧
      t.infr.length = s.cfg.params.infoCap ∧
      (∀ j, t.infr.getD j 0 = if j < len.toNat then Memory.read s.ibuf j else 0) ∧
      t = { s with infr := t.infr, infn := t.infn, ibuf := t.ibuf, icnt := t.icnt, obuf := t.obuf, ocnt := t.ocnt,
                   err := t.err }

/-! ### INIT -/

/-- 44_commands.md R187: INIT's checks in order; on success MODE is the command's, the staging registers are consumed, the
totals, HOLD and AUTHOK are zero and PHASE is INIT. The engine's own registers are in the three statements after this. -/
def Obligations.InitChecksAndConsumesTheArguments : Prop :=
  ∀ (eng : Engine) (cls : KeyClass) (dir : Direction) (ce : CounterOrder) (kdf : KdfStrategy) (s : State),
    ∃ t, exec (.init eng cls dir ce kdf) s = .next t ∧
    if s.phase ≠ .uninit then Refused s t 0x20
    else if (s.cfg.params.variant eng cls).supported = false then Refused s t 0x10
    else if eng = .hba ∧ kdfSupported s.cfg.params kdf = false then Refused s t 0x10
    else if s.keyn ≠ (s.cfg.params.variant eng cls).keyLen then Refused s t 0x11
    else if s.nonn ≠ (s.cfg.params.variant eng cls).blockLen then Refused s t 0x12
    else if (s.cfg.params.variant eng cls).infoMax < s.infn then Refused s t 0x13
    else Succeeded t ∧ Response t [] ∧ t.mode = ⟨eng, cls, dir, ce, kdf⟩ ∧ t.phase = .init ∧
      (∀ j, t.keyr.getD j 0 = 0) ∧ t.keyr.length = s.cfg.params.keyCap ∧ t.keyn = 0 ∧
      (∀ j, t.nonr.getD j 0 = 0) ∧ t.nonr.length = s.cfg.params.nonceCap ∧ t.nonn = 0 ∧
      (∀ j, t.infr.getD j 0 = 0) ∧ t.infr.length = s.cfg.params.infoCap ∧ t.infn = 0 ∧
      t.aadt = 0 ∧ t.ctt = 0 ∧ (∀ a, Memory.read t.hold a = 0) ∧ t.hcnt = 0 ∧ t.authok = false ∧
      t = { s with phase := t.phase, mode := t.mode, keyr := t.keyr, keyn := t.keyn, nonr := t.nonr, nonn := t.nonn,
                   infr := t.infr, infn := t.infn, ks := t.ks, mkey := t.mkey, ctrb := t.ctrb, macst := t.macst,
                   aadt := t.aadt, ctt := t.ctt, hold := t.hold, hcnt := t.hcnt, ibuf := t.ibuf, icnt := t.icnt,
                   obuf := t.obuf, ocnt := t.ocnt, err := t.err, authok := t.authok }

/-- 40_ctr_keystream.md R110, R118: a successful INIT of a CTR session; CTRB is the nonce followed by zeros, no MAC key and
no accumulator. -/
def Obligations.InitCtrSession : Prop :=
  ∀ (cls : KeyClass) (dir : Direction) (ce : CounterOrder) (kdf : KdfStrategy) (s : State),
    s.phase = .uninit → (s.cfg.params.variant .ctr cls).supported = true →
    s.keyn = (s.cfg.params.variant .ctr cls).keyLen → s.nonn = (s.cfg.params.variant .ctr cls).blockLen → s.infn = 0 →
    s.nonr.length = s.cfg.params.nonceCap →
    ∃ t, exec (.init .ctr cls dir ce kdf) s = .next t ∧ t.err = 0 ∧ t.phase = .init ∧
      t.ks = engines.bcExpand cls (s.keyr.take s.keyn) ∧
      t.mkey.length = 64 ∧ (∀ j, t.mkey.getD j 0 = 0) ∧ t.macst = none ∧
      t.ctrb.length = s.cfg.params.nonceCap ∧
      (∀ j, t.ctrb.getD j 0 = if j < s.nonn then s.nonr.getD j 0 else 0)

/-- 41_hba.md R130, R131 and 40_ctr_keystream.md R110: a successful INIT of an HBA session; the cipher is keyed by the key
itself, the MAC by `Kdf`, and the accumulator has absorbed the nonce. -/
def Obligations.InitHbaSession : Prop :=
  ∀ (cls : KeyClass) (dir : Direction) (ce : CounterOrder) (kdf : KdfStrategy) (s : State),
    s.phase = .uninit → (s.cfg.params.variant .hba cls).supported = true → kdfSupported s.cfg.params kdf = true →
    s.keyn = (s.cfg.params.variant .hba cls).keyLen → s.nonn = (s.cfg.params.variant .hba cls).blockLen →
    s.infn ≤ (s.cfg.params.variant .hba cls).infoMax → s.nonr.length = s.cfg.params.nonceCap →
    ∃ t, exec (.init .hba cls dir ce kdf) s = .next t ∧ t.err = 0 ∧ t.phase = .init ∧
      t.ks = engines.bcExpand cls (s.keyr.take s.keyn) ∧
      t.mkey.length = 64 ∧
      (∀ j, t.mkey.getD j 0 = if j < (s.cfg.params.variant .hba cls).mkeyLen then
        engines.kdfByte kdf (s.keyr.take s.keyn) (s.infr.take s.infn) (s.cfg.params.variant .hba cls).mkeyLen j
        else 0) ∧
      t.macst = some ⟨(s.cfg.params.variant .hba cls).rc, t.mkey.take (s.cfg.params.variant .hba cls).mkeyLen,
        engines.cust .hba cls, s.nonr.take s.nonn⟩ ∧
      t.ctrb.length = s.cfg.params.nonceCap ∧
      (∀ j, t.ctrb.getD j 0 = if j < s.nonn then s.nonr.getD j 0 else 0)

/-- 42_rcs.md R150, R151 and 40_ctr_keystream.md R110: a successful INIT of an RCS session; schedule and MAC key come from
one `RcsExpand`, and the accumulator has absorbed the nonce. -/
def Obligations.InitRcsSession : Prop :=
  ∀ (cls : KeyClass) (dir : Direction) (ce : CounterOrder) (kdf : KdfStrategy) (s : State),
    s.phase = .uninit → (s.cfg.params.variant .rcs cls).supported = true →
    s.keyn = (s.cfg.params.variant .rcs cls).keyLen → s.nonn = (s.cfg.params.variant .rcs cls).blockLen →
    s.infn ≤ (s.cfg.params.variant .rcs cls).infoMax → s.nonr.length = s.cfg.params.nonceCap →
    ∃ t, exec (.init .rcs cls dir ce kdf) s = .next t ∧ t.err = 0 ∧ t.phase = .init ∧
      t.ks = engines.rcsSchedule cls (s.keyr.take s.keyn) (s.infr.take s.infn) ∧
      t.mkey.length = 64 ∧
      (∀ j, t.mkey.getD j 0 = if j < (s.cfg.params.variant .rcs cls).mkeyLen then
        engines.rcsMacKeyByte cls (s.keyr.take s.keyn) (s.infr.take s.infn) j else 0) ∧
      t.macst = some ⟨(s.cfg.params.variant .rcs cls).rc, t.mkey.take (s.cfg.params.variant .rcs cls).mkeyLen,
        engines.cust .rcs cls, s.nonr.take s.nonn⟩ ∧
      t.ctrb.length = s.cfg.params.nonceCap ∧
      (∀ j, t.ctrb.getD j 0 = if j < s.nonn then s.nonr.getD j 0 else 0)

/-! ### SETAAD -/

/-- 44_commands.md R188, 41_hba.md R133, R134, 42_rcs.md R153: SETAAD; AADT grows by LEN without wrapping and the operand is
absorbed after what was absorbed before. -/
def Obligations.SetaadRule : Prop :=
  ∀ (len : BitVec 16) (s : State), ∃ t, exec (.setaad len) s = .next t ∧
    if s.phase = .uninit then Refused s t 0x20
    else if s.mode.eng = .ctr then Refused s t 0x21
    else if s.phase ≠ .init ∧ s.phase ≠ .aad then Refused s t 0x20
    else if (sessionVariant s).aadMax < s.aadt.toNat + len.toNat then Refused s t 0x14
    else if s.icnt ≠ len then Refused s t 0x40
    else Succeeded t ∧ Response t [] ∧ t.phase = .aad ∧ t.aadt.toNat = s.aadt.toNat + len.toNat ∧
      (∀ m, s.macst = some m → t.macst = some { m with msg := m.msg ++ operandBytes s len.toNat }) ∧
      t = { s with phase := t.phase, aadt := t.aadt, macst := t.macst, ibuf := t.ibuf, icnt := t.icnt, obuf := t.obuf,
                   ocnt := t.ocnt, err := t.err }

/-- 41_hba.md R133: only the concatenation of the operands matters: two SETAADs leave the very state that one
SETAAD of the concatenation leaves. -/
def Obligations.SetaadChunksConcatenate : Prop :=
  ∀ (len1 len2 : BitVec 16) (s t1 s2 t2 s3 t3 : State),
    len1.toNat + len2.toNat < 65536 →
    exec (.setaad len1) s = .next t1 → t1.err = 0 →
    s2 = { t1 with ibuf := s2.ibuf, icnt := s2.icnt } → exec (.setaad len2) s2 = .next t2 → t2.err = 0 →
    s3 = { s with ibuf := s3.ibuf, icnt := s3.icnt } → s3.icnt = len1 + len2 →
    operandBytes s3 (len1.toNat + len2.toNat) = operandBytes s len1.toNat ++ operandBytes s2 len2.toNat →
    exec (.setaad (len1 + len2)) s3 = .next t3 →
    t3.err = 0 ∧ t3 = t2

/-! ### The counter and the keystream -/

/-- 40_ctr_keystream.md R111: IncBE adds one to the block read with byte 0 most significant, modulo 256^BL. -/
def Obligations.BigEndianIncrementAddsOne : Prop :=
  ∀ C : Bytes, (incBE C).length = C.length ∧ beNat (incBE C) = (beNat C + 1) % 256 ^ C.length

/-- 40_ctr_keystream.md R112: IncLE adds one to the block read with byte 0 least significant, modulo 256^BL; CE selects
between the two. -/
def Obligations.LittleEndianIncrementAddsOne : Prop :=
  (∀ C : Bytes, (incLE C).length = C.length ∧ leNat (incLE C) = (leNat C + 1) % 256 ^ C.length) ∧
  (∀ C : Bytes, incCounter .bigEndian C = incBE C ∧ incCounter .littleEndian C = incLE C)

/-- 40_ctr_keystream.md R115, R114: CtrXor: output byte j is input byte j xor byte j mod BL of what the session's engine
makes of the counter block incremented j / BL times; the counter block is incremented ceil(n / BL) times; nothing else changes. -/
def Obligations.CtrXorInClosedForm : Prop :=
  ∀ (E : Engines) (s : State) (X : Bytes), s.ctrb.length = s.cfg.params.nonceCap →
    (ctrXor E s X).1 = transformed E s X ∧
    counterBlock (ctrXor E s X).2 = counterAfter s (blocksFor s X.length) ∧
    (∀ j, blockLen s ≤ j → (ctrXor E s X).2.ctrb.getD j 0 = s.ctrb.getD j 0) ∧
    (ctrXor E s X).2 = { s with ctrb := (ctrXor E s X).2.ctrb }

/-- 40_ctr_keystream.md R113, R115: after a transform of n bytes the counter block, read in the session's byte order, has
advanced by ceil(n / BL) modulo 256^BL. -/
def Obligations.CounterAdvancesByTheBlockCount : Prop :=
  ∀ (E : Engines) (s : State) (X : Bytes), s.ctrb.length = s.cfg.params.nonceCap →
    (s.mode.ce = .bigEndian → beNat (counterBlock (ctrXor E s X).2) =
      (beNat (counterBlock s) + blocksFor s X.length) % 256 ^ blockLen s) ∧
    (s.mode.ce = .littleEndian → leNat (counterBlock (ctrXor E s X).2) =
      (leNat (counterBlock s) + blocksFor s X.length) % 256 ^ blockLen s)

/-- 40_ctr_keystream.md R116: a transform of A || B is a transform of A and then one of B when |A| is a multiple of BL. -/
def Obligations.CtrXorSplitsAtBlockBoundaries : Prop :=
  ∀ (E : Engines) (s : State) (A B : Bytes), s.ctrb.length = s.cfg.params.nonceCap → A.length % blockLen s = 0 →
    (ctrXor E s (A ++ B)).1 = (ctrXor E s A).1 ++ (ctrXor E (ctrXor E s A).2 B).1 ∧
    (ctrXor E s (A ++ B)).2 = (ctrXor E (ctrXor E s A).2 B).2

/-- 40_ctr_keystream.md R117: the transform is its own inverse from the same counter. -/
def Obligations.CtrXorIsAnInvolution : Prop :=
  ∀ (E : Engines) (s : State) (X : Bytes), s.ctrb.length = s.cfg.params.nonceCap →
    (ctrXor E s (ctrXor E s X).1).1 = X ∧ (ctrXor E s (ctrXor E s X).1).2 = (ctrXor E s X).2

/-- 42_rcs.md R155: the fused, block-by-block transform of RCS leaves what the layered form leaves: one CtrXor and one
absorption of the whole ciphertext. It rests on the accumulator being streaming-consistent (00_scope.md R7; log
entry 8). -/
def Obligations.FusedTransformEqualsLayered : Prop :=
  ∀ (E : Engines) (s : State) (X : Bytes),
    (rcsXor E s X).1 = (ctrXor E s X).1 ∧
    (rcsXor E s X).2 = { (ctrXor E s X).2 with
      macst := macAbsorb s.macst (ciphertextOf s.mode.dir X (ctrXor E s X).1) }

/-! ### XFORM -/

/-- 44_commands.md R189: XFORM's checks in order; on success CTT grows by LEN without wrapping and PHASE is XFORM. -/
def Obligations.XformChecksInOrder : Prop :=
  ∀ (len : BitVec 16) (s : State), ∃ t, exec (.xform len) s = .next t ∧
    if s.phase = .uninit then Refused s t 0x20
    else if s.mode.eng = .ctr ∧ s.phase ≠ .init ∧ s.phase ≠ .xform then Refused s t 0x20
    else if s.mode.eng ≠ .ctr ∧ s.phase ≠ .aad ∧ s.phase ≠ .xform then Refused s t 0x20
    else if s.icnt ≠ len then Refused s t 0x40
    else if (s.mode.eng = .ctr ∨ s.mode.dir = .encrypt) ∧ s.cfg.params.obufMax < len.toNat then Refused s t 0x41
    else if s.mode.eng ≠ .ctr ∧ s.mode.dir = .decrypt ∧ s.cfg.params.obufMax < s.hcnt.toNat + len.toNat then
      Refused s t 0x41
    else if 2 ^ 64 ≤ s.ctt.toNat + len.toNat then Refused s t 0x42
    else Succeeded t ∧ t.phase = .xform ∧ t.ctt.toNat = s.ctt.toNat + len.toNat ∧
      t = { s with phase := t.phase, ctt := t.ctt, ctrb := t.ctrb, macst := t.macst, hold := t.hold, hcnt := t.hcnt,
                   ibuf := t.ibuf, icnt := t.icnt, obuf := t.obuf, ocnt := t.ocnt, err := t.err }

/-- 40_ctr_keystream.md R119: XFORM under CTR, in both directions: the transformed operand is the response, nothing is
absorbed or withheld. -/
def Obligations.XformCtrSession : Prop :=
  ∀ (len : BitVec 16) (s : State), s.mode.eng = .ctr → (s.phase = .init ∨ s.phase = .xform) → s.icnt = len →
    len.toNat ≤ s.cfg.params.obufMax → s.ctt.toNat + len.toNat < 2 ^ 64 → s.ctrb.length = s.cfg.params.nonceCap →
    ∃ t, exec (.xform len) s = .next t ∧ Succeeded t ∧
      Response t (transformed engines s (operandBytes s len.toNat)) ∧
      counterBlock t = counterAfter s (blocksFor s len.toNat) ∧
      (∀ j, blockLen s ≤ j → t.ctrb.getD j 0 = s.ctrb.getD j 0) ∧
      t.ctt.toNat = s.ctt.toNat + len.toNat ∧ t.phase = .xform ∧
      t = { s with phase := t.phase, ctt := t.ctt, ctrb := t.ctrb, ibuf := t.ibuf, icnt := t.icnt, obuf := t.obuf,
                   ocnt := t.ocnt, err := t.err }

/-- 41_hba.md R135 and 42_rcs.md R154 (DIR = 0): XFORM of an encrypting HBA or RCS session: the ciphertext is the response
and is absorbed; nothing is withheld. -/
def Obligations.XformEncryptingSession : Prop :=
  ∀ (len : BitVec 16) (s : State) (m : MacState), s.mode.eng ≠ .ctr → s.mode.dir = .encrypt →
    (s.phase = .aad ∨ s.phase = .xform) → s.macst = some m → s.icnt = len → len.toNat ≤ s.cfg.params.obufMax →
    s.ctt.toNat + len.toNat < 2 ^ 64 → s.ctrb.length = s.cfg.params.nonceCap →
    ∃ t, exec (.xform len) s = .next t ∧ Succeeded t ∧
      Response t (transformed engines s (operandBytes s len.toNat)) ∧
      t.macst = some { m with msg := m.msg ++ transformed engines s (operandBytes s len.toNat) } ∧
      counterBlock t = counterAfter s (blocksFor s len.toNat) ∧
      (∀ j, blockLen s ≤ j → t.ctrb.getD j 0 = s.ctrb.getD j 0) ∧
      t.ctt.toNat = s.ctt.toNat + len.toNat ∧ t.phase = .xform ∧
      t = { s with phase := t.phase, ctt := t.ctt, ctrb := t.ctrb, macst := t.macst, ibuf := t.ibuf, icnt := t.icnt,
                   obuf := t.obuf, ocnt := t.ocnt, err := t.err }

/-- 41_hba.md R136 and 42_rcs.md R154 (DIR = 1): XFORM of a decrypting HBA or RCS session: the received ciphertext is
absorbed, the plaintext is appended to HOLD, no byte is answered. -/
def Obligations.XformDecryptingSession : Prop :=
  ∀ (len : BitVec 16) (s : State) (m : MacState), s.mode.eng ≠ .ctr → s.mode.dir = .decrypt →
    (s.phase = .aad ∨ s.phase = .xform) → s.macst = some m → s.icnt = len →
    s.hcnt.toNat + len.toNat ≤ s.cfg.params.obufMax → s.ctt.toNat + len.toNat < 2 ^ 64 →
    s.ctrb.length = s.cfg.params.nonceCap → Memory.wf s.hold = true →
    ∃ t, exec (.xform len) s = .next t ∧ Succeeded t ∧ Response t [] ∧
      t.macst = some { m with msg := m.msg ++ operandBytes s len.toNat } ∧
      t.hcnt.toNat = s.hcnt.toNat + len.toNat ∧
      (∀ a, Memory.read t.hold a =
        if s.hcnt.toNat ≤ a ∧ a < s.hcnt.toNat + len.toNat then
          (transformed engines s (operandBytes s len.toNat)).getD (a - s.hcnt.toNat) 0
        else Memory.read s.hold a) ∧
      counterBlock t = counterAfter s (blocksFor s len.toNat) ∧
      (∀ j, blockLen s ≤ j → t.ctrb.getD j 0 = s.ctrb.getD j 0) ∧
      t.ctt.toNat = s.ctt.toNat + len.toNat ∧ t.phase = .xform ∧
      t = { s with phase := t.phase, ctt := t.ctt, ctrb := t.ctrb, macst := t.macst, hold := t.hold, hcnt := t.hcnt,
                   ibuf := t.ibuf, icnt := t.icnt, obuf := t.obuf, ocnt := t.ocnt, err := t.err }

/-! ### The tag -/

/-- 43_tag_compare.md R170: the comparator is true exactly on equal byte strings. -/
def Obligations.ComparatorIsEquality : Prop :=
  ∀ A B : Bytes, A.length = B.length → (ctEq A B = true ↔ A = B)

/-- 44_commands.md R190, 43_tag_compare.md R171, R172: FINAL: the response is the tag of the transcript with the length
block absorbed last; the session's secrets stay. -/
def Obligations.FinalRule : Prop :=
  ∀ s : State, ∃ t, exec .final s = .next t ∧
    if s.phase = .uninit then Refused s t 0x20
    else if s.mode.eng = .ctr ∨ s.mode.dir = .decrypt then Refused s t 0x21
    else if s.phase ≠ .aad ∧ s.phase ≠ .xform then Refused s t 0x20
    else Succeeded t ∧ t.phase = .final ∧ t.ocnt.toNat = (sessionVariant s).tagLen ∧
      (∀ m, s.macst = some m → Response t (tagOf engines s m) ∧
        t.macst = some { m with msg := m.msg ++ (le64 s.aadt ++ le64 s.ctt) }) ∧
      t = { s with phase := t.phase, macst := t.macst, ibuf := t.ibuf, icnt := t.icnt, obuf := t.obuf, ocnt := t.ocnt,
                   err := t.err }

/-- 00_scope.md R12: `le64(v)` is eight bytes, byte i being `(v >> 8i) & 0xFF`. -/
def Obligations.LengthEncodingIsLittleEndian : Prop :=
  ∀ v : BitVec 64, (le64 v).length = 8 ∧ leNat (le64 v) = v.toNat ∧
    ∀ j, j < 8 → (le64 v).getD j 0 = (v >>> (8 * j)).setWidth 8

/-- 44_commands.md R191, 43_tag_compare.md R173 to R175: VERIFY: equal tags release the whole withheld plaintext, unequal
ones destroy it and poison the session. -/
def Obligations.VerifyRule : Prop :=
  ∀ (len : BitVec 16) (s : State), ∃ t, exec (.verify len) s = .next t ∧
    if s.phase = .uninit then Refused s t 0x20
    else if s.mode.eng = .ctr ∨ s.mode.dir = .encrypt then Refused s t 0x21
    else if s.phase ≠ .aad ∧ s.phase ≠ .xform then Refused s t 0x20
    else if s.icnt ≠ len then Refused s t 0x40
    else if len.toNat ≠ (sessionVariant s).tagLen then Refused s t 0x43
    else OperandCleared t ∧ (∀ a, Memory.read t.hold a = 0) ∧ t.hcnt = 0 ∧
      (∀ m, s.macst = some m →
        t.macst = some { m with msg := m.msg ++ (le64 s.aadt ++ le64 s.ctt) } ∧
        (if operandBytes s len.toNat = tagOf engines s m then
          t.err = 0x00 ∧ t.esticky = s.esticky ∧ t.authok = true ∧ t.phase = .final ∧ t.ocnt = s.hcnt ∧
          (∀ a, Memory.read t.obuf a = if a < s.hcnt.toNat then Memory.read s.hold a else 0)
        else
          t.err = 0x30 ∧ t.esticky = true ∧ t.authok = s.authok ∧ t.phase = .failed ∧ Response t [])) ∧
      t = { s with phase := t.phase, macst := t.macst, hold := t.hold, hcnt := t.hcnt, ibuf := t.ibuf, icnt := t.icnt,
                   obuf := t.obuf, ocnt := t.ocnt, err := t.err, esticky := t.esticky, authok := t.authok }

/-- 43_tag_compare.md R176 (1): VERIFY's next state depends on the received tag only through the one bit: two states that
differ only in the operand bytes and end with the same code end in the same state. -/
def Obligations.VerifyRevealsOnlyEquality : Prop :=
  ∀ (len : BitVec 16) (s s' t t' : State), s' = { s with ibuf := s'.ibuf } →
    exec (.verify len) s = .next t → exec (.verify len) s' = .next t' → t.err = t'.err → t = t'

/-- 10_state.md R31, R38: until a VERIFY succeeds nothing of HOLD reaches another register: two states that differ only in
HOLD run every command alike, a successful VERIFY apart. -/
def Obligations.WithheldPlaintextStaysHidden : Prop :=
  ∀ (i : Instr) (s s' t t' : State), s' = { s with hold := s'.hold } → exec i s = .next t → exec i s' = .next t' →
    ((∀ len, i ≠ .verify len) ∨ t.err ≠ 0x00) → t' = { t with hold := t'.hold }

/-! ### STNONCE and DISPOSE -/

/-- 44_commands.md R192, 42_rcs.md R156: STNONCE: the response is the counter block and nothing else changes. -/
def Obligations.StnonceRule : Prop :=
  ∀ s : State, s.ctrb.length = s.cfg.params.nonceCap → ∃ t, exec .stnonce s = .next t ∧
    if s.phase = .uninit then Refused s t 0x20
    else if s.mode.eng ≠ .rcs then Refused s t 0x21
    else if s.phase = .failed then Refused s t 0x20
    else Succeeded t ∧ t.ocnt.toNat = blockLen s ∧
      (∀ a, Memory.read t.obuf a = if a < blockLen s then s.ctrb.getD a 0 else 0) ∧
      t = { s with ibuf := t.ibuf, icnt := t.icnt, obuf := t.obuf, ocnt := t.ocnt, err := t.err }

/-- 44_commands.md R193: DISPOSE, in every state: every register at its reset value; a second DISPOSE changes nothing; a
DISPOSE word with MOD or LEN not 0 is illegal. -/
def Obligations.DisposeRule : Prop :=
  (∀ s : State, ∃ t, exec .dispose s = .next t ∧ AtReset t ∧ statusWord t = 0 ∧ exec .dispose t = .next t) ∧
  (∀ cw : Word, cw.extractLsb' 24 8 = 0x0A → cw.extractLsb' 0 24 ≠ 0 → ∃ e, decodeWord cw = .error e)

/-! ### Whole-machine claims -/

/-- Where each command completes, and with what: the conditions of 44_commands.md R181 and R184 to R193, for VERIFY with
the right tag. Each clause states the result it names and no frame; the frames, and the engine registers INIT and XFORM
set, are in the commands' own statements. -/
def Obligations.EveryCommandCompletesWhenReady : Prop :=
  (∀ (len : BitVec 16) (s : State), s.phase = .uninit → s.icnt = len → 1 ≤ len.toNat → len.toNat ≤ s.cfg.params.keyCap →
    ∃ t, exec (.ldkey len) s = .next t ∧ t.err = 0x00 ∧ t.keyn = len.toNat ∧ t.phase = .uninit ∧
      ∀ j, t.keyr.getD j 0 = if j < len.toNat then Memory.read s.ibuf j else 0) ∧
  (∀ (len : BitVec 16) (s : State), s.phase = .uninit → s.icnt = len → 1 ≤ len.toNat →
    len.toNat ≤ s.cfg.params.nonceCap →
    ∃ t, exec (.ldnonce len) s = .next t ∧ t.err = 0x00 ∧ t.nonn = len.toNat ∧ t.phase = .uninit ∧
      ∀ j, t.nonr.getD j 0 = if j < len.toNat then Memory.read s.ibuf j else 0) ∧
  (∀ (len : BitVec 16) (s : State), s.phase = .uninit → s.icnt = len → len.toNat ≤ s.cfg.params.infoCap →
    ∃ t, exec (.ldinfo len) s = .next t ∧ t.err = 0x00 ∧ t.infn = len.toNat ∧ t.phase = .uninit ∧
      ∀ j, t.infr.getD j 0 = if j < len.toNat then Memory.read s.ibuf j else 0) ∧
  (∀ (eng : Engine) (cls : KeyClass) (dir : Direction) (ce : CounterOrder) (kdf : KdfStrategy) (s : State),
    s.phase = .uninit → (s.cfg.params.variant eng cls).supported = true →
    (eng = .hba → kdfSupported s.cfg.params kdf = true) →
    s.keyn = (s.cfg.params.variant eng cls).keyLen → s.nonn = (s.cfg.params.variant eng cls).blockLen →
    s.infn ≤ (s.cfg.params.variant eng cls).infoMax →
    ∃ t, exec (.init eng cls dir ce kdf) s = .next t ∧ t.err = 0x00 ∧ t.mode = ⟨eng, cls, dir, ce, kdf⟩ ∧
      t.phase = .init ∧ t.keyn = 0 ∧ t.nonn = 0 ∧ t.infn = 0 ∧ t.aadt = 0 ∧ t.ctt = 0 ∧ t.hcnt = 0) ∧
  (∀ (len : BitVec 16) (s : State), s.mode.eng ≠ .ctr → (s.phase = .init ∨ s.phase = .aad) → s.icnt = len →
    s.aadt.toNat + len.toNat ≤ (sessionVariant s).aadMax →
    ∃ t, exec (.setaad len) s = .next t ∧ t.err = 0x00 ∧ t.aadt.toNat = s.aadt.toNat + len.toNat ∧ t.phase = .aad ∧
      ∀ m, s.macst = some m → t.macst = some { m with msg := m.msg ++ operandBytes s len.toNat }) ∧
  (∀ (len : BitVec 16) (s : State), ((s.mode.eng = .ctr ∧ s.phase = .init) ∨ (s.mode.eng ≠ .ctr ∧ s.phase = .aad) ∨
      s.phase = .xform) → s.icnt = len →
    (if s.mode.eng = .ctr ∨ s.mode.dir = .encrypt then len.toNat else s.hcnt.toNat + len.toNat) ≤
      s.cfg.params.obufMax →
    s.ctt.toNat + len.toNat < 2 ^ 64 →
    ∃ t, exec (.xform len) s = .next t ∧ t.err = 0x00 ∧ t.ctt.toNat = s.ctt.toNat + len.toNat ∧ t.phase = .xform ∧
      (s.ctrb.length = s.cfg.params.nonceCap →
        if s.mode.eng = .ctr ∨ s.mode.dir = .encrypt then
          Response t (transformed engines s (operandBytes s len.toNat))
        else
          Response t [] ∧ t.hcnt.toNat = s.hcnt.toNat + len.toNat ∧
          (Memory.wf s.hold = true → ∀ a, Memory.read t.hold a =
            if s.hcnt.toNat ≤ a ∧ a < s.hcnt.toNat + len.toNat then
              (transformed engines s (operandBytes s len.toNat)).getD (a - s.hcnt.toNat) 0
            else Memory.read s.hold a))) ∧
  (∀ (s : State), s.mode.eng ≠ .ctr → s.mode.dir = .encrypt → (s.phase = .aad ∨ s.phase = .xform) →
    ∃ t, exec .final s = .next t ∧ t.err = 0x00 ∧ t.ocnt.toNat = (sessionVariant s).tagLen ∧ t.phase = .final ∧
      ∀ m, s.macst = some m → Response t (tagOf engines s m)) ∧
  (∀ (len : BitVec 16) (s : State) (m : MacState), s.mode.eng ≠ .ctr → s.mode.dir = .decrypt →
    (s.phase = .aad ∨ s.phase = .xform) → s.macst = some m → s.icnt = len → len.toNat = (sessionVariant s).tagLen →
    operandBytes s len.toNat = tagOf engines s m →
    ∃ t, exec (.verify len) s = .next t ∧ t.err = 0x00 ∧ t.ocnt = s.hcnt ∧
      (∀ a, Memory.read t.obuf a = if a < s.hcnt.toNat then Memory.read s.hold a else 0) ∧
      t.authok = true ∧ t.phase = .final) ∧
  (∀ (s : State), s.mode.eng = .rcs → (s.phase = .init ∨ s.phase = .aad ∨ s.phase = .xform ∨ s.phase = .final) →
    ∃ t, exec .stnonce s = .next t ∧ t.err = 0x00 ∧ t.phase = s.phase ∧ t.ctrb = s.ctrb ∧
      (s.ctrb.length = s.cfg.params.nonceCap → t.ocnt.toNat = blockLen s ∧
        ∀ a, Memory.read t.obuf a = if a < blockLen s then s.ctrb.getD a 0 else 0)) ∧
  (∀ (s : State), ∃ t, exec .dispose s = .next t ∧ t.err = 0x00 ∧ AtReset t)

/-- The byte arrays keep their canonical form through every step (log entry 15). -/
def Obligations.StepKeepsMemoriesCanonical : Prop :=
  ∀ s t : State, Memory.wf s.ibuf = true → Memory.wf s.obuf = true → Memory.wf s.hold = true → step s = .next t →
    Memory.wf t.ibuf = true ∧ Memory.wf t.obuf = true ∧ Memory.wf t.hold = true

/-- 10_state.md R40: every step keeps the invariants. -/
def Obligations.StepKeepsTheInvariants : Prop :=
  ∀ s t : State, Invariants s → step s = .next t → Invariants t

/-- 41_hba.md R139 ("Round-trip"), for a message of one XFORM: in two sessions that agree on everything an INIT and the associated data have set up but
the direction, the decrypting one, given the ciphertext and then the tag of the encrypting one, verifies and releases the
plaintext. -/
def Obligations.EncryptThenDecryptGivesThePlaintextBack : Prop :=
  ∀ (len : BitVec 16) (se sd te tf td sv tv : State) (m : MacState),
    se.mode.eng ≠ .ctr → se.mode.dir = .encrypt → (se.phase = .aad ∨ se.phase = .xform) →
    se.macst = some m → se.ctrb.length = se.cfg.params.nonceCap →
    sd.mode = { se.mode with dir := .decrypt } → sd.phase = se.phase → sd.cfg = se.cfg → sd.ks = se.ks →
    sd.ctrb = se.ctrb → sd.macst = se.macst → sd.aadt = se.aadt → sd.ctt = se.ctt → sd.hcnt = 0 →
    Memory.wf sd.hold = true →
    exec (.xform len) se = .next te → te.err = 0x00 → exec .final te = .next tf →
    sd.icnt = len → (∀ j, j < len.toNat → Memory.read sd.ibuf j = Memory.read te.obuf j) →
    exec (.xform len) sd = .next td →
    sv = { td with ibuf := tf.obuf, icnt := tf.ocnt } → exec (.verify tf.ocnt) sv = .next tv →
    td.ocnt = 0 ∧ tv.err = 0x00 ∧ tv.authok = true ∧ tv.phase = .final ∧
    Response tv (operandBytes se len.toNat)

/-! ### The keystream block -/

/-- 40_ctr_keystream.md R114: the keystream block is `BcEnc` of the counter block under CTR and HBA and `RcsEnc` of it under
RCS, as long as a block, the same in both directions. -/
def Obligations.KeystreamBlockIsTheEnginesOutput : Prop :=
  ∀ (E : Engines) (s : State), s.ctrb.length = s.cfg.params.nonceCap →
    (ksBlock E s.mode s.ks (counterBlock s)).length = blockLen s ∧
    (∀ j, j < blockLen s → (ksBlock E s.mode s.ks (counterBlock s)).getD j 0 =
      if s.mode.eng = .rcs then E.rcsEncByte s.mode.cls s.ks (s.ctrb.take (blockLen s)) j
      else E.bcEncByte s.ks (s.ctrb.take (blockLen s)) j) ∧
    (∀ d : Direction, ksBlock E { s.mode with dir := d } s.ks (counterBlock s) =
      ksBlock E s.mode s.ks (counterBlock s))
end

