-- ==== Sys2Proof/Laws/State.lean ====
section
/-! SUPPORT. What each shared update of the state does to each field, so that no proof unfolds a record update. -/

namespace Sys2Proof.Machine

/-! ### The derived flags (10_state.md R35) -/

@[simp] theorem keyLoaded_iff (s : State) : keyLoaded s = true ↔ s.keyn ≠ 0 := by unfold keyLoaded; exact decide_eq_true_iff
@[simp] theorem nonceLoaded_iff (s : State) : nonceLoaded s = true ↔ s.nonn ≠ 0 := by
  unfold nonceLoaded; exact decide_eq_true_iff
@[simp] theorem infoLoaded_iff (s : State) : infoLoaded s = true ↔ s.infn ≠ 0 := by unfold infoLoaded; exact decide_eq_true_iff

/-! ### clearBuffers -/

@[simp] theorem clearBuffers_phase (s : State) : (clearBuffers s).phase = s.phase := rfl
@[simp] theorem clearBuffers_mode (s : State) : (clearBuffers s).mode = s.mode := rfl
@[simp] theorem clearBuffers_keyr (s : State) : (clearBuffers s).keyr = s.keyr := rfl
@[simp] theorem clearBuffers_keyn (s : State) : (clearBuffers s).keyn = s.keyn := rfl
@[simp] theorem clearBuffers_nonr (s : State) : (clearBuffers s).nonr = s.nonr := rfl
@[simp] theorem clearBuffers_nonn (s : State) : (clearBuffers s).nonn = s.nonn := rfl
@[simp] theorem clearBuffers_infr (s : State) : (clearBuffers s).infr = s.infr := rfl
@[simp] theorem clearBuffers_infn (s : State) : (clearBuffers s).infn = s.infn := rfl
@[simp] theorem clearBuffers_ks (s : State) : (clearBuffers s).ks = s.ks := rfl
@[simp] theorem clearBuffers_mkey (s : State) : (clearBuffers s).mkey = s.mkey := rfl
@[simp] theorem clearBuffers_ctrb (s : State) : (clearBuffers s).ctrb = s.ctrb := rfl
@[simp] theorem clearBuffers_macst (s : State) : (clearBuffers s).macst = s.macst := rfl
@[simp] theorem clearBuffers_aadt (s : State) : (clearBuffers s).aadt = s.aadt := rfl
@[simp] theorem clearBuffers_ctt (s : State) : (clearBuffers s).ctt = s.ctt := rfl
@[simp] theorem clearBuffers_hold (s : State) : (clearBuffers s).hold = s.hold := rfl
@[simp] theorem clearBuffers_hcnt (s : State) : (clearBuffers s).hcnt = s.hcnt := rfl
@[simp] theorem clearBuffers_ibuf (s : State) : (clearBuffers s).ibuf = [] := rfl
@[simp] theorem clearBuffers_icnt (s : State) : (clearBuffers s).icnt = 0 := rfl
@[simp] theorem clearBuffers_obuf (s : State) : (clearBuffers s).obuf = [] := rfl
@[simp] theorem clearBuffers_ocnt (s : State) : (clearBuffers s).ocnt = 0 := rfl
@[simp] theorem clearBuffers_err (s : State) : (clearBuffers s).err = s.err := rfl
@[simp] theorem clearBuffers_esticky (s : State) : (clearBuffers s).esticky = s.esticky := rfl
@[simp] theorem clearBuffers_authok (s : State) : (clearBuffers s).authok = s.authok := rfl
@[simp] theorem clearBuffers_cfg (s : State) : (clearBuffers s).cfg = s.cfg := rfl
@[simp] theorem clearBuffers_hostq (s : State) : (clearBuffers s).hostq = s.hostq := rfl
@[simp] theorem clearBuffers_rdata (s : State) : (clearBuffers s).rdata = s.rdata := rfl
@[simp] theorem sessionVariant_clearBuffers (s : State) : sessionVariant (clearBuffers s) = sessionVariant s := rfl
@[simp] theorem blockLen_clearBuffers (s : State) : blockLen (clearBuffers s) = blockLen s := rfl
@[simp] theorem counterBlock_clearBuffers (s : State) : counterBlock (clearBuffers s) = counterBlock s := rfl

/-! ### respond -/

@[simp] theorem respond_phase (s : State) (B : Bytes) : (respond s B).phase = s.phase := rfl
@[simp] theorem respond_mode (s : State) (B : Bytes) : (respond s B).mode = s.mode := rfl
@[simp] theorem respond_keyr (s : State) (B : Bytes) : (respond s B).keyr = s.keyr := rfl
@[simp] theorem respond_keyn (s : State) (B : Bytes) : (respond s B).keyn = s.keyn := rfl
@[simp] theorem respond_nonr (s : State) (B : Bytes) : (respond s B).nonr = s.nonr := rfl
@[simp] theorem respond_nonn (s : State) (B : Bytes) : (respond s B).nonn = s.nonn := rfl
@[simp] theorem respond_infr (s : State) (B : Bytes) : (respond s B).infr = s.infr := rfl
@[simp] theorem respond_infn (s : State) (B : Bytes) : (respond s B).infn = s.infn := rfl
@[simp] theorem respond_ks (s : State) (B : Bytes) : (respond s B).ks = s.ks := rfl
@[simp] theorem respond_mkey (s : State) (B : Bytes) : (respond s B).mkey = s.mkey := rfl
@[simp] theorem respond_ctrb (s : State) (B : Bytes) : (respond s B).ctrb = s.ctrb := rfl
@[simp] theorem respond_macst (s : State) (B : Bytes) : (respond s B).macst = s.macst := rfl
@[simp] theorem respond_aadt (s : State) (B : Bytes) : (respond s B).aadt = s.aadt := rfl
@[simp] theorem respond_ctt (s : State) (B : Bytes) : (respond s B).ctt = s.ctt := rfl
@[simp] theorem respond_hold (s : State) (B : Bytes) : (respond s B).hold = s.hold := rfl
@[simp] theorem respond_hcnt (s : State) (B : Bytes) : (respond s B).hcnt = s.hcnt := rfl
@[simp] theorem respond_ibuf (s : State) (B : Bytes) : (respond s B).ibuf = s.ibuf := rfl
@[simp] theorem respond_icnt (s : State) (B : Bytes) : (respond s B).icnt = s.icnt := rfl
@[simp] theorem respond_obuf (s : State) (B : Bytes) : (respond s B).obuf = Memory.writeBytes s.obuf 0 B := rfl
@[simp] theorem respond_ocnt (s : State) (B : Bytes) : (respond s B).ocnt = BitVec.ofNat 16 B.length := rfl
@[simp] theorem respond_err (s : State) (B : Bytes) : (respond s B).err = s.err := rfl
@[simp] theorem respond_esticky (s : State) (B : Bytes) : (respond s B).esticky = s.esticky := rfl
@[simp] theorem respond_authok (s : State) (B : Bytes) : (respond s B).authok = s.authok := rfl
@[simp] theorem respond_cfg (s : State) (B : Bytes) : (respond s B).cfg = s.cfg := rfl
@[simp] theorem respond_hostq (s : State) (B : Bytes) : (respond s B).hostq = s.hostq := rfl
@[simp] theorem respond_rdata (s : State) (B : Bytes) : (respond s B).rdata = s.rdata := rfl
@[simp] theorem sessionVariant_respond (s : State) (B : Bytes) : sessionVariant (respond s B) = sessionVariant s := rfl
@[simp] theorem blockLen_respond (s : State) (B : Bytes) : blockLen (respond s B) = blockLen s := rfl
@[simp] theorem counterBlock_respond (s : State) (B : Bytes) : counterBlock (respond s B) = counterBlock s := rfl

/-! ### withhold -/

@[simp] theorem withhold_phase (s : State) (B : Bytes) : (withhold s B).phase = s.phase := rfl
@[simp] theorem withhold_mode (s : State) (B : Bytes) : (withhold s B).mode = s.mode := rfl
@[simp] theorem withhold_keyr (s : State) (B : Bytes) : (withhold s B).keyr = s.keyr := rfl
@[simp] theorem withhold_keyn (s : State) (B : Bytes) : (withhold s B).keyn = s.keyn := rfl
@[simp] theorem withhold_nonr (s : State) (B : Bytes) : (withhold s B).nonr = s.nonr := rfl
@[simp] theorem withhold_nonn (s : State) (B : Bytes) : (withhold s B).nonn = s.nonn := rfl
@[simp] theorem withhold_infr (s : State) (B : Bytes) : (withhold s B).infr = s.infr := rfl
@[simp] theorem withhold_infn (s : State) (B : Bytes) : (withhold s B).infn = s.infn := rfl
@[simp] theorem withhold_ks (s : State) (B : Bytes) : (withhold s B).ks = s.ks := rfl
@[simp] theorem withhold_mkey (s : State) (B : Bytes) : (withhold s B).mkey = s.mkey := rfl
@[simp] theorem withhold_ctrb (s : State) (B : Bytes) : (withhold s B).ctrb = s.ctrb := rfl
@[simp] theorem withhold_macst (s : State) (B : Bytes) : (withhold s B).macst = s.macst := rfl
@[simp] theorem withhold_aadt (s : State) (B : Bytes) : (withhold s B).aadt = s.aadt := rfl
@[simp] theorem withhold_ctt (s : State) (B : Bytes) : (withhold s B).ctt = s.ctt := rfl
@[simp] theorem withhold_hold (s : State) (B : Bytes) : (withhold s B).hold = Memory.writeBytes s.hold s.hcnt.toNat B := rfl
@[simp] theorem withhold_hcnt (s : State) (B : Bytes) : (withhold s B).hcnt = s.hcnt + BitVec.ofNat 16 B.length := rfl
@[simp] theorem withhold_ibuf (s : State) (B : Bytes) : (withhold s B).ibuf = s.ibuf := rfl
@[simp] theorem withhold_icnt (s : State) (B : Bytes) : (withhold s B).icnt = s.icnt := rfl
@[simp] theorem withhold_obuf (s : State) (B : Bytes) : (withhold s B).obuf = s.obuf := rfl
@[simp] theorem withhold_ocnt (s : State) (B : Bytes) : (withhold s B).ocnt = s.ocnt := rfl
@[simp] theorem withhold_err (s : State) (B : Bytes) : (withhold s B).err = s.err := rfl
@[simp] theorem withhold_esticky (s : State) (B : Bytes) : (withhold s B).esticky = s.esticky := rfl
@[simp] theorem withhold_authok (s : State) (B : Bytes) : (withhold s B).authok = s.authok := rfl
@[simp] theorem withhold_cfg (s : State) (B : Bytes) : (withhold s B).cfg = s.cfg := rfl
@[simp] theorem withhold_hostq (s : State) (B : Bytes) : (withhold s B).hostq = s.hostq := rfl
@[simp] theorem withhold_rdata (s : State) (B : Bytes) : (withhold s B).rdata = s.rdata := rfl
@[simp] theorem sessionVariant_withhold (s : State) (B : Bytes) : sessionVariant (withhold s B) = sessionVariant s := rfl
@[simp] theorem blockLen_withhold (s : State) (B : Bytes) : blockLen (withhold s B) = blockLen s := rfl
@[simp] theorem counterBlock_withhold (s : State) (B : Bytes) : counterBlock (withhold s B) = counterBlock s := rfl

/-! ### setCounterBlock -/

@[simp] theorem setCounterBlock_phase (s : State) (C : Bytes) : (setCounterBlock s C).phase = s.phase := rfl
@[simp] theorem setCounterBlock_mode (s : State) (C : Bytes) : (setCounterBlock s C).mode = s.mode := rfl
@[simp] theorem setCounterBlock_keyr (s : State) (C : Bytes) : (setCounterBlock s C).keyr = s.keyr := rfl
@[simp] theorem setCounterBlock_keyn (s : State) (C : Bytes) : (setCounterBlock s C).keyn = s.keyn := rfl
@[simp] theorem setCounterBlock_nonr (s : State) (C : Bytes) : (setCounterBlock s C).nonr = s.nonr := rfl
@[simp] theorem setCounterBlock_nonn (s : State) (C : Bytes) : (setCounterBlock s C).nonn = s.nonn := rfl
@[simp] theorem setCounterBlock_infr (s : State) (C : Bytes) : (setCounterBlock s C).infr = s.infr := rfl
@[simp] theorem setCounterBlock_infn (s : State) (C : Bytes) : (setCounterBlock s C).infn = s.infn := rfl
@[simp] theorem setCounterBlock_ks (s : State) (C : Bytes) : (setCounterBlock s C).ks = s.ks := rfl
@[simp] theorem setCounterBlock_mkey (s : State) (C : Bytes) : (setCounterBlock s C).mkey = s.mkey := rfl
@[simp] theorem setCounterBlock_ctrb (s : State) (C : Bytes) : (setCounterBlock s C).ctrb = C ++ s.ctrb.drop (blockLen s) := rfl
@[simp] theorem setCounterBlock_macst (s : State) (C : Bytes) : (setCounterBlock s C).macst = s.macst := rfl
@[simp] theorem setCounterBlock_aadt (s : State) (C : Bytes) : (setCounterBlock s C).aadt = s.aadt := rfl
@[simp] theorem setCounterBlock_ctt (s : State) (C : Bytes) : (setCounterBlock s C).ctt = s.ctt := rfl
@[simp] theorem setCounterBlock_hold (s : State) (C : Bytes) : (setCounterBlock s C).hold = s.hold := rfl
@[simp] theorem setCounterBlock_hcnt (s : State) (C : Bytes) : (setCounterBlock s C).hcnt = s.hcnt := rfl
@[simp] theorem setCounterBlock_ibuf (s : State) (C : Bytes) : (setCounterBlock s C).ibuf = s.ibuf := rfl
@[simp] theorem setCounterBlock_icnt (s : State) (C : Bytes) : (setCounterBlock s C).icnt = s.icnt := rfl
@[simp] theorem setCounterBlock_obuf (s : State) (C : Bytes) : (setCounterBlock s C).obuf = s.obuf := rfl
@[simp] theorem setCounterBlock_ocnt (s : State) (C : Bytes) : (setCounterBlock s C).ocnt = s.ocnt := rfl
@[simp] theorem setCounterBlock_err (s : State) (C : Bytes) : (setCounterBlock s C).err = s.err := rfl
@[simp] theorem setCounterBlock_esticky (s : State) (C : Bytes) : (setCounterBlock s C).esticky = s.esticky := rfl
@[simp] theorem setCounterBlock_authok (s : State) (C : Bytes) : (setCounterBlock s C).authok = s.authok := rfl
@[simp] theorem setCounterBlock_cfg (s : State) (C : Bytes) : (setCounterBlock s C).cfg = s.cfg := rfl
@[simp] theorem setCounterBlock_hostq (s : State) (C : Bytes) : (setCounterBlock s C).hostq = s.hostq := rfl
@[simp] theorem setCounterBlock_rdata (s : State) (C : Bytes) : (setCounterBlock s C).rdata = s.rdata := rfl
@[simp] theorem sessionVariant_setCounterBlock (s : State) (C : Bytes) : sessionVariant (setCounterBlock s C) = sessionVariant s := rfl
@[simp] theorem blockLen_setCounterBlock (s : State) (C : Bytes) : blockLen (setCounterBlock s C) = blockLen s := rfl

/-! ### takeError -/

@[simp] theorem takeError_phase (c : ErrCode) (s : State) : (takeError c s).phase = s.phase := rfl
@[simp] theorem takeError_mode (c : ErrCode) (s : State) : (takeError c s).mode = s.mode := rfl
@[simp] theorem takeError_keyr (c : ErrCode) (s : State) : (takeError c s).keyr = s.keyr := rfl
@[simp] theorem takeError_keyn (c : ErrCode) (s : State) : (takeError c s).keyn = s.keyn := rfl
@[simp] theorem takeError_nonr (c : ErrCode) (s : State) : (takeError c s).nonr = s.nonr := rfl
@[simp] theorem takeError_nonn (c : ErrCode) (s : State) : (takeError c s).nonn = s.nonn := rfl
@[simp] theorem takeError_infr (c : ErrCode) (s : State) : (takeError c s).infr = s.infr := rfl
@[simp] theorem takeError_infn (c : ErrCode) (s : State) : (takeError c s).infn = s.infn := rfl
@[simp] theorem takeError_ks (c : ErrCode) (s : State) : (takeError c s).ks = s.ks := rfl
@[simp] theorem takeError_mkey (c : ErrCode) (s : State) : (takeError c s).mkey = s.mkey := rfl
@[simp] theorem takeError_ctrb (c : ErrCode) (s : State) : (takeError c s).ctrb = s.ctrb := rfl
@[simp] theorem takeError_macst (c : ErrCode) (s : State) : (takeError c s).macst = s.macst := rfl
@[simp] theorem takeError_aadt (c : ErrCode) (s : State) : (takeError c s).aadt = s.aadt := rfl
@[simp] theorem takeError_ctt (c : ErrCode) (s : State) : (takeError c s).ctt = s.ctt := rfl
@[simp] theorem takeError_hold (c : ErrCode) (s : State) : (takeError c s).hold = s.hold := rfl
@[simp] theorem takeError_hcnt (c : ErrCode) (s : State) : (takeError c s).hcnt = s.hcnt := rfl
@[simp] theorem takeError_ibuf (c : ErrCode) (s : State) : (takeError c s).ibuf = s.ibuf := rfl
@[simp] theorem takeError_icnt (c : ErrCode) (s : State) : (takeError c s).icnt = s.icnt := rfl
@[simp] theorem takeError_obuf (c : ErrCode) (s : State) : (takeError c s).obuf = s.obuf := rfl
@[simp] theorem takeError_ocnt (c : ErrCode) (s : State) : (takeError c s).ocnt = s.ocnt := rfl
@[simp] theorem takeError_err (c : ErrCode) (s : State) : (takeError c s).err = errByte c := rfl
@[simp] theorem takeError_esticky (c : ErrCode) (s : State) : (takeError c s).esticky = true := rfl
@[simp] theorem takeError_authok (c : ErrCode) (s : State) : (takeError c s).authok = s.authok := rfl
@[simp] theorem takeError_cfg (c : ErrCode) (s : State) : (takeError c s).cfg = s.cfg := rfl
@[simp] theorem takeError_hostq (c : ErrCode) (s : State) : (takeError c s).hostq = s.hostq := rfl
@[simp] theorem takeError_rdata (c : ErrCode) (s : State) : (takeError c s).rdata = s.rdata := rfl
@[simp] theorem sessionVariant_takeError (c : ErrCode) (s : State) : sessionVariant (takeError c s) = sessionVariant s := rfl
@[simp] theorem blockLen_takeError (c : ErrCode) (s : State) : blockLen (takeError c s) = blockLen s := rfl
@[simp] theorem counterBlock_takeError (c : ErrCode) (s : State) : counterBlock (takeError c s) = counterBlock s := rfl

/-! ### zeroRegisters -/

@[simp] theorem zeroRegisters_phase (s : State) : (zeroRegisters s).phase = .uninit := rfl
@[simp] theorem zeroRegisters_mode (s : State) : (zeroRegisters s).mode = mode0 := rfl
@[simp] theorem zeroRegisters_keyr (s : State) : (zeroRegisters s).keyr = zeros s.cfg.params.keyCap := rfl
@[simp] theorem zeroRegisters_keyn (s : State) : (zeroRegisters s).keyn = 0 := rfl
@[simp] theorem zeroRegisters_nonr (s : State) : (zeroRegisters s).nonr = zeros s.cfg.params.nonceCap := rfl
@[simp] theorem zeroRegisters_nonn (s : State) : (zeroRegisters s).nonn = 0 := rfl
@[simp] theorem zeroRegisters_infr (s : State) : (zeroRegisters s).infr = zeros s.cfg.params.infoCap := rfl
@[simp] theorem zeroRegisters_infn (s : State) : (zeroRegisters s).infn = 0 := rfl
@[simp] theorem zeroRegisters_ks (s : State) : (zeroRegisters s).ks = keySchedule0 := rfl
@[simp] theorem zeroRegisters_mkey (s : State) : (zeroRegisters s).mkey = zeros mkeyCap := rfl
@[simp] theorem zeroRegisters_ctrb (s : State) : (zeroRegisters s).ctrb = zeros s.cfg.params.nonceCap := rfl
@[simp] theorem zeroRegisters_macst (s : State) : (zeroRegisters s).macst = none := rfl
@[simp] theorem zeroRegisters_aadt (s : State) : (zeroRegisters s).aadt = 0 := rfl
@[simp] theorem zeroRegisters_ctt (s : State) : (zeroRegisters s).ctt = 0 := rfl
@[simp] theorem zeroRegisters_hold (s : State) : (zeroRegisters s).hold = [] := rfl
@[simp] theorem zeroRegisters_hcnt (s : State) : (zeroRegisters s).hcnt = 0 := rfl
@[simp] theorem zeroRegisters_ibuf (s : State) : (zeroRegisters s).ibuf = [] := rfl
@[simp] theorem zeroRegisters_icnt (s : State) : (zeroRegisters s).icnt = 0 := rfl
@[simp] theorem zeroRegisters_obuf (s : State) : (zeroRegisters s).obuf = [] := rfl
@[simp] theorem zeroRegisters_ocnt (s : State) : (zeroRegisters s).ocnt = 0 := rfl
@[simp] theorem zeroRegisters_err (s : State) : (zeroRegisters s).err = 0 := rfl
@[simp] theorem zeroRegisters_esticky (s : State) : (zeroRegisters s).esticky = false := rfl
@[simp] theorem zeroRegisters_authok (s : State) : (zeroRegisters s).authok = false := rfl
@[simp] theorem zeroRegisters_cfg (s : State) : (zeroRegisters s).cfg = s.cfg := rfl
@[simp] theorem zeroRegisters_hostq (s : State) : (zeroRegisters s).hostq = s.hostq := rfl
@[simp] theorem zeroRegisters_rdata (s : State) : (zeroRegisters s).rdata = s.rdata := rfl

end Sys2Proof.Machine
end

