-- ==== Sys2Proof/Laws/Frame.lean ====
section
/-! SUPPORT. The execution frame once and for all: what a command can do (44_commands.md R180, R183). -/

namespace Sys2Proof.Machine

@[simp] theorem firstRaise_nil : firstRaise [] = none := rfl

@[simp] theorem firstRaise_cons (v : Bool) (c : ErrCode) (rest : List (Bool × ErrCode)) :
    firstRaise ((v, c) :: rest) = if v then some c else firstRaise rest := rfl

/-- The code raised is one of the checks' codes. -/
theorem firstRaise_mem {l : List (Bool × ErrCode)} {c : ErrCode} (h : firstRaise l = some c) : (true, c) ∈ l := by
  induction l with
  | nil => simp at h
  | cons p l ih =>
    obtain ⟨v, d⟩ := p
    rw [firstRaise_cons] at h
    split at h
    · next hv => simp_all
    · exact List.mem_cons_of_mem _ (ih h)

/-- Nothing is raised exactly when no check is violated. -/
theorem firstRaise_eq_none {l : List (Bool × ErrCode)} : firstRaise l = none ↔ ∀ p ∈ l, p.1 = false := by
  induction l with
  | nil => simp
  | cons p l ih =>
    obtain ⟨v, d⟩ := p
    rw [firstRaise_cons]
    cases v <;> simp [ih]

/-- A check that is a decidable condition. -/
theorem firstRaise_decide (p : Prop) [Decidable p] (c : ErrCode) (rest : List (Bool × ErrCode)) :
    firstRaise ((decide p, c) :: rest) = if p then some c else firstRaise rest := by
  rw [firstRaise_cons]; by_cases h : p <;> simp [h]

/-- The check of the operand's length. -/
theorem firstRaise_operandCheck (opnd : Bytes) (len : BitVec 16) (rest : List (Bool × ErrCode)) :
    firstRaise (operandCheck opnd len :: rest) = if opnd.length ≠ len.toNat then some .bufIn else firstRaise rest :=
  firstRaise_decide _ _ _

/-- Admission does not look at the buffers. -/
@[simp] theorem admission_clearBuffers (i : Instr) (s : State) : admission i (clearBuffers s) = admission i s := by cases i <;> rfl

/-- Admission raises 0x20 or 0x21. -/
theorem admission_code {i : Instr} {s : State} {c : ErrCode} (h : admission i s = some c) : c = .seqPhase ∨ c = .seqMode := by
  unfold admission admitSession at h
  split at h
  · cases h
  all_goals
    repeat' split at h
    all_goals first | cases h; simp | cases h

/-- The checks of each command after admission, as its meaning gives them to the frame. -/
def checksOf : Instr → State → Bytes → List (Bool × ErrCode)
  | .ldkey len => fun s opnd =>
    [(decide (len = 0 ∨ s.cfg.params.keyCap < len.toNat), .cfgKeyLen), operandCheck opnd len]
  | .ldnonce len => fun s opnd =>
    [(decide (len = 0 ∨ s.cfg.params.nonceCap < len.toNat), .cfgNonceLen), operandCheck opnd len]
  | .ldinfo len => fun s opnd => [(decide (s.cfg.params.infoCap < len.toNat), .cfgInfoLen), operandCheck opnd len]
  | .init eng cls dir ce kdf => fun s _ => initChecks ⟨eng, cls, dir, ce, kdf⟩ s
  | .setaad len => fun s opnd =>
    [(decide ((sessionVariant s).aadMax < s.aadt.toNat + len.toNat), .cfgAadLen), operandCheck opnd len]
  | .xform len => xformChecks len
  | .final => fun _ _ => []
  | .verify len => fun s opnd =>
    [operandCheck opnd len, (decide (len.toNat ≠ (sessionVariant s).tagLen), .bufTagLen)]
  | .stnonce => fun _ _ => []
  | .dispose => fun _ _ => []

/-- The effect of each command, as its meaning gives it to the frame. -/
def effectOf : Instr → State → Bytes → Ending
  | .ldkey len => fun s opnd => .done { s with keyr := fillArray s.cfg.params.keyCap opnd, keyn := len.toNat }
  | .ldnonce len => fun s opnd => .done { s with nonr := fillArray s.cfg.params.nonceCap opnd, nonn := len.toNat }
  | .ldinfo len => fun s opnd => .done { s with infr := fillArray s.cfg.params.infoCap opnd, infn := len.toNat }
  | .init eng cls dir ce kdf => fun s _ => .done (startSession engines ⟨eng, cls, dir, ce, kdf⟩ s)
  | .setaad len => fun s opnd => .done (absorbAad len opnd s)
  | .xform len => fun s X => .done (xformEffect engines len s X)
  | .final => fun s _ => .done (produceTag engines s)
  | .verify _ => compareTag engines
  | .stnonce => fun s _ => .done (respond s (counterBlock s))
  | .dispose => fun s _ => .done (zeroRegisters s)

/-- Every command runs in the frame. -/
theorem exec_eq_runCommand (i : Instr) (s : State) : exec i s = runCommand i (checksOf i) (effectOf i) s := by
  cases i <;> rfl

/-- The state a command leaves. -/
def afterCommand (i : Instr) (s : State) : State :=
  match admission i s with
  | some c => takeError c (clearBuffers s)
  | none =>
    match firstRaise (checksOf i (clearBuffers s) (operand s)) with
    | some c => takeError c (clearBuffers s)
    | none => finishCommand (effectOf i (clearBuffers s) (operand s))

/-- Every command ends in a next state. -/
theorem exec_eq_next (i : Instr) (s : State) : exec i s = .next (afterCommand i s) := by
  rw [exec_eq_runCommand, runCommand, afterCommand, admission_clearBuffers]
  cases admission i s with
  | some c => rfl
  | none => cases firstRaise (checksOf i (clearBuffers s) (operand s)) <;> rfl

/-- What a command can do: be refused by admission, be refused by a check, or have its effect. -/
theorem exec_cases {i : Instr} {s t : State} (h : exec i s = .next t) :
    (∃ c, admission i s = some c ∧ t = takeError c (clearBuffers s)) ∨
    (∃ c, admission i s = none ∧ firstRaise (checksOf i (clearBuffers s) (operand s)) = some c ∧
      t = takeError c (clearBuffers s)) ∨
    (admission i s = none ∧ firstRaise (checksOf i (clearBuffers s) (operand s)) = none ∧
      t = finishCommand (effectOf i (clearBuffers s) (operand s))) := by
  rw [exec_eq_next] at h
  injection h with h
  subst h
  unfold afterCommand
  split
  · next c hc => exact .inl ⟨c, hc, rfl⟩
  · next hn =>
    split
    · next c hc => exact .inr (.inl ⟨c, hn, hc, rfl⟩)
    · next hf => exact .inr (.inr ⟨hn, hf, rfl⟩)

/-- A command that is refused, as a state. -/
theorem exec_of_admission {i : Instr} {s : State} {c : ErrCode} (h : admission i s = some c) :
    exec i s = .next (takeError c (clearBuffers s)) := by rw [exec_eq_next, afterCommand, h]

/-- A command whose checks raise, as a state. -/
theorem exec_of_raise {i : Instr} {s : State} {c : ErrCode} (h : admission i s = none)
    (hr : firstRaise (checksOf i (clearBuffers s) (operand s)) = some c) :
    exec i s = .next (takeError c (clearBuffers s)) := by rw [exec_eq_next, afterCommand, h, hr]

/-- A command that has its effect, as a state. -/
theorem exec_of_checks {i : Instr} {s : State} (h : admission i s = none)
    (hr : firstRaise (checksOf i (clearBuffers s) (operand s)) = none) :
    exec i s = .next (finishCommand (effectOf i (clearBuffers s) (operand s))) := by rw [exec_eq_next, afterCommand, h, hr]

end Sys2Proof.Machine
end

