-- ==== Sys2Proof/Laws/Memory.lean ====
section
/-! SUPPORT. The laws of the sparse byte arrays (Machine/Ops.lean): reads after writes, and that every operation keeps the
canonical form. -/

namespace Sys2Proof.Machine

/-! ### Reading after writing -/

@[simp] theorem Memory.read_nil (a : Nat) : Memory.read [] a = 0 := rfl

theorem Memory.read_cons (k : Nat) (c : Byte) (rest : Memory) (a : Nat) :
    Memory.read ((k, c) :: rest) a = if k = a then c else Memory.read rest a := rfl

/-- Every listed address is at least `n`. -/
def Memory.from (n : Nat) : Memory → Prop
  | [] => True
  | (k, _) :: rest => n ≤ k ∧ Memory.from n rest

theorem Memory.from_mono {m n : Nat} (h : m ≤ n) : ∀ {M : Memory}, Memory.from n M → Memory.from m M
  | [], _ => trivial
  | (_, _) :: _, ⟨hk, hr⟩ => ⟨Nat.le_trans h hk, Memory.from_mono h hr⟩

theorem Memory.read_of_from {n a : Nat} (h : a < n) : ∀ {M : Memory}, Memory.from n M → Memory.read M a = 0
  | [], _ => rfl
  | (k, c) :: rest, ⟨hk, hr⟩ => by
    rw [Memory.read_cons, if_neg (by omega), Memory.read_of_from h hr]

/-- The canonical form, inductively: a non-zero byte, then a canonical list of higher addresses. -/
theorem Memory.wf_cons (k : Nat) (c : Byte) (rest : Memory) :
    Memory.wf ((k, c) :: rest) = true ↔ c ≠ 0 ∧ Memory.from (k + 1) rest ∧ Memory.wf rest = true := by
  induction rest generalizing k c with
  | nil => simp [Memory.wf, Memory.from]
  | cons d rest ih =>
    obtain ⟨j, d⟩ := d
    simp only [Memory.wf, Bool.and_eq_true, decide_eq_true_eq, Memory.from, bne_iff_ne]
    constructor
    · rintro ⟨⟨hc, hlt⟩, hw⟩
      have := (ih j d).1 hw
      exact ⟨hc, ⟨hlt, Memory.from_mono (by omega) this.2.1⟩, hw⟩
    · rintro ⟨hc, ⟨hlt, _⟩, hw⟩
      exact ⟨⟨hc, hlt⟩, hw⟩

theorem Memory.from_write {n a : Nat} (b : Byte) (ha : n ≤ a) :
    ∀ {M : Memory}, Memory.from n M → Memory.from n (Memory.write M a b)
  | [], _ => by unfold Memory.write; split <;> simp [Memory.from, ha]
  | (k, c) :: rest, ⟨hk, hr⟩ => by
    unfold Memory.write
    split
    · split <;> simp [Memory.from, ha, hk, hr]
    · split
      · split
        · exact hr
        · exact ⟨ha, hr⟩
      · exact ⟨hk, Memory.from_write b ha hr⟩

/-- A write keeps the canonical form. -/
theorem Memory.wf_write (a : Nat) (b : Byte) : ∀ {M : Memory}, Memory.wf M = true → Memory.wf (Memory.write M a b) = true
  | [], _ => by
    unfold Memory.write
    split
    · rfl
    · next h => simpa [Memory.wf] using h
  | (k, c) :: rest, h => by
    have hw := (Memory.wf_cons k c rest).1 h
    unfold Memory.write
    split
    · next hlt =>
      split
      · exact h
      · next hb => exact (Memory.wf_cons _ _ _).2 ⟨hb, ⟨hlt, Memory.from_mono (by omega) hw.2.1⟩, h⟩
    · split
      · next _ heq =>
        subst heq
        split
        · exact hw.2.2
        · next hb => exact (Memory.wf_cons _ _ _).2 ⟨hb, hw.2⟩
      · next h1 h2 =>
        exact (Memory.wf_cons _ _ _).2
          ⟨hw.1, Memory.from_write b (by omega) hw.2.1, Memory.wf_write a b hw.2.2⟩

/-- Reading after a write, in a canonical array. -/
theorem Memory.read_write (a : Nat) (b : Byte) (x : Nat) :
    ∀ {M : Memory}, Memory.wf M = true → Memory.read (Memory.write M a b) x = if x = a then b else Memory.read M x
  | [], _ => by
    unfold Memory.write
    by_cases hb : b = 0
    · simp [hb]
    · rw [if_neg hb, Memory.read_cons]
      by_cases hx : x = a
      · subst hx; simp
      · rw [if_neg (Ne.symm hx), if_neg hx]
  | (k, c) :: rest, h => by
    have hw := (Memory.wf_cons k c rest).1 h
    unfold Memory.write
    split
    · next hlt =>
      by_cases hx : x = a
      · subst hx
        rw [if_pos rfl]
        split
        · next hb =>
          rw [Memory.read_cons, if_neg (by omega), Memory.read_of_from (n := k + 1) (by omega) hw.2.1, hb]
        · rw [Memory.read_cons, if_pos rfl]
      · rw [if_neg hx]
        split
        · rfl
        · rw [Memory.read_cons, if_neg (Ne.symm hx)]
    · split
      · next _ heq =>
        subst heq
        by_cases hx : x = a
        · subst hx
          rw [if_pos rfl]
          split
          · next hb => rw [Memory.read_of_from (n := x + 1) (by omega) hw.2.1, hb]
          · rw [Memory.read_cons, if_pos rfl]
        · rw [if_neg hx, Memory.read_cons, if_neg (Ne.symm hx)]
          split
          · rfl
          · rw [Memory.read_cons, if_neg (Ne.symm hx)]
      · next h1 h2 =>
        rw [Memory.read_cons, Memory.read_cons, Memory.read_write a b x hw.2.2]
        by_cases hk : k = x
        · subst hk; simp [Ne.symm h2]
        · simp [hk]

theorem Memory.read_write_same (a : Nat) (b : Byte) {M : Memory} (h : Memory.wf M = true) :
    Memory.read (Memory.write M a b) a = b := by rw [Memory.read_write a b a h, if_pos rfl]

theorem Memory.read_write_other {a x : Nat} (b : Byte) (hx : x ≠ a) {M : Memory} (h : Memory.wf M = true) :
    Memory.read (Memory.write M a b) x = Memory.read M x := by rw [Memory.read_write a b x h, if_neg hx]

/-! ### Blocks of bytes -/

theorem Memory.wf_writeBytes (B : Bytes) : ∀ (a : Nat) {M : Memory}, Memory.wf M = true →
    Memory.wf (Memory.writeBytes M a B) = true := by
  induction B with
  | nil => intro a M h; exact h
  | cons b bs ih => intro a M h; exact ih (a + 1) (Memory.wf_write a b h)

/-- Reading after a block write, in a canonical array: the block's byte inside it, the old byte outside. -/
theorem Memory.read_writeBytes (B : Bytes) : ∀ (a x : Nat) {M : Memory}, Memory.wf M = true →
    Memory.read (Memory.writeBytes M a B) x =
      if a ≤ x ∧ x < a + B.length then B.getD (x - a) 0 else Memory.read M x := by
  induction B with
  | nil => intro a x M _; rw [if_neg (by simp)]; rfl
  | cons b bs ih =>
    intro a x M h
    rw [Memory.writeBytes, ih (a + 1) x (Memory.wf_write a b h), Memory.read_write a b x h]
    by_cases hx : x = a
    · subst hx; simp
    · by_cases h1 : a + 1 ≤ x ∧ x < a + 1 + bs.length
      · rw [if_pos h1, if_pos (by simp only [List.length_cons]; omega)]
        have : x - a = (x - (a + 1)) + 1 := by omega
        rw [this, List.getD_cons_succ]
      · rw [if_neg h1, if_neg hx, if_neg (by simp only [List.length_cons]; omega)]

/-- A block written at 0 of an all-zero array reads as the block followed by zeros. -/
theorem Memory.read_writeBytes_nil (B : Bytes) (x : Nat) :
    Memory.read (Memory.writeBytes [] 0 B) x = B.getD x 0 := by
  rw [Memory.read_writeBytes B 0 x rfl]
  by_cases h : x < B.length
  · simp [h]
  · rw [if_neg (by omega)]
    simp [List.getD, List.getElem?_eq_none (Nat.le_of_not_lt h)]

@[simp] theorem Memory.length_readBytes (M : Memory) (a n : Nat) : (Memory.readBytes M a n).length = n := by
  induction n generalizing a with
  | zero => rfl
  | succ n ih => simp [Memory.readBytes, ih]

/-- A block read is the bytes one by one. -/
theorem Memory.readBytes_eq_map (M : Memory) (a n : Nat) :
    Memory.readBytes M a n = (List.range n).map fun i => Memory.read M (a + i) := by
  induction n generalizing a with
  | zero => rfl
  | succ n ih =>
    rw [Memory.readBytes, ih, List.range_succ_eq_map, List.map_cons, List.map_map]
    simp [Function.comp_def, Nat.add_assoc, Nat.add_comm 1]

/-- Reading back a block that was written at 0. -/
theorem Memory.readBytes_writeBytes_nil (B : Bytes) :
    Memory.readBytes (Memory.writeBytes [] 0 B) 0 B.length = B := by
  rw [Memory.readBytes_eq_map]
  apply List.ext_getElem (by simp)
  intro i h1 h2
  simp [Memory.read_writeBytes_nil, h2]

/-- The operand has ICNT bytes. -/
@[simp] theorem length_operand (s : State) : (operand s).length = s.icnt.toNat := Memory.length_readBytes _ _ _

/-- The operand, byte by byte. -/
theorem operand_eq_map (s : State) : operand s = (List.range s.icnt.toNat).map (Memory.read s.ibuf) := by
  rw [operand, Memory.readBytes_eq_map]; simp

end Sys2Proof.Machine
end

