-- ==== Sys2Proof/Laws/Word.lean ====
section
/-! SUPPORT. The fields of a command word and its bytes (30_encoding.md R90, 20_memory.md R69): taking apart and putting
together are inverse. -/

namespace Sys2Proof

/-- The bytes of a word, put together, are the word. -/
theorem wordOfBytes_wordBytes (w : Word) :
    wordOfBytes (w.extractLsb' 0 8) (w.extractLsb' 8 8) (w.extractLsb' 16 8) (w.extractLsb' 24 8) = w := by
  unfold wordOfBytes
  apply BitVec.eq_of_getLsbD_eq
  intro i hi
  rw [BitVec.getLsbD_append, BitVec.getLsbD_append, BitVec.getLsbD_append]
  simp only [BitVec.getLsbD_extractLsb']
  by_cases h1 : i < 8 <;> by_cases h2 : i < 16 <;> by_cases h3 : i < 24 <;> simp <;> grind

/-- Decoding a word's bytes is decoding the word. -/
theorem decode_wordBytes (w : Word) (rest : Bytes) :
    decode (wordBytes w ++ rest) = match decodeWord w with
      | .ok i => .ok (i, rest)
      | .error e => .error e := by
  cases h : decodeWord w <;> simp [wordBytes, decode, wordOfBytes_wordBytes, h]

theorem opcField_fieldsWord (opc md : Byte) (len : BitVec 16) : opcField (fieldsWord opc md len) = opc := by
  unfold opcField fieldsWord
  apply BitVec.eq_of_getLsbD_eq
  intro i hi
  rw [BitVec.getLsbD_extractLsb', BitVec.getLsbD_append, BitVec.getLsbD_append]
  grind

theorem modField_fieldsWord (opc md : Byte) (len : BitVec 16) : modField (fieldsWord opc md len) = md := by
  unfold modField fieldsWord
  apply BitVec.eq_of_getLsbD_eq
  intro i hi
  rw [BitVec.getLsbD_extractLsb', BitVec.getLsbD_append, BitVec.getLsbD_append]
  simp
  grind

theorem lenField_fieldsWord (opc md : Byte) (len : BitVec 16) : lenField (fieldsWord opc md len) = len := by
  unfold lenField fieldsWord
  apply BitVec.eq_of_getLsbD_eq
  intro i hi
  rw [BitVec.getLsbD_extractLsb', BitVec.getLsbD_append, BitVec.getLsbD_append]
  simp
  grind

/-- A word is its three fields. -/
theorem fieldsWord_fields (w : Word) : fieldsWord (opcField w) (modField w) (lenField w) = w := by
  unfold lenField fieldsWord opcField modField
  apply BitVec.eq_of_getLsbD_eq
  intro i hi
  rw [BitVec.getLsbD_append, BitVec.getLsbD_append]
  simp only [BitVec.getLsbD_extractLsb']
  by_cases h1 : i < 8 <;> by_cases h2 : i < 16 <;> by_cases h3 : i < 24 <;> simp <;> grind

end Sys2Proof
end

