-- ==== Sys2Proof/Laws/Bus.lean ====
section
/-! SUPPORT. The bus once and for all: what each access reaches and what a step can do (20_memory.md R61 to R68, R72). -/

namespace Sys2Proof.Machine

/-! ### The address map -/

/-- The registers in the order of their offsets (20_memory.md R61). -/
def regOrder : List Reg :=
  [.cmd, .status, .err, .icnt, .ocnt, .aadtLo, .aadtHi, .cttLo, .cttHi, .hcnt, .cap, .var]

theorem regAt_of_order {k : Nat} (h : k < 12) : regAt (4 * k) = regOrder[k]? := by
  have : ∀ k, k < 12 → regAt (4 * k) = regOrder[k]? := by decide
  exact this k h

/-- A register stands at an offset only if it is one of the twelve words. -/
theorem regAt_eq_some {off : Nat} {r : Reg} (h : regAt off = some r) :
    ∃ k, k < 12 ∧ off = 4 * k ∧ regOrder[k]? = some r := by
  have hoff : off = 4 * (off / 4) ∧ off / 4 < 12 := by
    by_contra hn
    have : regAt off = none := by
      unfold regAt
      repeat rw [if_neg (by omega)]
    rw [this] at h
    cases h
  exact ⟨off / 4, hoff.2, hoff.1, by rw [← regAt_of_order hoff.2, ← hoff.1, h]⟩

/-- Inside the block the target depends on the offset. -/
theorem targetAt_base (p : Params) {off : Nat} (n : Nat) (h : off < 0x40000) :
    targetAt p (p.base + off) n =
      if off < 0x10000 then regTarget off n
      else if off < 0x20000 then (if n = 1 ∧ off - 0x10000 < p.ibufMax then .operandByte (off - 0x10000) else .bad)
      else if off < 0x30000 then (if n = 1 ∧ off - 0x20000 < p.obufMax then .responseByte (off - 0x20000) else .bad)
      else .bad := by
  unfold targetAt
  rw [if_neg (by omega)]
  simp only [Nat.add_sub_cancel_left]

theorem targetAt_register (p : Params) {k : Nat} {r : Reg} (h : k < 12) (hr : regOrder[k]? = some r) :
    targetAt p (p.base + 4 * k) 4 = .reg r := by
  rw [targetAt_base p 4 (by omega), if_pos (by omega), regTarget, regAt_of_order h, hr]
  rfl

theorem targetAt_cmd (p : Params) : targetAt p p.base 4 = .reg .cmd := targetAt_register p (k := 0) (by omega) rfl

theorem targetAt_operand (p : Params) {j : Nat} (hp : p.ibufMax ≤ 65535) (h : j < p.ibufMax) :
    targetAt p (p.base + 0x10000 + j) 1 = .operandByte j := by
  rw [Nat.add_assoc, targetAt_base p 1 (by omega), if_neg (by omega), if_pos (by omega), if_pos (by omega)]
  simp

theorem targetAt_response (p : Params) {j : Nat} (hp : p.obufMax ≤ 65535) (h : j < p.obufMax) :
    targetAt p (p.base + 0x20000 + j) 1 = .responseByte j := by
  rw [Nat.add_assoc, targetAt_base p 1 (by omega), if_neg (by omega), if_neg (by omega), if_pos (by omega),
    if_pos (by omega)]
  simp

/-- A target of the block is a mapped access (20_memory.md R62 to R66), and every other access is bad (R68). -/
theorem targetAt_bad (p : Params) {off n : Nat} (h : off < 0x40000) (hm : ¬ Safety.MappedAccess p off n) :
    targetAt p (p.base + off) n = .bad := by
  rw [targetAt_base p n h]
  unfold Safety.MappedAccess at hm
  split
  · unfold regTarget
    split
    · next r hr =>
      obtain ⟨k, hk, rfl, _⟩ := regAt_eq_some hr
      rw [if_neg (by omega)]
    · rfl
  · split
    · rw [if_neg (by omega)]
    · split
      · rw [if_neg (by omega)]
      · rfl

/-- Only a 4-byte access at BASE reaches CMD. -/
theorem targetAt_eq_cmd {p : Params} {addr n : Nat} (h : targetAt p addr n = .reg .cmd) : addr = p.base ∧ n = 4 := by
  unfold targetAt at h
  split at h
  · cases h
  · simp only at h
    split at h
    · unfold regTarget at h
      split at h
      · next r hr =>
        split at h
        · obtain rfl := Target.reg.inj h
          obtain ⟨k, hk, hoff, hr'⟩ := regAt_eq_some hr
          have : ∀ k, k < 12 → regOrder[k]? = some .cmd → k = 0 := by decide
          have := this k hk hr'
          omega
        · cases h
      · cases h
    · repeat' split at h
      all_goals cases h

/-- Only an address of another device is outside the block. -/
theorem targetAt_eq_outside {p : Params} {addr n : Nat} (h : targetAt p addr n = .outside) :
    addr < p.base ∨ p.base + 0x40000 ≤ addr := by
  unfold targetAt at h
  split at h
  · assumption
  · unfold regTarget at h
    simp only at h
    repeat' split at h
    all_goals cases h

/-- A bad access is an unmapped one inside the block. -/
theorem targetAt_eq_bad {p : Params} {addr n : Nat} (hi : p.ibufMax ≤ 65535) (ho : p.obufMax ≤ 65535)
    (h : targetAt p addr n = .bad) : ∃ off, addr = p.base + off ∧ off < 0x40000 ∧ ¬ Safety.MappedAccess p off n := by
  have hb : p.base ≤ addr ∧ addr < p.base + 0x40000 := by
    by_contra hn
    rw [targetAt, if_pos (by omega)] at h
    cases h
  refine ⟨addr - p.base, by omega, by omega, ?_⟩
  rw [show addr = p.base + (addr - p.base) by omega] at h
  generalize addr - p.base = off at h
  rintro (⟨rfl, h4, hle⟩ | ⟨rfl, h1, h2⟩ | ⟨rfl, h1, h2⟩)
  · have hk : off / 4 < regOrder.length := by show off / 4 < 12; omega
    rw [show off = 4 * (off / 4) by omega, targetAt_register p hk (List.getElem?_eq_getElem hk)] at h
    cases h
  · rw [show p.base + off = p.base + 0x10000 + (off - 0x10000) by omega, targetAt_operand p hi (by omega)] at h
    cases h
  · rw [show p.base + off = p.base + 0x20000 + (off - 0x20000) by omega, targetAt_response p ho (by omega)] at h
    cases h

/-- The operand window is IBUF_MAX bytes long. -/
theorem targetAt_eq_operand {p : Params} {addr n i : Nat} (h : targetAt p addr n = .operandByte i) : i < p.ibufMax := by
  unfold targetAt at h
  split at h
  · cases h
  · simp only at h
    split at h
    · unfold regTarget at h
      split at h
      · split at h <;> cases h
      · cases h
    · split at h
      · split at h
        · next hi => obtain rfl := Target.operandByte.inj h; exact hi.2
        · cases h
      · split at h
        · split at h <;> cases h
        · cases h

/-! ### Reads and writes -/

/-- What a bus read can do: answer a value and change nothing else, or stop the model. -/
theorem busRead_cases {addr n : Nat} {s : State} {r : Result} (h : busRead addr n s = r) :
    (∃ v, r = .next { s with rdata := v }) ∨
    (r = .fault .busError ∧ s.cfg.params.busFaultOnBadAccess = true ∧ targetAt s.cfg.params addr n = .bad) ∨
    (r = .refused .outsideBlock ∧ targetAt s.cfg.params addr n = .outside) := by
  unfold busRead badAccess at h
  subst h
  split
  · exact .inl ⟨_, rfl⟩
  · exact .inl ⟨_, rfl⟩
  · exact .inl ⟨_, rfl⟩
  · next ht =>
    split
    · next hb => exact .inr (.inl ⟨rfl, hb, ht⟩)
    · exact .inl ⟨_, rfl⟩
  · next ht => exact .inr (.inr ⟨rfl, ht⟩)

/-- A write to CMD executes the decoded command; an illegal word is a failed command. -/
theorem writeCmd_eq (cw : Word) (s : State) :
    writeCmd cw s = match decodeWord cw with
      | .ok i => exec i s
      | .error _ => illegalCommand s := by
  have h := decode_wordBytes cw []
  rw [List.append_nil] at h
  unfold writeCmd fetchCommand
  rw [h]
  cases decodeWord cw <;> rfl

/-- What a bus write can do: execute a command word, write ICNT, write one operand byte, change nothing, or stop the
model. -/
theorem busWrite_cases {addr n : Nat} {v : Word} {s : State} {r : Result} (h : busWrite addr n v s = r) :
    (addr = s.cfg.params.base ∧ n = 4 ∧ r = writeCmd v s) ∨
    r = .next (writeIcnt v s) ∨
    (∃ i, i < s.cfg.params.ibufMax ∧ r = .next (writeOperandByte i v s)) ∨
    r = .next s ∨
    (r = .fault .busError ∧ s.cfg.params.busFaultOnBadAccess = true ∧ targetAt s.cfg.params addr n = .bad) ∨
    (r = .refused .outsideBlock ∧ targetAt s.cfg.params addr n = .outside) := by
  unfold busWrite badAccess at h
  subst h
  split
  · next r ht =>
    unfold writeReg
    split
    · exact .inl ⟨(targetAt_eq_cmd ht).1, (targetAt_eq_cmd ht).2, rfl⟩
    · exact .inr (.inl rfl)
    all_goals exact .inr (.inr (.inr (.inl rfl)))
  · next i ht =>
    exact .inr (.inr (.inl ⟨i, targetAt_eq_operand ht, rfl⟩))
  · exact .inr (.inr (.inr (.inl rfl)))
  · next ht =>
    split
    · next hb => exact .inr (.inr (.inr (.inr (.inl ⟨rfl, hb, ht⟩))))
    · exact .inr (.inr (.inr (.inl rfl)))
  · next ht => exact .inr (.inr (.inr (.inr (.inr ⟨rfl, ht⟩))))

/-! ### One step -/

/-- With no access pending the CORE does nothing. -/
theorem step_nil {s : State} (h : s.hostq = []) : step s = .next s := by
  unfold step hostStep; rw [h]

/-- A step performs the host's next access. -/
theorem step_cons {s : State} {a : HostAccess} {q : List HostAccess} (h : s.hostq = a :: q) :
    step s = performAccess a { s with hostq := q } := by
  unfold step hostStep; rw [h]

/-- The states a step can lead to: nothing pending; a read; a command word; an illegal word; ICNT; an operand byte; an
ignored write; a reset. -/
theorem step_cases {s t : State} (h : step s = .next t) :
    (s.hostq = [] ∧ t = s) ∨
    ∃ a q, s.hostq = a :: q ∧
      ((∃ v, t = { s with hostq := q, rdata := v }) ∨
       (∃ cw i, a = .write s.cfg.params.base 4 cw ∧ decodeWord cw = .ok i ∧ exec i { s with hostq := q } = .next t) ∨
       (∃ cw e, a = .write s.cfg.params.base 4 cw ∧ decodeWord cw = .error e ∧
          t = takeError .cfgIllegal (clearBuffers { s with hostq := q })) ∨
       (∃ v, t = writeIcnt v { s with hostq := q }) ∨
       (∃ i v, i < s.cfg.params.ibufMax ∧ t = writeOperandByte i v { s with hostq := q }) ∨
       t = { s with hostq := q } ∨
       (a = .reset ∧ t = zeroRegisters { s with hostq := q })) := by
  cases hq : s.hostq with
  | nil => rw [step_nil hq] at h; injection h with h; exact .inl ⟨rfl, h.symm⟩
  | cons a q =>
    rw [step_cons hq] at h
    refine .inr ⟨a, q, rfl, ?_⟩
    cases a with
    | read addr n =>
      rcases busRead_cases h with ⟨v, hv⟩ | ⟨hv, -⟩ | ⟨hv, -⟩
      · injection hv with hv; exact .inl ⟨v, hv⟩
      · cases hv
      · cases hv
    | write addr n v =>
      rcases busWrite_cases h with ⟨rfl, rfl, hv⟩ | hv | ⟨i, hi, hv⟩ | hv | ⟨hv, -⟩ | ⟨hv, -⟩
      · rw [writeCmd_eq] at hv
        split at hv
        · next i hd => exact .inr (.inl ⟨v, i, rfl, hd, hv.symm⟩)
        · next e hd => injection hv with hv; exact .inr (.inr (.inl ⟨v, e, rfl, hd, hv⟩))
      · injection hv with hv; exact .inr (.inr (.inr (.inl ⟨v, hv⟩)))
      · injection hv with hv; exact .inr (.inr (.inr (.inr (.inl ⟨i, v, hi, hv⟩))))
      · injection hv with hv; exact .inr (.inr (.inr (.inr (.inr (.inl hv)))))
      · cases hv
      · cases hv
    | reset =>
      injection h with h
      exact .inr (.inr (.inr (.inr (.inr (.inr ⟨rfl, h.symm⟩)))))

/-- A write to CMD, as one step. -/
theorem step_command {s : State} {q : List HostAccess} {cw : Word} (h : s.hostq = .write s.cfg.params.base 4 cw :: q) :
    step s = writeCmd cw { s with hostq := q } := by
  rw [step_cons h]
  simp only [performAccess, busWrite, targetAt_cmd, writeReg]

end Sys2Proof.Machine
end

