-- ==== Sys2Proof/Laws/Bytes.lean ====
section
/-! SUPPORT. Lengths and elements of byte strings, array registers and engine results, and what a legal configuration
gives. -/

namespace Sys2Proof

/-! ### Configurations: every row of the table of 00_scope.md R8 fits the capacities of R11 -/

theorem Params.le_maxOf (p : Params) (f : VariantParams → Nat) (e : Engine) (c : KeyClass) :
    f (p.variant e c) ≤ p.maxOf f := by
  cases e <;> cases c <;> simp only [Params.variant, Params.maxOf] <;> omega

theorem Params.blockLen_le_nonceCap (p : Params) (e : Engine) (c : KeyClass) :
    (p.variant e c).blockLen ≤ p.nonceCap := Params.le_maxOf p _ e c

theorem Params.keyLen_le_keyCap (p : Params) (e : Engine) (c : KeyClass) : (p.variant e c).keyLen ≤ p.keyCap :=
  Params.le_maxOf p _ e c

theorem Params.infoMax_le_infoCap (p : Params) (e : Engine) (c : KeyClass) : (p.variant e c).infoMax ≤ p.infoCap :=
  Params.le_maxOf p _ e c

end Sys2Proof

namespace Sys2Proof.Machine

@[simp] theorem length_zeros (n : Nat) : (zeros n).length = n := by simp [zeros]

theorem mem_zeros {b : Byte} {n : Nat} (h : b ∈ zeros n) : b = 0 := (List.mem_replicate.1 h).2

@[simp] theorem getD_zeros (n i : Nat) : (zeros n).getD i 0 = 0 := by
  simp only [zeros, List.getD, List.getElem?_replicate]
  split <;> rfl

/-- An array register is as long as its capacity when the bytes fit. -/
theorem length_fillArray {cap : Nat} {S : Bytes} (h : S.length ≤ cap) : (fillArray cap S).length = cap := by
  simp [fillArray]; omega

/-- An array register holds the bytes and zeros after them. -/
theorem getD_fillArray (cap : Nat) (S : Bytes) (i : Nat) : (fillArray cap S).getD i 0 = S.getD i 0 := by
  unfold fillArray
  by_cases h : i < S.length
  · rw [List.getD_append _ _ _ _ h]
  · rw [List.getD_append_right _ _ _ _ (by omega), getD_zeros]
    simp [List.getD, List.getElem?_eq_none (Nat.le_of_not_lt h)]

theorem take_fillArray (cap : Nat) (S : Bytes) : (fillArray cap S).take S.length = S := by simp [fillArray]

theorem drop_fillArray (cap : Nat) (S : Bytes) : (fillArray cap S).drop S.length = zeros (cap - S.length) := by
  simp [fillArray]

/-- An element of a prefix. -/
theorem getD_take (l : Bytes) (n i : Nat) : (l.take n).getD i 0 = if i < n then l.getD i 0 else 0 := by
  simp only [List.getD, List.getElem?_take]; split <;> rfl

/-- An element of a byte string given by a function of the index. -/
theorem getD_map_range (f : Nat → Byte) (n i : Nat) : ((List.range n).map f).getD i 0 = if i < n then f i else 0 := by
  simp only [List.getD]; by_cases h : i < n <;> simp [h]

@[simp] theorem length_xorBytes (A B : Bytes) : (xorBytes A B).length = min A.length B.length := by simp [xorBytes]

@[simp] theorem length_le64 (v : BitVec 64) : (le64 v).length = 8 := by simp [le64]

@[simp] theorem length_bcEnc (E : Engines) (ks : KeySchedule) (B : Bytes) : (bcEnc E ks B).length = B.length := by
  simp [bcEnc]

@[simp] theorem length_rcsEnc (E : Engines) (cls : KeyClass) (ks : KeySchedule) (B : Bytes) :
    (rcsEnc E cls ks B).length = B.length := by simp [rcsEnc]

@[simp] theorem length_kdfBytes (E : Engines) (k : KdfStrategy) (key info : Bytes) (n : Nat) :
    (kdfBytes E k key info n).length = n := by simp [kdfBytes]

@[simp] theorem length_rcsMacKey (E : Engines) (cls : KeyClass) (key info : Bytes) (n : Nat) :
    (rcsMacKey E cls key info n).length = n := by simp [rcsMacKey]

@[simp] theorem length_macFinalize (E : Engines) (st : Option MacState) (n : Nat) :
    (macFinalize E st n).length = n := by cases st <;> simp [macFinalize]

@[simp] theorem length_ksBlock (E : Engines) (mode : Mode) (ks : KeySchedule) (C : Bytes) :
    (ksBlock E mode ks C).length = C.length := by
  unfold ksBlock; split <;> simp

@[simp] theorem length_incLE (C : Bytes) : (incLE C).length = C.length := by
  induction C with
  | nil => rfl
  | cons b bs ih => unfold incLE; split <;> simp [ih]

@[simp] theorem length_incBE (C : Bytes) : (incBE C).length = C.length := by simp [incBE]

@[simp] theorem length_incCounter (ce : CounterOrder) (C : Bytes) : (incCounter ce C).length = C.length := by
  cases ce <;> simp [incCounter]

/-- Absorbing twice is absorbing the concatenation (00_scope.md R7). -/
theorem macAbsorb_append (st : Option MacState) (a b : Bytes) :
    macAbsorb (macAbsorb st a) b = macAbsorb st (a ++ b) := by
  cases st <;> simp [macAbsorb, macUpdate]

@[simp] theorem macAbsorb_empty (st : Option MacState) : macAbsorb st [] = st := by
  cases st <;> simp [macAbsorb, macUpdate]

/-! ### The session's block length -/

theorem blockLen_pos (s : State) : 0 < blockLen s := s.cfg.legal.blockLen_pos _ _

theorem blockLen_le_nonceCap (s : State) : blockLen s ≤ s.cfg.params.nonceCap := Params.blockLen_le_nonceCap _ _ _

theorem blockLen_le_obufMax (s : State) : blockLen s ≤ s.cfg.params.obufMax := s.cfg.legal.blockLen_le_obuf _ _

/-- In a CTRB of its size the counter block has BL bytes. -/
theorem length_counterBlock {s : State} (h : s.ctrb.length = s.cfg.params.nonceCap) :
    (counterBlock s).length = blockLen s := by
  have := blockLen_le_nonceCap s
  simp [counterBlock]; omega

end Sys2Proof.Machine
end

