-- ==== Sys2Proof/Laws/Counter.lean ====
section
/-! SUPPORT. The loops of 40_ctr_keystream.md R115: how many blocks they make, how long their output is, where they leave the
counter; and the operand by bytes. -/

namespace Sys2Proof.Machine

@[simp] theorem length_iterate_incCounter (ce : CounterOrder) (k : Nat) (C : Bytes) :
    ((incCounter ce)^[k] C).length = C.length := by
  induction k generalizing C with
  | zero => rfl
  | succ k ih => rw [Function.iterate_succ, Function.comp, ih, length_incCounter]

/-- The loop increments the counter block once per block. -/
theorem ctrBlocks_counter (E : Engines) (mode : Mode) (ks : KeySchedule) (bl : Nat) :
    ∀ (k : Nat) (C X : Bytes), (ctrBlocks E mode ks bl k C X).2 = (incCounter mode.ce)^[k] C
  | 0, _, _ => rfl
  | k + 1, C, X => by simp only [ctrBlocks, ctrBlocks_counter E mode ks bl k]; rfl

/-- Enough blocks give as many bytes as went in. -/
theorem length_ctrBlocks (E : Engines) (mode : Mode) (ks : KeySchedule) (bl : Nat) :
    ∀ (k : Nat) (C X : Bytes), C.length = bl → X.length ≤ k * bl →
      (ctrBlocks E mode ks bl k C X).1.length = X.length
  | 0, _, X, _, h => by
    have : X = [] := by simpa using h
    subst this; rfl
  | k + 1, C, X, hC, h => by
    rw [Nat.add_mul, Nat.one_mul] at h
    simp only [ctrBlocks, List.length_append]
    rw [length_ctrBlocks E mode ks bl k _ _ (by simp [hC]) (by simp; omega)]
    simp [hC]; omega

/-- `ceil(n / BL)` blocks cover `n` bytes. -/
theorem le_blockCount_mul (n : Nat) {bl : Nat} (h : 0 < bl) : n ≤ blockCount n bl * bl := by
  have h1 := Nat.div_add_mod (n + bl - 1) bl
  have h2 := Nat.mod_lt (n + bl - 1) h
  rw [Nat.mul_comm] at h1
  unfold blockCount; omega

/-- `CtrXor`'s new state (40_ctr_keystream.md R115). -/
theorem ctrXor_state (E : Engines) (s : State) (X : Bytes) :
    (ctrXor E s X).2 =
      setCounterBlock s ((incCounter s.mode.ce)^[blockCount X.length (blockLen s)] (counterBlock s)) := by
  simp only [ctrXor, ctrBlocks_counter]

/-- `CtrXor` answers as many bytes as it was given. -/
theorem length_ctrXor (E : Engines) {s : State} (X : Bytes) (h : s.ctrb.length = s.cfg.params.nonceCap) :
    (ctrXor E s X).1.length = X.length :=
  length_ctrBlocks E s.mode s.ks (blockLen s) _ _ X (length_counterBlock h) (le_blockCount_mul _ (blockLen_pos s))

/-! ### The operand -/

theorem getD_operand (s : State) (i : Nat) :
    (operand s).getD i 0 = if i < s.icnt.toNat then Memory.read s.ibuf i else 0 := by
  rw [operand_eq_map, getD_map_range]

/-- When ICNT is LEN the operand is `IBUF[0..LEN)` byte by byte. -/
theorem operandBytes_eq {s : State} {len : BitVec 16} (h : s.icnt = len) :
    Safety.operandBytes s len.toNat = operand s := by
  subst h; rw [operand_eq_map]; rfl

/-- The check of code 0x40 compares ICNT with LEN. -/
theorem length_operand_ne (s : State) (len : BitVec 16) : (operand s).length ≠ len.toNat ↔ s.icnt ≠ len := by
  simp [BitVec.toNat_inj]

end Sys2Proof.Machine
end

