-- ==== Sys2Proof/Laws/Effects.lean ====
section
/-! SUPPORT. What each command's effect writes and what it leaves: one lemma per shared operation, so that no later proof
unfolds an effect (44_commands.md R184 to R193). -/

namespace Sys2Proof.Machine

/-! ### How a command ends -/

@[simp] theorem finishCommand_done (t : State) : finishCommand (.done t) = { t with err := 0 } := rfl

@[simp] theorem finishCommand_authFailed (t : State) : finishCommand (.authFailed t) = takeError .authFail t := rfl

/-- Every command but VERIFY ends normally once its checks pass. -/
theorem effectOf_done (i : Instr) (s : State) (X : Bytes) (h : ∀ len, i ≠ .verify len) :
    ∃ t, effectOf i s X = .done t := by
  cases i <;> first | exact ⟨_, rfl⟩ | exact absurd rfl (h _)

/-! ### The checks as conditions -/

/-- INIT's configuration checks (44_commands.md R187). -/
theorem firstRaise_initChecks (m : Mode) (s : State) : firstRaise (initChecks m s) =
    if (s.cfg.params.variant m.eng m.cls).supported = false then some .cfgUnsupported
    else if m.eng = .hba ∧ kdfSupported s.cfg.params m.kdf = false then some .cfgUnsupported
    else if s.keyn ≠ (s.cfg.params.variant m.eng m.cls).keyLen then some .cfgKeyLen
    else if s.nonn ≠ (s.cfg.params.variant m.eng m.cls).blockLen then some .cfgNonceLen
    else if (s.cfg.params.variant m.eng m.cls).infoMax < s.infn then some .cfgInfoLen
    else none := by
  unfold initChecks
  rw [firstRaise_cons, firstRaise_cons, firstRaise_decide, firstRaise_decide, firstRaise_decide, firstRaise_nil]
  simp only [Bool.not_eq_true', Bool.and_eq_true, beq_iff_eq]

/-- XFORM's checks (44_commands.md R189). -/
theorem firstRaise_xformChecks (len : BitVec 16) (s : State) (X : Bytes) : firstRaise (xformChecks len s X) =
    if X.length ≠ len.toNat then some .bufIn
    else if (s.mode.eng = .ctr ∨ s.mode.dir = .encrypt) ∧ s.cfg.params.obufMax < len.toNat then some .bufOut
    else if s.mode.eng ≠ .ctr ∧ s.mode.dir = .decrypt ∧ s.cfg.params.obufMax < s.hcnt.toNat + len.toNat then some .bufOut
    else if 2 ^ 64 ≤ s.ctt.toNat + len.toNat then some .bufTotal
    else none := by
  unfold xformChecks
  rw [firstRaise_operandCheck, firstRaise_cons, firstRaise_cons, firstRaise_decide, firstRaise_nil]
  simp only [Bool.and_eq_true, Bool.or_eq_true, beq_iff_eq, bne_iff_ne, decide_eq_true_eq, and_assoc]
  rfl

/-! ### The transform -/

/-- `CtrXor` writes CTRB and nothing else (40_ctr_keystream.md R115). -/
theorem ctrXor_frame (E : Engines) (s : State) (X : Bytes) :
    (ctrXor E s X).2 = { s with ctrb := (ctrXor E s X).2.ctrb } := rfl

/-- The fused transform writes CTRB and MACST and nothing else (42_rcs.md R154). -/
theorem rcsXor_frame (E : Engines) (s : State) (X : Bytes) :
    (rcsXor E s X).2 = { s with ctrb := (rcsXor E s X).2.ctrb, macst := (rcsXor E s X).2.macst } := rfl

/-- What XFORM writes in any session (44_commands.md R189). -/
theorem xformEffect_frame (E : Engines) (len : BitVec 16) (s : State) (X : Bytes) :
    xformEffect E len s X =
      { s with
        phase := .xform
        ctt := s.ctt + len64 len
        ctrb := (xformEffect E len s X).ctrb
        macst := (xformEffect E len s X).macst
        hold := (xformEffect E len s X).hold
        hcnt := (xformEffect E len s X).hcnt
        obuf := (xformEffect E len s X).obuf
        ocnt := (xformEffect E len s X).ocnt } := by
  unfold xformEffect xformCtr xformHbaEncrypt xformHbaDecrypt xformRcs
  split <;> try rfl
  split <;> rfl

/-- A CTR or an encrypting session withholds nothing (10_state.md R31). -/
theorem xformEffect_hold (E : Engines) (len : BitVec 16) (s : State) (X : Bytes)
    (h : s.mode.eng = .ctr ∨ s.mode.dir = .encrypt) :
    (xformEffect E len s X).hold = s.hold ∧ (xformEffect E len s X).hcnt = s.hcnt := by
  unfold xformEffect xformCtr xformHbaEncrypt xformHbaDecrypt xformRcs
  split
  · exact ⟨rfl, rfl⟩
  · exact ⟨rfl, rfl⟩
  · next h1 h2 => simp [h1, h2] at h
  · next h1 =>
    split
    · exact ⟨rfl, rfl⟩
    · next h2 => simp [h1, h2] at h

/-- A decrypting HBA or RCS session answers no byte (41_hba.md R136, 42_rcs.md R154). -/
theorem xformEffect_response (E : Engines) (len : BitVec 16) (s : State) (X : Bytes) (h : s.mode.eng ≠ .ctr)
    (hd : s.mode.dir = .decrypt) :
    (xformEffect E len s X).obuf = s.obuf ∧ (xformEffect E len s X).ocnt = s.ocnt := by
  unfold xformEffect xformCtr xformHbaEncrypt xformHbaDecrypt xformRcs
  split
  · next h1 => exact absurd h1 h
  · next h2 => rw [hd] at h2; cases h2
  · exact ⟨rfl, rfl⟩
  · simp only [hd]; exact ⟨rfl, rfl⟩

/-! ### The tag -/

/-- `TagCompute` absorbs the length block and nothing else (43_tag_compare.md R171). -/
theorem tagCompute_frame (E : Engines) (s : State) :
    (tagCompute E s).2 = { s with macst := macAbsorb s.macst (lengthBlock s) } := rfl

@[simp] theorem length_tagCompute (E : Engines) (s : State) :
    (tagCompute E s).1.length = (sessionVariant s).tagLen := by simp [tagCompute]

/-- VERIFY's two outcomes (43_tag_compare.md R174, R175). -/
theorem compareTag_cases (E : Engines) (s : State) (R : Bytes) :
    (ctEq (tagCompute E s).1 R = true ∧ compareTag E s R = .done (releasePlaintext (tagCompute E s).2)) ∨
    (ctEq (tagCompute E s).1 R = false ∧ compareTag E s R = .authFailed (poisonSession (tagCompute E s).2)) := by
  unfold compareTag
  cases h : ctEq (tagCompute E s).1 R <;> simp [h]

end Sys2Proof.Machine
end

