-- ==== Sys2Proof/Laws/PerInstr.lean ====
section
/-! SUPPORT. A statement per command: where its opcode stands in its word (30_encoding.md R90, R92). -/

namespace Sys2Proof.Laws.OpcodeField

/-- The word of a command carries its opcode in bits 31:24, and, but for INIT, 0 in the field MOD. -/
def Statement (i : Instr) : Prop :=
  opcField (encodeWord i) = opcode i ∧ ((∀ e c d o k, i ≠ .init e c d o k) → modField (encodeWord i) = 0)

/-- The shape all commands share. -/
theorem of_fields {i : Instr} {md : Byte} {len : BitVec 16} (h : encodeWord i = fieldsWord (opcode i) md len)
    (hm : (∀ e c d o k, i ≠ .init e c d o k) → md = 0) : Statement i := by
  unfold Statement
  rw [h, opcField_fieldsWord, modField_fieldsWord]
  exact ⟨rfl, hm⟩

theorem ldkey (len : BitVec 16) : Statement (.ldkey len) := of_fields (md := 0) (len := len) rfl fun _ => rfl
theorem ldnonce (len : BitVec 16) : Statement (.ldnonce len) := of_fields (md := 0) (len := len) rfl fun _ => rfl
theorem ldinfo (len : BitVec 16) : Statement (.ldinfo len) := of_fields (md := 0) (len := len) rfl fun _ => rfl
theorem init (e : Engine) (c : KeyClass) (d : Direction) (o : CounterOrder) (k : KdfStrategy) :
    Statement (.init e c d o k) :=
  of_fields (md := initMod e c d o k) (len := 0) rfl fun h => absurd rfl (h e c d o k)
theorem setaad (len : BitVec 16) : Statement (.setaad len) := of_fields (md := 0) (len := len) rfl fun _ => rfl
theorem xform (len : BitVec 16) : Statement (.xform len) := of_fields (md := 0) (len := len) rfl fun _ => rfl
theorem final : Statement .final := of_fields (md := 0) (len := 0) rfl fun _ => rfl
theorem verify (len : BitVec 16) : Statement (.verify len) := of_fields (md := 0) (len := len) rfl fun _ => rfl
theorem stnonce : Statement .stnonce := of_fields (md := 0) (len := 0) rfl fun _ => rfl
theorem dispose : Statement .dispose := of_fields (md := 0) (len := 0) rfl fun _ => rfl

end Sys2Proof.Laws.OpcodeField
end

