-- ==== Sys2Proof/Tests/Slice0.lean ====
section
/-! SUPPORT. Tests: the well-formedness smoke test, command words written out from 30_encoding.md R90 to R93, small
vectors of 95_test_vectors.md run with its toy engines (section 2), and a witness for every obligation with hypotheses.
Expected values are the spec's, from the section a docstring names. -/

namespace Sys2Proof.Tests

open Sys2Proof Sys2Proof.Machine Sys2Proof.Safety

/-! ### Helpers -/

/-- The `n` bytes of a number, byte 0 most significant, as 95_test_vectors.md writes byte strings. -/
def hex (n v : Nat) : Bytes := (List.range n).map fun i => BitVec.ofNat 8 (v / 256 ^ (n - 1 - i))

/-- The state a meaning leaves satisfies `p`; false of a fault or a refusal. -/
def leaves (r : Result) (p : State → Bool) : Bool :=
  match r with
  | .next t => p t
  | .fault _ => false
  | .refused _ => false

/-- A meaning ends with this ERR and this STATUS word. -/
def ends (r : Result) (code : Byte) (status : Word) : Bool := leaves r fun t => t.err == code && statusWord t == status

/-- The response as the host reads it. -/
def response (t : State) : Bytes := Memory.readBytes t.obuf 0 t.ocnt.toNat

/-- The host supplies an operand and declares its length. -/
def supply (s : State) (B : Bytes) : State :=
  { s with ibuf := Memory.writeBytes [] 0 B, icnt := BitVec.ofNat 16 B.length }

/-- The host declares `n` zero bytes. -/
def declare (s : State) (n : BitVec 16) : State := { s with icnt := n }

/-- UNINIT with the counts of the staging registers set (their bytes zero). -/
def staged (k n f : Nat) : State := { State.reset with keyn := k, nonn := n, infn := f }

/-- A session. -/
def session (mode : Mode) (phase : Phase) : State := { State.reset with mode := mode, phase := phase }

/-- An accumulator. -/
def someMac : MacState := ⟨256, [], [], []⟩

/-- A session with an accumulator. -/
def keyedSession (mode : Mode) (phase : Phase) : State := { session mode phase with macst := some someMac }

def ctrMode : Mode := ⟨.ctr, .class0, .encrypt, .bigEndian, .hkdf⟩
def hbaEnc : Mode := ⟨.hba, .class1, .encrypt, .bigEndian, .kmac⟩
def hbaDec : Mode := ⟨.hba, .class1, .decrypt, .bigEndian, .kmac⟩
def rcsEncLE : Mode := ⟨.rcs, .class0, .encrypt, .littleEndian, .hkdf⟩

/-! ### Well-formedness -/

/-- 30_encoding.md R93: KDF = 1 only under HBA. -/
theorem test_wellFormed_refuses_kdf_outside_hba :
    wellFormed (.init .ctr .class0 .encrypt .bigEndian .kmac) = false ∧
    wellFormed (.init .rcs .class1 .decrypt .littleEndian .kmac) = false ∧
    wellFormed (.init .hba .class1 .decrypt .littleEndian .kmac) = true ∧
    wellFormed (.init .ctr .class0 .encrypt .bigEndian .hkdf) = true := by decide

/-! ### Decoding: the words of 95_test_vectors.md section 3.1 -/

theorem test_decode_ldkey :
    decodeWord 0x01000020 = .ok (.ldkey 32) ∧ decodeWord 0x0100FFFF = .ok (.ldkey 65535) := ⟨rfl, rfl⟩
theorem test_decode_ldnonce : decodeWord 0x02000010 = .ok (.ldnonce 16) := rfl
theorem test_decode_ldinfo : decodeWord 0x03000000 = .ok (.ldinfo 0) := rfl
theorem test_decode_init :
    decodeWord 0x04000000 = .ok (.init .ctr .class0 .encrypt .bigEndian .hkdf) ∧
    decodeWord 0x04080000 = .ok (.init .ctr .class0 .decrypt .bigEndian .hkdf) ∧
    decodeWord 0x04140000 = .ok (.init .ctr .class1 .encrypt .littleEndian .hkdf) ∧
    decodeWord 0x04250000 = .ok (.init .hba .class1 .encrypt .bigEndian .kmac) ∧
    decodeWord 0x043D0000 = .ok (.init .hba .class1 .decrypt .littleEndian .kmac) ∧
    decodeWord 0x041A0000 = .ok (.init .rcs .class0 .decrypt .littleEndian .hkdf) := ⟨rfl, rfl, rfl, rfl, rfl, rfl⟩
theorem test_decode_setaad : decodeWord 0x05000003 = .ok (.setaad 3) := rfl
theorem test_decode_xform :
    decodeWord 0x06000014 = .ok (.xform 20) ∧ decodeWord 0x0600FFFF = .ok (.xform 65535) := ⟨rfl, rfl⟩
theorem test_decode_final : decodeWord 0x07000000 = .ok .final := rfl
theorem test_decode_verify : decodeWord 0x08000020 = .ok (.verify 32) := rfl
theorem test_decode_stnonce : decodeWord 0x09000000 = .ok .stnonce := rfl
theorem test_decode_dispose : decodeWord 0x0A000000 = .ok .dispose := rfl

/-- The illegal words, each by the reason it has none. -/
theorem test_decode_illegal_opcode :
    decodeWord 0x00000000 = .error .illegalOpcode ∧ decodeWord 0xFFFFFFFF = .error .illegalOpcode ∧
    decodeWord 0x0B000000 = .error .illegalOpcode := ⟨rfl, rfl, rfl⟩
theorem test_decode_illegal_mod :
    decodeWord 0x06010014 = .error .modNotZero ∧ decodeWord 0x09800000 = .error .modNotZero := ⟨rfl, rfl⟩
theorem test_decode_illegal_len :
    decodeWord 0x07000001 = .error .lenNotZero ∧ decodeWord 0x0A00FFFF = .error .lenNotZero ∧
    decodeWord 0x04000001 = .error .lenNotZero := ⟨rfl, rfl, rfl⟩
theorem test_decode_illegal_init :
    decodeWord 0x04030000 = .error .initEngine ∧ decodeWord 0x04200000 = .error .initKdf ∧
    decodeWord 0x04220000 = .error .initKdf ∧ decodeWord 0x04400000 = .error .initReserved ∧
    decodeWord 0x04800000 = .error .initReserved := ⟨rfl, rfl, rfl, rfl, rfl⟩

/-- 20_memory.md R69: the byte at the lowest address is bits 7:0; a string of fewer than four bytes is no command. -/
theorem test_decode_bytes :
    decode [0x20, 0x00, 0x00, 0x01, 0x77] = .ok (.ldkey 32, [0x77]) ∧ decode [0x20, 0x00, 0x00] = .error .truncated ∧
    decodeTableWord 32 0x04250000 = some (.init .hba .class1 .encrypt .bigEndian .kmac) := ⟨rfl, rfl, rfl⟩

theorem test_encode :
    encodeWord (.init .hba .class1 .decrypt .littleEndian .kmac) = 0x043D0000 ∧
    encodeWord (.init .rcs .class1 .decrypt .littleEndian .hkdf) = 0x041E0000 ∧
    encodeWord (.xform 0x1234) = 0x06001234 ∧ encode .final = [0x00, 0x00, 0x00, 0x07] := ⟨rfl, rfl, rfl, rfl⟩

/-! ### The toy engines (95_test_vectors.md section 2) -/

/-- `sum(B)`. -/
def toySum (B : Bytes) : Byte := B.foldl (· + ·) 0

/-- Byte `i mod |K|` of K. -/
def cyclic (K : Bytes) (i : Nat) : Byte := K.getD (i % K.length) 0

/-- `TOY.MAC(rc, key, cust, msg, n)`, byte `i`. -/
def toyMac (rc : Nat) (key cust msg : Bytes) (i : Nat) : Byte :=
  let absorbed := (key ++ cust ++ msg).foldl (fun h b => (h * 31 + b.toNat + 1) % 2 ^ 32) (rc % 2 ^ 32)
  BitVec.ofNat 8 ((List.range (i + 1)).foldl (fun h j => (h * 31 + j + 1) % 2 ^ 32) absorbed / 2 ^ 24)

def toy : Engines where
  bcExpand _ key := ⟨key⟩
  bcEncByte ks B i := B.getD i 0 ^^^ cyclic ks.schedule i ^^^ toySum B
  kdfByte s key info _ j :=
    cyclic key j + toySum info + (match s with | .hkdf => 0x11 | .kmac => 0x22) + BitVec.ofNat 8 j
  rcsSchedule _ key _ := ⟨key⟩
  rcsMacKeyByte _ key info j := (cyclic key j ^^^ 0xA5) + toySum info + BitVec.ofNat 8 j
  rcsEncByte c ks B i :=
    B.getD i 0 ^^^ cyclic ks.schedule i ^^^ toySum B ^^^ (match c with | .class0 => 0x16 | .class1 => 0x1E)
  macByte rc key cust msg _ i := toyMac rc key cust msg i
  mac0Byte _ _ := 0
  cust e c :=
    match e, c with
    | .hba, _ => [0x48, 0x42, 0x41, 0x31]
    | .rcs, .class0 => [0x52, 0x43, 0x53, 0x30]
    | .rcs, .class1 => [0x52, 0x43, 0x53, 0x31]
    | .ctr, _ => []

def k16 : Bytes := hex 16 0x0F1E2D3C4B5A69788796A5B4C3D2E1F0
def k32 : Bytes := hex 32 0x000102030405060708090A0B0C0D0E0F101112131415161718191A1B1C1D1E1F
def plain : Bytes := hex 20 0x112233445566778899AABBCCDDEEFF0010203040
def n16b : Bytes := hex 16 0xC35A0F963CA5F0691122448877EEDDBB
def info3 : Bytes := hex 3 0x696E66
def hbaCipher : Bytes := hex 20 0x2A81C629953E791E78790DB75EF5D44C2A82C42C
def hbaTag : Bytes := hex 32 0x92C9630927C28BDF0806D3ABCF1C7893D8457775468094EFFC865557A3CE06C3

/-- MKEY[0..32) of V-HBA-1's working. -/
def hbaMkey : Bytes := hex 32 0x5F61636567696B6D6F71737577797B7D7F81838587898B8D8F91939597999B9D

/-- The HBA session of V-HBA-1 after INIT, in a given direction and phase, `msg` absorbed. -/
def hbaSession (mode : Mode) (phase : Phase) (msg : Bytes) : State :=
  { State.reset with
    mode := mode, phase := phase, ks := ⟨k32⟩, mkey := hbaMkey ++ zeros 32, ctrb := n16b ++ zeros 16
    macst := some ⟨256, hbaMkey, [0x48, 0x42, 0x41, 0x31], msg⟩ }

/-- Section 2's check values. -/
theorem test_toy_engines :
    kdfBytes toy .kmac k32 info3 4 = hex 4 0x5F616365 ∧
    rcsMacKey toy .class0 k32 [] 4 = hex 4 0xA5A5A9A9 ∧
    macFinalize toy (some ⟨256, [1, 2], [0x63], [0x6D]⟩) 4 = hex 4 0xB4E95563 ∧
    bcEnc toy ⟨k32.take 16⟩ (zeros 15 ++ [0xFF]) = hex 16 0xFFFEFDFCFBFAF9F8F7F6F5F4F3F2F10F := by decide +kernel

/-! ### The counter, `le64`, the comparator (sections 3.2, 3.3) -/

theorem test_incBE :
    incBE (hex 16 0xFF) = hex 16 0x100 ∧ incBE (hex 16 0xFFFFFFFFFFFFFFFF) = hex 16 0x10000000000000000 ∧
    incBE (hex 16 (2 ^ 128 - 1)) = zeros 16 ∧ incBE (0xFF :: zeros 15) = 0xFF :: hex 15 1 := by decide +kernel
theorem test_incLE :
    incLE (0xFF :: zeros 15) = [0x00, 0x01] ++ zeros 14 ∧ incLE (hex 16 (2 ^ 128 - 1)) = zeros 16 ∧
    incLE (hex 16 0xFF) = 0x01 :: hex 15 0xFF ∧ incLE ([0xFF, 0xFF] ++ zeros 30) = [0, 0, 1] ++ zeros 29 := by
  decide +kernel
theorem test_le64 :
    le64 0x123456789ABCDEF = hex 8 0xEFCDAB8967452301 ∧ le64 256 = hex 8 0x0001000000000000 ∧
    lengthBlock { State.reset with aadt := 256, ctt := 65535 } = hex 16 0x0001000000000000FFFF000000000000 := by
  decide +kernel
theorem test_ctEq :
    ctEq [] [] = true ∧ ctEq (hex 4 0x112233) (hex 4 0x112233) = true ∧ ctEq (hex 4 0x112233) (hex 4 0x80112233) = false ∧
    ctEq (hex 4 0x112233) (hex 4 0x112232) = false ∧ ctEq (zeros 64) (zeros 64) = true := by decide +kernel

/-! ### Loads and INIT (section 3.4; V-HBA-1 rows 1 to 4) -/

theorem test_ldkey :
    (leaves (execLdkey 32 (supply State.reset k32)) fun t =>
      t.keyr == k32 ++ zeros 32 && t.keyn == 32 && t.icnt == 0 && statusWord t == 0x200) = true ∧
    ends (execLdkey 64 (declare State.reset 64)) 0x00 0x200 = true := by decide +kernel
theorem test_ldkey_refused :
    ends (execLdkey 0 State.reset) 0x11 0x1000 = true ∧ ends (execLdkey 65 (declare State.reset 65)) 0x11 0x1000 = true ∧
    ends (execLdkey 16 (declare State.reset 15)) 0x40 0x1000 = true ∧
    ends (execLdkey 16 (declare State.reset 17)) 0x40 0x1000 = true ∧
    ends (execLdkey 0 (declare State.reset 5)) 0x11 0x1000 = true ∧
    ends (execLdkey 16 (declare (session ctrMode .init) 16)) 0x20 0x1001 = true := by decide +kernel
theorem test_ldnonce :
    (leaves (execLdnonce 16 (supply (staged 32 0 0) n16b)) fun t =>
      t.nonr == n16b ++ zeros 16 && t.nonn == 16 && statusWord t == 0x600) = true ∧
    ends (execLdnonce 32 (declare State.reset 32)) 0x00 0x400 = true := by decide +kernel
theorem test_ldnonce_refused :
    ends (execLdnonce 0 State.reset) 0x12 0x1000 = true ∧
    ends (execLdnonce 33 (declare State.reset 33)) 0x12 0x1000 = true ∧
    ends (execLdnonce 16 (declare State.reset 0)) 0x40 0x1000 = true ∧
    ends (execLdnonce 16 (declare (session ctrMode .init) 16)) 0x20 0x1001 = true := by decide +kernel
theorem test_ldinfo :
    (leaves (execLdinfo 3 (supply (staged 32 16 0) info3)) fun t =>
      t.infr == info3 ++ zeros 253 && t.infn == 3 && statusWord t == 0xE00) = true ∧
    ends (execLdinfo 0 (staged 0 0 1)) 0x00 0x0 = true ∧
    ends (execLdinfo 256 (declare State.reset 256)) 0x00 0x800 = true := by decide +kernel
theorem test_ldinfo_refused :
    ends (execLdinfo 257 (declare State.reset 257)) 0x13 0x1000 = true ∧
    ends (execLdinfo 1 State.reset) 0x40 0x1000 = true ∧
    ends (execLdinfo 0 (session ctrMode .init)) 0x20 0x1001 = true := by decide +kernel

/-- V-HBA-1 row 4 and its working; the accumulator has absorbed the nonce. -/
theorem test_init_hba :
    (leaves (initWith toy .hba .class1 .encrypt .bigEndian .kmac
        { staged 32 16 3 with keyr := k32 ++ zeros 32, nonr := n16b ++ zeros 16, infr := info3 ++ zeros 253 }) fun t =>
      t == { hbaSession hbaEnc .init n16b with err := 0 } && statusWord t == 0x129) = true := by decide +kernel
/-- Section 3.4's refusals. -/
theorem test_init_refused :
    ends (execInit .ctr .class0 .encrypt .bigEndian .hkdf State.reset) 0x11 0x1000 = true ∧
    ends (execInit .ctr .class0 .encrypt .bigEndian .hkdf (staged 16 0 0)) 0x12 0x1200 = true ∧
    ends (execInit .ctr .class1 .encrypt .bigEndian .hkdf (staged 16 16 0)) 0x11 0x1600 = true ∧
    ends (execInit .ctr .class0 .encrypt .bigEndian .hkdf (staged 16 16 1)) 0x13 0x1E00 = true ∧
    ends (execInit .hba .class0 .encrypt .bigEndian .hkdf (staged 16 16 0)) 0x10 0x1600 = true ∧
    ends (execInit .hba .class1 .encrypt .bigEndian .hkdf (staged 16 32 0)) 0x11 0x1600 = true ∧
    ends (execInit .rcs .class0 .encrypt .littleEndian .hkdf (staged 32 32 49)) 0x13 0x1E00 = true ∧
    ends (execInit .ctr .class0 .encrypt .bigEndian .hkdf (session ctrMode .init)) 0x20 0x1001 = true := by
  decide +kernel

/-- The literal alternative of 90_conflicts.md C7: RCS keys of 16 and 32 bytes. -/
def shortKeyParams : Params :=
  { defaultParams with
    rcs0 := { defaultParams.rcs0 with keyLen := 16 }, rcs1 := { defaultParams.rcs1 with keyLen := 32 } }

/-- "the literal alternative 16 and 32 is a legal setting of the same parameter" (90_conflicts.md C7). -/
theorem test_short_rcs_keys_legal : shortKeyParams.Legal :=
  { defaultParams_legal with
    blockLen_pos := by intro e c; cases e <;> cases c <;> decide
    keyLen_pos := by intro e c; cases e <;> cases c <;> decide
    keyLen_src := by intro e _; cases e <;> first | contradiction | decide
    tagLen_pos := by intro e c _; cases e <;> cases c <;> first | contradiction | decide
    ctr_zero := by intro c; cases c <;> decide
    mkeyLen_le := by intro e c; cases e <;> cases c <;> decide
    aadMax_lt := by intro e c; cases e <;> cases c <;> decide
    rounds_base := by intro e c _; cases e <;> cases c <;> first | contradiction | decide
    keyCap_le := by decide
    tagLen_le_ibuf := by intro e c; cases e <;> cases c <;> decide
    tagLen_le_obuf := by intro e c; cases e <;> cases c <;> decide
    blockLen_le_obuf := by intro e c; cases e <;> cases c <;> decide }

/-! ### The session's commands -/

/-- V-HBA-1 row 5. -/
theorem test_setaad :
    (leaves (execSetaad 3 (supply (hbaSession hbaEnc .init n16b) (hex 3 0x616164))) fun t =>
      t == { hbaSession hbaEnc .aad (n16b ++ hex 3 0x616164) with aadt := 3 } && statusWord t == 0x12A) = true := by
  decide +kernel
/-- 41_hba.md R134: exactly AAD_MAX is accepted, one byte more is not; sections 3.5, 3.8. -/
theorem test_setaad_refused :
    ends (execSetaad 1 (declare { hbaSession hbaEnc .aad [] with aadt := 255 } 1)) 0x00 0x12A = true ∧
    ends (execSetaad 1 (declare { hbaSession hbaEnc .aad [] with aadt := 256 } 1)) 0x14 0x112A = true ∧
    ends (execSetaad 1 (hbaSession hbaEnc .aad [])) 0x40 0x112A = true ∧
    ends (execSetaad 0 (session ctrMode .xform)) 0x21 0x1003 = true ∧
    ends (execSetaad 0 (hbaSession hbaEnc .xform [])) 0x20 0x112B = true ∧
    ends (execSetaad 0 State.reset) 0x20 0x1000 = true := by decide +kernel

/-- V-CTR-1 row 4, V-HBA-1 row 6 and V-HBA-2 row 6: response, withheld plaintext, counter, accumulator. -/
theorem test_xform :
    (leaves (xformWith toy 20 (supply { session ctrMode .init with ks := ⟨k16⟩, ctrb := hex 16 0xFF ++ zeros 16 } plain))
      fun t => response t == hex 20 0xE1C3E187E1C3E10FE1C3E187E1C3E1F01E3F1C7D && t.ctrb == hex 16 0x101 ++ zeros 16 &&
        t.ctt == 20 && statusWord t == 0x3) = true ∧
    (leaves (xformWith toy 20 (supply { hbaSession hbaEnc .aad n16b with aadt := 3 } plain)) fun t =>
      response t == hbaCipher && t.macst == some ⟨256, hbaMkey, [0x48, 0x42, 0x41, 0x31], n16b ++ hbaCipher⟩ &&
        statusWord t == 0x12B) = true ∧
    (leaves (xformWith toy 16 (supply (hbaSession hbaDec .aad n16b) (hbaCipher.take 16))) fun t =>
      t.ocnt == 0 && t.hcnt == 16 && Memory.readBytes t.hold 0 16 == plain.take 16 && statusWord t == 0x16B) = true := by
  decide +kernel
/-- V-RCS-1 row 6: little-endian counter, two keystream blocks, the ciphertext absorbed. -/
theorem test_xform_rcs :
    (leaves (xformWith toy 33 (supply { keyedSession rcsEncLE .aad with
        ks := ⟨(List.range 32).map fun i => BitVec.ofNat 8 (7 * i + 3)⟩, ctrb := k32 }
        ((List.range 33).map fun i => BitVec.ofNat 8 (0x41 + i)))) fun t =>
      response t == hex 33 0xA4AFB6B9B8838A9D9CE7EEF1F0FBC2D5D4DF262928333A0D0C171E61606B724584 &&
      t.macst == some { someMac with msg := response t } && t.ctrb == 0x02 :: k32.drop 1 &&
      statusWord t == 0x93) = true := by decide +kernel

/-- V-HBA-1 row 7. -/
theorem test_final :
    (leaves (finalWith toy { hbaSession hbaEnc .xform (n16b ++ hex 3 0x616164 ++ hbaCipher) with aadt := 3, ctt := 20 })
      fun t => response t == hbaTag && statusWord t == 0x12C) = true := by decide +kernel
/-- Section 3.8. -/
theorem test_final_refused :
    ends (execFinal State.reset) 0x20 0x1000 = true ∧ ends (execFinal (session ctrMode .xform)) 0x21 0x1003 = true ∧
    ends (execFinal (hbaSession hbaDec .xform [])) 0x21 0x116B = true ∧
    ends (execFinal (hbaSession hbaEnc .init [])) 0x20 0x1129 = true := by decide +kernel

/-- The session of V-HBA-2 before row 8. -/
def beforeVerify : State :=
  { hbaSession hbaDec .xform (n16b ++ hex 3 0x616164 ++ hbaCipher) with
    aadt := 3, ctt := 20, hold := Memory.writeBytes [] 0 plain, hcnt := 20 }

/-- V-HBA-2 row 8: the right tag releases the plaintext; V-HBA-3: bit 0 of byte 31 flipped poisons the session. -/
theorem test_verify :
    (leaves (verifyWith toy 32 (supply beforeVerify hbaTag)) fun t =>
      t.err == 0 && response t == plain && t.hcnt == 0 && t.hold == [] && statusWord t == 0x216C) = true ∧
    (leaves (verifyWith toy 32 (supply beforeVerify (hbaTag.take 31 ++ [0xC2]))) fun t =>
      t.err == 0x30 && t.ocnt == 0 && t.obuf == [] && t.hcnt == 0 && t.hold == [] && statusWord t == 0x116D) = true := by
  decide +kernel
/-- 44_commands.md R191: 0x40 before 0x43; an encrypting session has no VERIFY. -/
theorem test_verify_refused :
    ends (verifyWith toy 32 (supply beforeVerify (hbaTag.take 31))) 0x40 0x116B = true ∧
    ends (verifyWith toy 31 (supply beforeVerify (hbaTag.take 31))) 0x43 0x116B = true ∧
    ends (verifyWith toy 32 (hbaSession hbaEnc .xform [])) 0x21 0x112B = true := by decide +kernel

/-- V-RCS-1 rows 4 and 9: the counter block, in phase FINAL too; refused outside RCS and in phase FAILED. -/
theorem test_stnonce :
    (leaves (execStnonce { session rcsEncLE .final with ctrb := k32 }) fun t =>
      response t == k32 && t.ctrb == k32 && statusWord t == 0x94) = true ∧
    ends (execStnonce (session ctrMode .xform)) 0x21 0x1003 = true ∧
    ends (execStnonce (session rcsEncLE .failed)) 0x20 0x1095 = true := by decide +kernel

theorem test_dispose :
    (leaves (execDispose { supply beforeVerify hbaTag with esticky := true, err := 0x30 }) fun t =>
      t == State.reset) = true := by decide +kernel

/-! ### The bus (20_memory.md; 10_state.md R37) -/

theorem test_bus_reads :
    (leaves (step { State.reset with hostq := [.read 0x28 4] }) fun t => t.rdata == 0x10001000) = true ∧
    (leaves (step { State.reset with hostq := [.read 0x2C 4] }) fun t => t.rdata == 0x33B) = true ∧
    (leaves (step { declare State.reset 5 with hostq := [.read 0x0D 4], rdata := 7 }) fun t => t.rdata == 0) = true := by
  decide +kernel
theorem test_bus_writes :
    (leaves (step { State.reset with hostq := [.write 0x0C 4 0xABCD0010] }) fun t => t.icnt == 16) = true ∧
    (leaves (step { State.reset with hostq := [.write 0x0C 4 0xFFFF] }) fun t => t.icnt == 4096) = true ∧
    (leaves (step { State.reset with hostq := [.write 0x10FFF 1 0x15A] }) fun t => t.ibuf == [(4095, 0x5A)]) = true ∧
    (leaves (step { declare State.reset 16 with hostq := [.write 0x00 4 0x01000010] }) fun t => t.keyn == 16) = true := by
  decide +kernel

/-! ### Witnesses: a concrete state and operands for the hypotheses of each obligation -/

/-- Reset with one access pending. -/
def pending (a : HostAccess) : State := { State.reset with hostq := [a] }

/-- The defaults, on a platform that signals bad accesses. -/
def faultingConfig : Config := ⟨{ defaultParams with busFaultOnBadAccess := true }, { defaultParams_legal with }⟩

theorem witness_DecodeOfEncodeIsTheCommand :
    WellFormed (.init .hba .class1 .decrypt .littleEndian .kmac) ∧ WellFormed (.xform 0xFFFF) := by decide
theorem witness_EncodeOfDecodeIsTheWord :
    decodeWord 0x043D0000 = .ok (.init .hba .class1 .decrypt .littleEndian .kmac) := rfl
theorem witness_IllegalWordsFailAndChangeNothingElse :
    (pending (.write 0 4 0x07000001)).hostq = .write State.reset.cfg.params.base 4 0x07000001 :: [] ∧
    IllegalWord 0x07000001 ∧ IllegalWord 0x0B000000 ∧ IllegalWord 0x04220000 ∧ IllegalWord 0x06010014 :=
  ⟨rfl, by unfold IllegalWord; decide, by unfold IllegalWord; decide, by unfold IllegalWord; decide,
    by unfold IllegalWord; decide⟩
theorem witness_StepRunsTheDecodedCommand :
    (pending (.write 0 4 0x07000000)).hostq = .write State.reset.cfg.params.base 4 0x07000000 :: [] ∧
    decode (wordBytes 0x07000000) = .ok (.final, []) := ⟨rfl, rfl⟩
/-- The first and the last register. -/
theorem witness_RegisterReadsAnswerTheirValues :
    (pending (.read 0 4)).hostq = .read (State.reset.cfg.params.base + 4 * 0) 4 :: [] ∧
    (pending (.read 0x2C 4)).hostq = .read (State.reset.cfg.params.base + 4 * 11) 4 :: [] := ⟨rfl, rfl⟩
theorem witness_StatusFields :
    (pending (.read 4 4)).hostq = .read (State.reset.cfg.params.base + 4) 4 :: [] ∧
    (pending (.write 4 4 5)).hostq = .write (State.reset.cfg.params.base + 4) 4 5 :: [] := ⟨rfl, rfl⟩
/-- ICNT, then the registers beside CMD and ICNT and the last one. -/
theorem witness_RegisterWritesStoreOnlyIcnt :
    (pending (.write 0x0C 4 0xFFFF)).hostq = .write (State.reset.cfg.params.base + 0x0C) 4 0xFFFF :: [] ∧
    (pending (.write 4 4 1)).hostq = .write (State.reset.cfg.params.base + 4 * 1) 4 1 :: [] ∧
    (pending (.write 0x10 4 1)).hostq = .write (State.reset.cfg.params.base + 4 * 4) 4 1 :: [] ∧
    (pending (.write 0x2C 4 1)).hostq = .write (State.reset.cfg.params.base + 4 * 11) 4 1 :: [] := ⟨rfl, rfl, rfl, rfl⟩
/-- The first and the last byte of each window. -/
theorem witness_WindowAccesses :
    (0 < State.reset.cfg.params.ibufMax ∧ 4095 < State.reset.cfg.params.ibufMax ∧ 4095 < State.reset.cfg.params.obufMax ∧
      Memory.wf State.reset.ibuf = true) ∧
    (pending (.write 0x10000 1 9)).hostq = .write (State.reset.cfg.params.base + 0x10000 + 0) 1 9 :: [] ∧
    (pending (.write 0x10FFF 1 9)).hostq = .write (State.reset.cfg.params.base + 0x10000 + 4095) 1 9 :: [] ∧
    (pending (.read 0x10FFF 1)).hostq = .read (State.reset.cfg.params.base + 0x10000 + 4095) 1 :: [] ∧
    (pending (.read 0x20FFF 1)).hostq = .read (State.reset.cfg.params.base + 0x20000 + 4095) 1 :: [] ∧
    (pending (.write 0x20FFF 1 9)).hostq = .write (State.reset.cfg.params.base + 0x20000 + 4095) 1 9 :: [] :=
  ⟨by decide, rfl, rfl, rfl, rfl, rfl⟩
/-- An offset after the last register, a short register access, the byte after a window, the end of the block; both
settings of BUS_FAULT_ON_BAD_ACCESS. -/
theorem witness_BadAccessesDoNothing :
    (¬ MappedAccess defaultParams 0x30 4 ∧ ¬ MappedAccess defaultParams 0x0C 1 ∧ ¬ MappedAccess defaultParams 0x11000 1 ∧
      ¬ MappedAccess defaultParams 0x3FFFF 1 ∧ ¬ MappedAccess faultingConfig.params 0x30 4) ∧
    State.reset.cfg.params.busFaultOnBadAccess = false ∧ faultingConfig.params.busFaultOnBadAccess = true ∧
    (pending (.read 0x30 4)).hostq = .read (State.reset.cfg.params.base + 0x30) 4 :: [] ∧
    (pending (.write 0x30 4 1)).hostq = .write (State.reset.cfg.params.base + 0x30) 4 1 :: [] := by
  refine ⟨?_, rfl, rfl, rfl, rfl⟩
  unfold MappedAccess
  decide
/-- A read and a write that fault, a refused access, and a write of CMD on the platform that signals bad accesses. -/
theorem witness_WhereAStepStops :
    step { pending (.read 0x30 4) with cfg := faultingConfig } = .fault .busError ∧
    step { pending (.write 0x3FFFF 1 0) with cfg := faultingConfig } = .fault .busError ∧
    step (pending (.write 0x40000 4 0x0A000000)) = .refused .outsideBlock ∧
    { pending (.write 0 4 0xFFFFFFFF) with cfg := faultingConfig }.hostq =
      .write faultingConfig.params.base 4 0xFFFFFFFF :: [] := ⟨rfl, rfl, rfl, rfl⟩
theorem witness_OneAccessPerStep :
    State.reset.hostq = [] ∧ step (pending (.write 0 4 0x0A000000)) = .next State.reset := ⟨rfl, rfl⟩
theorem witness_OnlyCommandsAndResetChangeTheSession :
    HostAccess.write 0x0C 4 7 ≠ .reset ∧
    (∀ v, HostAccess.write 0x0C 4 7 ≠ .write (pending (.write 0x0C 4 7)).cfg.params.base 4 v) ∧
    step (pending (.write 0x0C 4 7)) = .next { State.reset with icnt := 7 } :=
  ⟨by decide, fun v h => absurd (HostAccess.write.inj h).1 (by decide), rfl⟩
/-- Two states with different keys and withheld bytes. -/
theorem witness_SecretsHaveNoBusReadPath :
    let s := pending (.read 0x20000 1)
    let s' := { s with ks := ⟨[7]⟩, hold := [(0, 5)], ctrb := [9], ibuf := [(1, 1)] }
    s' = { s with ks := s'.ks, mkey := s'.mkey, macst := s'.macst, hold := s'.hold, ctrb := s'.ctrb, keyr := s'.keyr,
                  nonr := s'.nonr, infr := s'.infr, ibuf := s'.ibuf } ∧
    s.hostq = .read 0x20000 1 :: [] ∧ step s = .next { s with hostq := [], rdata := 0 } ∧
    step s' = .next { s' with hostq := [], rdata := 0 } := ⟨rfl, rfl, rfl, rfl⟩
theorem witness_ResetLeavesTheResetValues : (pending .reset).hostq = .reset :: [] := rfl

/-! Commands that end with each kind of outcome. -/

/-- Refused by admission, by a check, and as an illegal word. -/
theorem witness_FailedCommandsChangeNothingElse :
    (exec .final State.reset = .next (afterCommand .final State.reset) ∧
      (afterCommand .final State.reset).err ≠ 0x00 ∧ (afterCommand .final State.reset).err ≠ 0x30) ∧
    decodeWord 0 = .error .illegalOpcode ∧
    writeCmd 0 State.reset = .next (takeError .cfgIllegal (clearBuffers State.reset)) :=
  ⟨⟨exec_eq_next _ _, by decide, by decide⟩, rfl, rfl⟩
theorem witness_AdmissionTable :
    exec (.setaad 0) (session ctrMode .init) = .next (afterCommand (.setaad 0) (session ctrMode .init)) ∧
    (afterCommand (.setaad 0) (session ctrMode .init)).err = 0x21 ∧
    (afterCommand (.ldkey 16) (session ctrMode .init)).err = 0x20 ∧
    (afterCommand (.setaad 0) (keyedSession hbaEnc .init)).err = 0x00 :=
  ⟨exec_eq_next _ _, by decide, by decide, by decide⟩
theorem witness_FinishedSessionsAdmitOnlyDisposal :
    (exec (.xform 0) (keyedSession hbaDec .failed) = .next (afterCommand (.xform 0) (keyedSession hbaDec .failed)) ∧
      (keyedSession hbaDec .failed).phase = .failed) ∧
    (exec .stnonce (keyedSession rcsEncLE .final) = .next (afterCommand .stnonce (keyedSession rcsEncLE .final)) ∧
      (keyedSession rcsEncLE .final).phase = .final) := ⟨⟨exec_eq_next _ _, rfl⟩, ⟨exec_eq_next _ _, rfl⟩⟩
theorem witness_CodesEachCommandCanEndWith :
    exec .dispose State.reset = .next (afterCommand .dispose State.reset) := exec_eq_next _ _
theorem witness_StickyAndAuthFlags :
    exec (.ldkey 0) State.reset = .next (afterCommand (.ldkey 0) State.reset) ∧ Instr.ldkey 0 ≠ .dispose ∧
    (afterCommand (.ldkey 0) State.reset).esticky = true := ⟨exec_eq_next _ _, by decide, by decide⟩
theorem witness_OnlyFiveThingsAreEverResponses :
    exec .stnonce (session rcsEncLE .init) = .next (afterCommand .stnonce (session rcsEncLE .init)) ∧
    (afterCommand .stnonce (session rcsEncLE .init)).ocnt ≠ 0 := ⟨exec_eq_next _ _, by decide +kernel⟩

/-! INIT, SETAAD, the counter. -/

theorem witness_InitCtrSession :
    let s := staged 16 16 0
    s.phase = .uninit ∧ (s.cfg.params.variant .ctr .class0).supported = true ∧
    s.keyn = (s.cfg.params.variant .ctr .class0).keyLen ∧ s.nonn = (s.cfg.params.variant .ctr .class0).blockLen ∧
    s.infn = 0 ∧ s.nonr.length = s.cfg.params.nonceCap := by decide
/-- Info of exactly INFO_MAX bytes. -/
theorem witness_InitHbaSession :
    let s := staged 32 16 256
    s.phase = .uninit ∧ (s.cfg.params.variant .hba .class1).supported = true ∧
    kdfSupported s.cfg.params .kmac = true ∧ kdfSupported s.cfg.params .hkdf = true ∧
    s.keyn = (s.cfg.params.variant .hba .class1).keyLen ∧ s.nonn = (s.cfg.params.variant .hba .class1).blockLen ∧
    s.infn ≤ (s.cfg.params.variant .hba .class1).infoMax ∧ s.nonr.length = s.cfg.params.nonceCap := by decide
theorem witness_InitRcsSession :
    let s := staged 64 32 48
    s.phase = .uninit ∧ (s.cfg.params.variant .rcs .class1).supported = true ∧
    s.keyn = (s.cfg.params.variant .rcs .class1).keyLen ∧ s.nonn = (s.cfg.params.variant .rcs .class1).blockLen ∧
    s.infn ≤ (s.cfg.params.variant .rcs .class1).infoMax ∧ s.nonr.length = s.cfg.params.nonceCap := by decide
/-- Every branch of the rule, the last one with an accumulator. -/
theorem witness_SetaadRule :
    (keyedSession hbaEnc .init).macst = some someMac ∧
    ends (execSetaad 0 State.reset) 0x20 0x1000 = true ∧
    ends (execSetaad 0 (session ctrMode .init)) 0x21 0x1001 = true ∧
    ends (execSetaad 0 (keyedSession hbaEnc .xform)) 0x20 0x112B = true ∧
    ends (execSetaad 257 (keyedSession hbaEnc .init)) 0x14 0x1129 = true ∧
    ends (execSetaad 256 (keyedSession hbaEnc .init)) 0x40 0x1129 = true ∧
    ends (execSetaad 256 (declare (keyedSession hbaEnc .init) 256)) 0x00 0x12A = true := by decide +kernel

def chunkStart : State := supply (keyedSession hbaEnc .init) [0x61]
def chunkNext : State := supply (afterCommand (.setaad 1) chunkStart) [0x61, 0x64]
def chunkWhole : State := supply chunkStart [0x61, 0x61, 0x64]

theorem witness_SetaadChunksConcatenate :
    (exec (.setaad 1) chunkStart = .next (afterCommand (.setaad 1) chunkStart) ∧
      exec (.setaad 2) chunkNext = .next (afterCommand (.setaad 2) chunkNext) ∧
      exec (.setaad (1 + 2)) chunkWhole = .next (afterCommand (.setaad (1 + 2)) chunkWhole)) ∧
    chunkNext = { afterCommand (.setaad 1) chunkStart with ibuf := chunkNext.ibuf, icnt := chunkNext.icnt } ∧
    chunkWhole = { chunkStart with ibuf := chunkWhole.ibuf, icnt := chunkWhole.icnt } ∧
    ((afterCommand (.setaad 1) chunkStart).err = 0 ∧ (afterCommand (.setaad 2) chunkNext).err = 0 ∧
      chunkWhole.icnt = 1 + 2 ∧
      operandBytes chunkWhole (1 + 2) = operandBytes chunkStart 1 ++ operandBytes chunkNext 2) :=
  ⟨⟨exec_eq_next _ _, exec_eq_next _ _, exec_eq_next _ _⟩, rfl, rfl, by decide +kernel⟩
theorem witness_CtrXorInClosedForm :
    (session ctrMode .init).ctrb.length = (session ctrMode .init).cfg.params.nonceCap := by decide
/-- One state of each byte order. -/
theorem witness_CounterAdvancesByTheBlockCount :
    ((session ctrMode .init).ctrb.length = (session ctrMode .init).cfg.params.nonceCap ∧ ctrMode.ce = .bigEndian) ∧
    ((session rcsEncLE .init).ctrb.length = (session rcsEncLE .init).cfg.params.nonceCap ∧
      rcsEncLE.ce = .littleEndian) := by decide
theorem witness_CtrXorSplitsAtBlockBoundaries :
    (session ctrMode .init).ctrb.length = (session ctrMode .init).cfg.params.nonceCap ∧
    (plain.take 16).length % blockLen (session ctrMode .init) = 0 := by decide +kernel
theorem witness_CtrXorIsAnInvolution :
    (session hbaEnc .aad).ctrb.length = (session hbaEnc .aad).cfg.params.nonceCap := by decide

/-- A state of each engine. -/
theorem witness_KeystreamBlockIsTheEnginesOutput :
    (session ctrMode .init).ctrb.length = (session ctrMode .init).cfg.params.nonceCap ∧
    (session hbaDec .aad).ctrb.length = (session hbaDec .aad).cfg.params.nonceCap ∧
    (session rcsEncLE .aad).ctrb.length = (session rcsEncLE .aad).cfg.params.nonceCap := by decide

/-! XFORM. -/

/-- Every branch of the rule. -/
theorem witness_XformChecksInOrder :
    ends (execXform 0 State.reset) 0x20 0x1000 = true ∧
    ends (execXform 0 (session ctrMode .final)) 0x20 0x1004 = true ∧
    ends (execXform 0 (keyedSession hbaEnc .init)) 0x20 0x1129 = true ∧
    ends (execXform 20 (declare (keyedSession hbaEnc .aad) 19)) 0x40 0x112A = true ∧
    ends (execXform 1 (declare { keyedSession hbaDec .xform with hcnt := 4096 } 1)) 0x41 0x116B = true ∧
    ends (execXform 1 (declare { session ctrMode .xform with ctt := BitVec.ofNat 64 (2 ^ 64 - 1) } 1)) 0x42 0x1003 = true ∧
    ends (execXform 0 (session ctrMode .init)) 0x00 0x3 = true ∧
    (State.reset.cfg.params.obufMax < (4097 : BitVec 16).toNat) := by decide +kernel
/-- A block and a byte; and the empty operand with CTT at its maximum. -/
theorem witness_XformCtrSession :
    let s := supply (session ctrMode .init) (plain.take 17)
    let s' := { session ctrMode .xform with ctt := BitVec.ofNat 64 (2 ^ 64 - 1) }
    (s.mode.eng = .ctr ∧ (s.phase = .init ∨ s.phase = .xform) ∧ s.icnt = 17 ∧ 17 ≤ s.cfg.params.obufMax ∧
      s.ctt.toNat + 17 < 2 ^ 64 ∧ s.ctrb.length = s.cfg.params.nonceCap) ∧
    (s'.mode.eng = .ctr ∧ (s'.phase = .init ∨ s'.phase = .xform) ∧ s'.icnt = 0 ∧ s'.ctt.toNat + 0 < 2 ^ 64 ∧
      s'.ctrb.length = s'.cfg.params.nonceCap) := by decide +kernel
theorem witness_XformEncryptingSession :
    let s := supply (keyedSession hbaEnc .aad) plain
    s.mode.eng ≠ .ctr ∧ s.mode.dir = .encrypt ∧ (s.phase = .aad ∨ s.phase = .xform) ∧ s.macst = some someMac ∧
    s.icnt = 20 ∧ 20 ≤ s.cfg.params.obufMax ∧ s.ctt.toNat + 20 < 2 ^ 64 ∧ s.ctrb.length = s.cfg.params.nonceCap := by
  decide +kernel
/-- The last byte that HOLD has room for. -/
theorem witness_XformDecryptingSession :
    let s := { supply (keyedSession hbaDec .xform) [0x5A] with hcnt := 4095, hold := [(0, 1)] }
    s.mode.eng ≠ .ctr ∧ s.mode.dir = .decrypt ∧ (s.phase = .aad ∨ s.phase = .xform) ∧ s.macst = some someMac ∧
    s.icnt = 1 ∧ s.hcnt.toNat + 1 ≤ s.cfg.params.obufMax ∧ s.ctt.toNat + 1 < 2 ^ 64 ∧
    s.ctrb.length = s.cfg.params.nonceCap ∧ Memory.wf s.hold = true := by decide +kernel

/-! The tag. -/

theorem witness_ComparatorIsEquality :
    (hex 4 0x112233).length = (hex 4 0x80112233).length ∧ ([] : Bytes).length = ([] : Bytes).length := by decide
/-- Every branch of the rule, the last one with an accumulator. -/
theorem witness_FinalRule :
    (keyedSession hbaEnc .aad).macst = some someMac ∧
    ends (execFinal State.reset) 0x20 0x1000 = true ∧
    ends (execFinal (session ctrMode .xform)) 0x21 0x1003 = true ∧
    ends (execFinal (keyedSession hbaDec .xform)) 0x21 0x116B = true ∧
    ends (execFinal (keyedSession hbaEnc .init)) 0x20 0x1129 = true ∧
    ends (execFinal (keyedSession hbaEnc .aad)) 0x00 0x12C = true := by decide +kernel

/-- A decrypting session that is ready for VERIFY, with an operand. -/
def verifying (B : Bytes) : State := supply { keyedSession hbaDec .aad with hold := [(0, 7)], hcnt := 1 } B

/-- Its tag, which nothing can evaluate. -/
def tag : Bytes := tagOf engines (verifying []) someMac

theorem length_tag : tag.length = 32 := by
  show ((List.range 32).map _).length = 32
  simp

theorem operand_verifying {B : Bytes} (h : B.length = 32) : operand (verifying B) = B := by
  have hn : (verifying B).icnt.toNat = B.length := by
    show (BitVec.ofNat 16 B.length).toNat = B.length
    rw [h]; rfl
  rw [operand, hn]
  exact Memory.readBytes_writeBytes_nil B

/-- VERIFY on it comes to the comparison. -/
theorem verify_verifying {B : Bytes} (h : B.length = 32) :
    exec (.verify 32) (verifying B) = .next (finishCommand (compareTag engines (clearBuffers (verifying B)) B)) := by
  have hc : firstRaise (checksOf (.verify 32) (clearBuffers (verifying B)) (operand (verifying B))) = none := by
    rw [operand_verifying h]
    show firstRaise [operandCheck B 32, _] = none
    simp only [operandCheck, h]
    rfl
  rw [exec_of_checks rfl hc, operand_verifying h]
  rfl

theorem ctAcc_self (A : Bytes) : ctAcc 0 A A = 0 := by
  induction A with
  | nil => rfl
  | cons a A ih => simpa [ctAcc] using ih

theorem ctAcc_ne_zero {acc : Byte} (h : acc ≠ 0) : ∀ A B : Bytes, ctAcc acc A B ≠ 0
  | [], _ => by simpa [ctAcc] using h
  | _ :: _, [] => by simpa [ctAcc] using h
  | a :: A, b :: B => by
    refine ctAcc_ne_zero (fun hz => h ?_) A B
    exact (BitVec.or_eq_zero_iff.1 hz).1

/-- The tag with byte 0 changed. -/
def wrongTag (k : Byte) : Bytes := (tag.headD 0 ^^^ k) :: tag.tail

theorem length_wrongTag (k : Byte) : (wrongTag k).length = 32 := by
  simp [wrongTag, length_tag]

theorem verify_rightTag : exec (.verify 32) (verifying tag) =
    .next (finishCommand (.done (releasePlaintext (tagCompute engines (clearBuffers (verifying tag))).2))) := by
  rw [verify_verifying length_tag]
  have h : ctEq (tagCompute engines (clearBuffers (verifying tag))).1 tag = true := by
    show (ctAcc 0 tag tag == 0) = true
    rw [ctAcc_self]; rfl
  unfold compareTag
  simp only [h]
  rfl

theorem verify_wrongTag {k : Byte} (hk : k ≠ 0) : exec (.verify 32) (verifying (wrongTag k)) =
    .next (takeError .authFail (poisonSession (tagCompute engines (clearBuffers (verifying (wrongTag k)))).2)) := by
  rw [verify_verifying (length_wrongTag k)]
  have h : ctEq (tagCompute engines (clearBuffers (verifying (wrongTag k)))).1 (wrongTag k) = false := by
    show (ctAcc 0 tag (wrongTag k) == 0) = false
    cases ht : tag with
    | nil => have := length_tag; rw [ht] at this; exact absurd this (by decide)
    | cons a A =>
      have : ctAcc 0 (a :: A) ((a ^^^ k) :: A) ≠ 0 := by
        show ctAcc (0 ||| (a ^^^ (a ^^^ k))) A A ≠ 0
        refine ctAcc_ne_zero ?_ A A
        rw [← BitVec.xor_assoc]
        simpa using hk
      simpa [wrongTag, ht] using this
  unfold compareTag
  simp only [h]
  rfl

/-- The refusals; a right tag and a wrong one, with an accumulator. -/
theorem witness_VerifyRule :
    (verifying tag).macst = some someMac ∧
    ends (execVerify 32 State.reset) 0x20 0x1000 = true ∧
    ends (execVerify 32 (session ctrMode .xform)) 0x21 0x1003 = true ∧
    ends (execVerify 32 (keyedSession hbaEnc .aad)) 0x21 0x112A = true ∧
    ends (execVerify 32 (keyedSession hbaDec .init)) 0x20 0x1169 = true ∧
    ends (execVerify 32 (declare (keyedSession hbaDec .aad) 31)) 0x40 0x116A = true ∧
    ends (execVerify 31 (declare (keyedSession hbaDec .aad) 31)) 0x43 0x116A = true ∧
    (∃ t, exec (.verify 32) (verifying tag) = .next t ∧ t.err = 0x00 ∧ t.ocnt = 1) ∧
    (∃ t, exec (.verify 32) (verifying (wrongTag 1)) = .next t ∧ t.err = 0x30 ∧ t.ocnt = 0) :=
  ⟨rfl, by decide +kernel, by decide +kernel, by decide +kernel, by decide +kernel, by decide +kernel, by decide +kernel,
    ⟨_, verify_rightTag, rfl, rfl⟩, ⟨_, verify_wrongTag (by decide), rfl, rfl⟩⟩
theorem witness_PhaseTransitions :
    (∃ t, exec (.verify 32) (verifying (wrongTag 1)) = .next t ∧ t.err = 0x30) ∧
    (exec (.ldinfo 0) State.reset = .next (afterCommand (.ldinfo 0) State.reset) ∧
      (afterCommand (.ldinfo 0) State.reset).err = 0x00) ∧
    (exec (.xform 0) State.reset = .next (afterCommand (.xform 0) State.reset) ∧
      (afterCommand (.xform 0) State.reset).err = 0x20) :=
  ⟨⟨_, verify_wrongTag (by decide), rfl⟩, ⟨exec_eq_next _ _, by decide⟩, ⟨exec_eq_next _ _, by decide⟩⟩
/-- Two different wrong tags. -/
theorem witness_VerifyRevealsOnlyEquality :
    verifying (wrongTag 2) = { verifying (wrongTag 1) with
      ibuf := (verifying (wrongTag 2)).ibuf, icnt := (verifying (wrongTag 2)).icnt } ∧
    (verifying (wrongTag 2)).icnt = (verifying (wrongTag 1)).icnt ∧
    ∃ t t', exec (.verify 32) (verifying (wrongTag 1)) = .next t ∧ exec (.verify 32) (verifying (wrongTag 2)) = .next t' ∧
      t.err = t'.err := by
  refine ⟨rfl, ?_, _, _, verify_wrongTag (by decide), verify_wrongTag (by decide), rfl⟩
  show BitVec.ofNat 16 (wrongTag 2).length = BitVec.ofNat 16 (wrongTag 1).length
  rw [length_wrongTag, length_wrongTag]
/-- A command other than VERIFY, and a VERIFY that fails. -/
theorem witness_WithheldPlaintextStaysHidden :
    let s := declare (keyedSession hbaDec .aad) 1
    let s' := { s with hold := [(0, 7)] }
    (exec (.xform 1) s = .next (afterCommand (.xform 1) s) ∧ exec (.xform 1) s' = .next (afterCommand (.xform 1) s') ∧
      (∀ len, Instr.xform 1 ≠ .verify len)) ∧
    ∃ t t', exec (.verify 32) (verifying (wrongTag 1)) = .next t ∧
      exec (.verify 32) { verifying (wrongTag 1) with hold := [(0, 8)] } = .next t' ∧ t.err ≠ 0x00 :=
  ⟨⟨exec_eq_next _ _, exec_eq_next _ _, fun _ h => by cases h⟩, _, _, verify_wrongTag (by decide), exec_eq_next _ _,
    by show (0x30 : Byte) ≠ 0; decide⟩

/-! STNONCE, DISPOSE, completion, the whole machine. -/

theorem witness_StnonceRule :
    (session rcsEncLE .final).ctrb.length = (session rcsEncLE .final).cfg.params.nonceCap ∧
    ends (execStnonce State.reset) 0x20 0x1000 = true ∧ ends (execStnonce (session hbaEnc .init)) 0x21 0x1129 = true ∧
    ends (execStnonce (session rcsEncLE .failed)) 0x20 0x1095 = true ∧
    ends (execStnonce (session rcsEncLE .init)) 0x00 0x91 = true := by decide +kernel
theorem witness_DisposeRule :
    (0x0A000001 : Word).extractLsb' 24 8 = 0x0A ∧ (0x0A000001 : Word).extractLsb' 0 24 ≠ 0 ∧
    (0x0A010000 : Word).extractLsb' 24 8 = 0x0A ∧ (0x0A010000 : Word).extractLsb' 0 24 ≠ 0 := by decide

/-- LDKEY, LDNONCE and LDINFO, each at both bounds of its length. -/
theorem witness_EveryCommandCompletesWhenReady_loads :
    let s := fun n => declare State.reset n
    ((s 1).phase = .uninit ∧ (s 1).icnt = 1 ∧ 1 ≤ (1 : BitVec 16).toNat ∧
      (s 64).icnt = 64 ∧ (64 : BitVec 16).toNat ≤ (s 64).cfg.params.keyCap) ∧
    ((s 32).phase = .uninit ∧ (s 32).icnt = 32 ∧ (32 : BitVec 16).toNat ≤ (s 32).cfg.params.nonceCap) ∧
    ((s 0).phase = .uninit ∧ (s 0).icnt = 0 ∧ (0 : BitVec 16).toNat ≤ (s 0).cfg.params.infoCap ∧
      (s 256).icnt = 256 ∧ (256 : BitVec 16).toNat ≤ (s 256).cfg.params.infoCap) := by decide
theorem witness_EveryCommandCompletesWhenReady_init :
    let s := staged 32 16 256
    s.phase = .uninit ∧ (s.cfg.params.variant .hba .class1).supported = true ∧ kdfSupported s.cfg.params .kmac = true ∧
    s.keyn = (s.cfg.params.variant .hba .class1).keyLen ∧ s.nonn = (s.cfg.params.variant .hba .class1).blockLen ∧
    s.infn ≤ (s.cfg.params.variant .hba .class1).infoMax := by decide
/-- SETAAD at AAD_MAX. -/
theorem witness_EveryCommandCompletesWhenReady_setaad :
    let s := declare (keyedSession hbaEnc .init) 256
    s.mode.eng ≠ .ctr ∧ s.phase = .init ∧ s.icnt = 256 ∧ s.macst = some someMac ∧
    s.aadt.toNat + (256 : BitVec 16).toNat ≤ (sessionVariant s).aadMax := by decide
/-- XFORM at OBUF_MAX: the response of a CTR session, and a decrypting HBA session with one byte withheld already. -/
theorem witness_EveryCommandCompletesWhenReady_xform :
    let s := declare (session ctrMode .init) 4096
    let s' := { declare (session hbaDec .aad) 4095 with hcnt := 1, hold := [(0, 7)] }
    (s.mode.eng = .ctr ∧ s.phase = .init ∧ s.icnt = 4096 ∧ (4096 : BitVec 16).toNat ≤ s.cfg.params.obufMax ∧
      s.ctt.toNat + (4096 : BitVec 16).toNat < 2 ^ 64 ∧ s.ctrb.length = s.cfg.params.nonceCap) ∧
    (¬ (s'.mode.eng = .ctr ∨ s'.mode.dir = .encrypt) ∧ s'.phase = .aad ∧ s'.icnt = 4095 ∧
      s'.hcnt.toNat + (4095 : BitVec 16).toNat ≤ s'.cfg.params.obufMax ∧
      s'.ctt.toNat + (4095 : BitVec 16).toNat < 2 ^ 64 ∧ s'.ctrb.length = s'.cfg.params.nonceCap ∧
      Memory.wf s'.hold = true) := by decide
/-- FINAL with an accumulator; STNONCE in phase FINAL. -/
theorem witness_EveryCommandCompletesWhenReady_final_stnonce :
    let s := keyedSession hbaEnc .aad
    let s' := session rcsEncLE .final
    (s.mode.eng ≠ .ctr ∧ s.mode.dir = .encrypt ∧ s.phase = .aad ∧ s.macst = some someMac) ∧
    (s'.mode.eng = .rcs ∧ s'.phase = .final ∧ s'.ctrb.length = s'.cfg.params.nonceCap) := by decide
theorem witness_EveryCommandCompletesWhenReady_verify :
    (verifying tag).mode.eng ≠ .ctr ∧ (verifying tag).mode.dir = .decrypt ∧ (verifying tag).phase = .aad ∧
    (verifying tag).macst = some someMac ∧ (verifying tag).icnt = 32 ∧
    (32 : BitVec 16).toNat = (sessionVariant (verifying tag)).tagLen ∧
    operandBytes (verifying tag) 32 = tagOf engines (verifying tag) someMac := by
  refine ⟨by decide, rfl, rfl, rfl, ?_, rfl, ?_⟩
  · show BitVec.ofNat 16 tag.length = 32
    rw [length_tag]; rfl
  · have h := operand_eq_map (verifying tag)
    rw [operand_verifying length_tag] at h
    have hn : (verifying tag).icnt.toNat = 32 := by
      show (BitVec.ofNat 16 tag.length).toNat = 32
      rw [length_tag]; rfl
    rw [hn] at h
    exact h.symm

theorem witness_StepKeepsMemoriesCanonical :
    let s := { pending (.write 0x10000 1 0) with ibuf := [(0, 7)], obuf := [(0, 1)], hold := [(5, 9)] }
    Memory.wf s.ibuf = true ∧ Memory.wf s.obuf = true ∧ Memory.wf s.hold = true ∧
    ∃ t, step s = .next t := ⟨rfl, rfl, rfl, _, rfl⟩

/-- A live HBA session, its nonce (sixteen zeros) and no associated data absorbed, the word of XFORM pending. -/
def liveHba : State :=
  { keyedSession hbaEnc .aad with
    macst := some ⟨256, zeros 32, engines.cust .hba .class1, zeros 16⟩, hostq := [.write 0 4 0x06000000] }

theorem invariants_liveHba : Invariants liveHba where
  shaped := by
    have hz : ∀ (n k : Nat), ∀ b ∈ (zeros n).drop k, b = 0 := fun n k b hb => mem_zeros (List.mem_of_mem_drop hb)
    exact
      { keyr_len := length_zeros _, nonr_len := length_zeros _, infr_len := length_zeros _, mkey_len := length_zeros _
        ctrb_len := length_zeros _, keyn_le := Nat.zero_le _, nonn_le := Nat.zero_le _, infn_le := Nat.zero_le _
        icnt_le := Nat.zero_le _, ocnt_le := Nat.zero_le _, hcnt_le := Nat.zero_le _, aadt_le := Nat.zero_le _
        keyr_tail := hz _ _, nonr_tail := hz _ _, infr_tail := hz _ _, mkey_tail := hz _ _, ctrb_tail := hz _ _
        ibuf_wf := rfl, obuf_wf := rfl, hold_wf := rfl, ibuf_tail := fun _ _ => rfl, obuf_tail := fun _ _ => rfl
        hold_tail := fun _ _ => rfl }
  sequenced := by
    constructor
    · intro h; cases h
    · intro _
      refine ⟨⟨rfl, rfl, rfl⟩, rfl, ⟨fun h => (by cases h), fun h => (by cases h)⟩, fun m hm => ?_⟩
      cases hm
      exact ⟨rfl, rfl, rfl⟩
    · intro h; cases h
    · intro h; exact absurd rfl h
    · intro m hm _
      cases hm
      rfl
    · intro _ h; cases h
    · intro _; rfl
    · intro h; cases h
    · intro _; rfl
    · intro h; cases h
    · intro h; cases h
    · intro h; cases h
    · intro h; exact absurd rfl h
    · exact List.mem_cons_self

theorem witness_StepKeepsTheInvariants : Invariants liveHba ∧
    step liveHba = .next (afterCommand (.xform 0) { liveHba with hostq := [] }) :=
  ⟨invariants_liveHba, exec_eq_next (.xform 0) { liveHba with hostq := [] }⟩

/-! The round trip: three bytes through an HBA session. -/

def sender : State := supply (keyedSession hbaEnc .aad) [0x10, 0x20, 0x30]
def sent : State := afterCommand (.xform 3) sender
def sentTag : State := afterCommand .final sent
def receiver : State := { sender with mode := hbaDec, ibuf := sent.obuf, icnt := 3 }
def received : State := afterCommand (.xform 3) receiver
def receiverWithTag : State := { received with ibuf := sentTag.obuf, icnt := sentTag.ocnt }

theorem witness_EncryptThenDecryptGivesThePlaintextBack :
    (sender.mode.eng ≠ .ctr ∧ sender.mode.dir = .encrypt ∧ sender.phase = .aad ∧ sender.macst = some someMac ∧
      sender.ctrb.length = sender.cfg.params.nonceCap) ∧
    (receiver.mode = { sender.mode with dir := .decrypt } ∧ receiver.phase = sender.phase ∧ receiver.cfg = sender.cfg ∧
      receiver.ks = sender.ks ∧ receiver.ctrb = sender.ctrb ∧ receiver.macst = sender.macst ∧
      receiver.aadt = sender.aadt ∧ receiver.ctt = sender.ctt ∧ receiver.hcnt = 0 ∧ Memory.wf receiver.hold = true) ∧
    exec (.xform 3) sender = .next sent ∧ sent.err = 0x00 ∧ exec .final sent = .next sentTag ∧ receiver.icnt = 3 ∧
    (∀ j, j < 3 → Memory.read receiver.ibuf j = Memory.read sent.obuf j) ∧
    exec (.xform 3) receiver = .next received ∧
    ∃ tv, exec (.verify sentTag.ocnt) receiverWithTag = .next tv :=
  ⟨⟨by decide, rfl, rfl, rfl, rfl⟩, ⟨rfl, rfl, rfl, rfl, rfl, rfl, rfl, rfl, rfl, rfl⟩, exec_eq_next _ _, rfl,
    exec_eq_next _ _, rfl, fun _ _ => rfl, exec_eq_next _ _, _, exec_eq_next _ _⟩

end Sys2Proof.Tests
end

/-! # The 64-bit length encoding (00_scope.md R12) -/

namespace Sys2Proof.Safety

open Sys2Proof.Machine

/-- A byte string's little-endian number, by its low part and the part above it. -/
theorem leNat_append (A B : Bytes) : leNat (A ++ B) = leNat A + 256 ^ A.length * leNat B := by
  induction A with
  | nil => simp [leNat]
  | cons a A ih =>
    simp only [List.cons_append, leNat, ih, List.length_cons, pow_succ']
    ring

theorem leNat_singleton (b : Byte) : leNat [b] = b.toNat := by simp [leNat]

/-- Byte `i` of a word is its base-256 digit `i`. -/
theorem toNat_extractByte {w : Nat} (v : BitVec w) (i : Nat) :
    (v.extractLsb' (8 * i) 8).toNat = v.toNat / 256 ^ i % 256 := by
  simp [BitVec.extractLsb'_toNat, Nat.shiftRight_eq_div_pow, pow_mul]

/-- The low `n` bytes of a word, least significant first, are the word modulo `256 ^ n`: each further byte is the next
base-256 digit. -/
theorem leNat_lowBytes {w : Nat} (v : BitVec w) (n : Nat) :
    leNat ((List.range n).map fun i => v.extractLsb' (8 * i) 8) = v.toNat % 256 ^ n := by
  induction n with
  | zero => simp [leNat, Nat.mod_one]
  | succ n ih =>
    rw [List.range_succ, List.map_append, leNat_append, ih, List.map_singleton, leNat_singleton, toNat_extractByte,
      List.length_map, List.length_range, pow_succ, Nat.mod_mul]

/-- Eight bytes hold the whole of a 64-bit word. -/
theorem leNat_le64 (v : BitVec 64) : leNat (le64 v) = v.toNat := by
  have hlt : v.toNat < 256 ^ 8 := v.isLt
  rw [le64, leNat_lowBytes, Nat.mod_eq_of_lt hlt]

/-- The bytes of `le64`, by index. -/
theorem getD_le64 (v : BitVec 64) {j : Nat} (hj : j < 8) : (le64 v).getD j 0 = (v >>> (8 * j)).setWidth 8 := by
  rw [le64, getD_map_range, if_pos hj]
  rfl

/-- Settles O48: the length, the number and the bytes of `le64`, each by its own lemma. -/
theorem lengthEncodingIsLittleEndian : Obligations.LengthEncodingIsLittleEndian := fun v =>
  ⟨length_le64 v, leNat_le64 v, fun _ hj => getD_le64 v hj⟩

end Sys2Proof.Safety

/-! # XFORM in one form: what the transform answers, absorbs and delivers (40_ctr_keystream.md R115, 44_commands.md R189) -/

namespace Sys2Proof.Machine

theorem ciphertextOf_append (dir : Direction) (X X' Y Y' : Bytes) :
    ciphertextOf dir X Y ++ ciphertextOf dir X' Y' = ciphertextOf dir (X ++ X') (Y ++ Y') := by
  cases dir <;> rfl

/-- The fused loop is the keystream loop, with all its ciphertext absorbed. -/
theorem rcsBlocks_eq_ctrBlocks (E : Engines) (mode : Mode) (ks : KeySchedule) (bl : Nat) :
    ∀ (k : Nat) (C : Bytes) (st : Option MacState) (X : Bytes), rcsBlocks E mode ks bl k C st X =
      ((ctrBlocks E mode ks bl k C X).1, (ctrBlocks E mode ks bl k C X).2,
        macAbsorb st (ciphertextOf mode.dir (X.take (k * bl)) (ctrBlocks E mode ks bl k C X).1))
  | 0, C, st, X => by cases hd : mode.dir <;> simp [rcsBlocks, ctrBlocks, ciphertextOf]
  | k + 1, C, st, X => by
    have hk : (k + 1) * bl = bl + k * bl := by ring
    simp only [rcsBlocks, ctrBlocks, rcsBlocks_eq_ctrBlocks E mode ks bl k, macAbsorb_append, ciphertextOf_append, hk,
      List.take_add]

/-- The bytes XFORM absorbs into the accumulator: none under CTR, the ciphertext under HBA and RCS (41_hba.md R135, R136;
42_rcs.md R154). -/
def absorbedBytes (E : Engines) (s : State) (X : Bytes) : Bytes :=
  match s.mode.eng with
  | .ctr => []
  | .hba | .rcs => ciphertextOf s.mode.dir X (ctrXor E s X).1

/-- The state between XFORM's transform and the delivery of its output. -/
def afterTransform (E : Engines) (s : State) (X : Bytes) : State :=
  { (ctrXor E s X).2 with macst := macAbsorb s.macst (absorbedBytes E s X) }

theorem rcsXor_eq (E : Engines) {s : State} (X : Bytes) (h : s.mode.eng = .rcs) :
    rcsXor E s X = ((ctrXor E s X).1, afterTransform E s X) := by
  have hX : X.take (blockCount X.length (blockLen s) * blockLen s) = X :=
    List.take_of_length_le (le_blockCount_mul _ (blockLen_pos s))
  simp only [rcsXor, afterTransform, absorbedBytes, h, rcsBlocks_eq_ctrBlocks, hX]
  rfl

/-- A session whose output is no response is a decrypting HBA or RCS session (44_commands.md R189). -/
theorem decrypting_of_not_responding {m : Mode} (h : ¬ (m.eng = .ctr ∨ m.dir = .encrypt)) :
    m.eng ≠ .ctr ∧ m.dir = .decrypt := by
  rw [not_or] at h
  cases hd : m.dir with
  | encrypt => exact absurd hd h.2
  | decrypt => exact ⟨h.1, rfl⟩

/-- XFORM of a CTR or an encrypting session: the output is the response. -/
theorem xformEffect_eq_respond (E : Engines) (len : BitVec 16) {s : State} (X : Bytes)
    (h : s.mode.eng = .ctr ∨ s.mode.dir = .encrypt) :
    xformEffect E len s X = countTransformed len (respond (afterTransform E s X) (ctrXor E s X).1) := by
  unfold xformEffect
  split
  · next he => simp only [xformCtr, afterTransform, absorbedBytes, he, macAbsorb_empty]; rfl
  · next he hd => simp only [xformHbaEncrypt, afterTransform, absorbedBytes, he, hd]; rfl
  · next he hd => simp [he, hd] at h
  · next he =>
    have hd : s.mode.dir = .encrypt := h.resolve_left (by simp [he])
    simp only [xformRcs, hd, rcsXor_eq E X he]

/-- XFORM of a decrypting HBA or RCS session: the output is withheld. -/
theorem xformEffect_eq_withhold (E : Engines) (len : BitVec 16) {s : State} (X : Bytes) (he : s.mode.eng ≠ .ctr)
    (hd : s.mode.dir = .decrypt) :
    xformEffect E len s X = countTransformed len (withhold (afterTransform E s X) (ctrXor E s X).1) := by
  unfold xformEffect
  split
  · next h => exact absurd h he
  · next h => rw [hd] at h; cases h
  · next h _ => simp only [xformHbaDecrypt, afterTransform, absorbedBytes, h, hd]; rfl
  · next h => simp only [xformRcs, hd, rcsXor_eq E X h]

theorem length_absorbedBytes (E : Engines) {s : State} (X : Bytes) (hc : s.ctrb.length = s.cfg.params.nonceCap)
    (he : s.mode.eng ≠ .ctr) : (absorbedBytes E s X).length = X.length := by
  have hY : (ctrXor E s X).1.length = X.length := length_ctrXor E X hc
  unfold absorbedBytes ciphertextOf
  split
  · next h => exact absurd h he
  all_goals split <;> first | exact hY | rfl

end Sys2Proof.Machine

/-! # The shape of the registers, part by part (10_state.md R40 item 5) -/

namespace Sys2Proof.Safety

open Sys2Proof.Machine

/-- An array register of `cap` bytes with `n` bytes in use and zeros after them. -/
structure FilledArray (cap : Nat) (A : Bytes) (n : Nat) : Prop where
  length : A.length = cap
  le : n ≤ cap
  tail : ∀ b ∈ A.drop n, b = 0

/-- A byte array of at most `cap` bytes with `n` bytes in use and zeros after them, in canonical form. -/
structure FilledMemory (cap : Nat) (M : Memory) (n : Nat) : Prop where
  le : n ≤ cap
  wf : Memory.wf M = true
  tail : ∀ a, n ≤ a → Memory.read M a = 0

theorem FilledArray.zeros {cap n : Nat} (h : n ≤ cap) : FilledArray cap (zeros cap) n :=
  ⟨length_zeros cap, h, fun _ hb => mem_zeros (List.mem_of_mem_drop hb)⟩

theorem FilledArray.fillArray {cap n : Nat} {S : Bytes} (hS : S.length = n) (h : n ≤ cap) :
    FilledArray cap (fillArray cap S) n := by
  subst hS
  refine ⟨length_fillArray h, h, fun b hb => ?_⟩
  rw [drop_fillArray] at hb
  exact mem_zeros hb

/-- Writing the bytes in use keeps the zeros after them. -/
theorem FilledArray.overwrite {cap n : Nat} {A C : Bytes} (h : FilledArray cap A n) (hC : C.length = n) :
    FilledArray cap (C ++ A.drop n) n := by
  subst hC
  have hl := h.length
  have hle := h.le
  exact ⟨by simp; omega, h.le, by simpa using h.tail⟩

theorem FilledArray.length_take {cap n : Nat} {A : Bytes} (h : FilledArray cap A n) : (A.take n).length = n := by
  rw [List.length_take, h.length, Nat.min_eq_left h.le]

theorem FilledMemory.empty {cap n : Nat} (h : n ≤ cap) : FilledMemory cap [] n := ⟨h, rfl, fun _ _ => rfl⟩

/-- Appending `B` to the bytes in use. -/
theorem FilledMemory.append {cap n : Nat} {M : Memory} {B : Bytes} (h : FilledMemory cap M n) (hB : n + B.length ≤ cap) :
    FilledMemory cap (Memory.writeBytes M n B) (n + B.length) := by
  refine ⟨hB, Memory.wf_writeBytes B n h.wf, fun a ha => ?_⟩
  rw [Memory.read_writeBytes B n a h.wf, if_neg (by omega), h.tail a (by omega)]

/-- Writing one byte inside the bytes in use. -/
theorem FilledMemory.write {cap n : Nat} {M : Memory} {i : Nat} (h : FilledMemory cap M n) (hi : i < n) (b : Byte) :
    FilledMemory cap (Memory.write M i b) n := by
  refine ⟨h.le, Memory.wf_write i b h.wf, fun a ha => ?_⟩
  rw [Memory.read_write_other b (by omega) h.wf, h.tail a ha]

/-- `Shaped`, register by register. -/
structure Filled (s : State) : Prop where
  keyr : FilledArray s.cfg.params.keyCap s.keyr s.keyn
  nonr : FilledArray s.cfg.params.nonceCap s.nonr s.nonn
  infr : FilledArray s.cfg.params.infoCap s.infr s.infn
  mkey : FilledArray mkeyCap s.mkey (sessionVariant s).mkeyLen
  ctrb : FilledArray s.cfg.params.nonceCap s.ctrb (blockLen s)
  aadt : s.aadt.toNat ≤ (sessionVariant s).aadMax
  icnt : s.icnt.toNat ≤ s.cfg.params.ibufMax
  ibuf : FilledMemory s.cfg.params.ibufMax s.ibuf s.cfg.params.ibufMax
  obuf : FilledMemory s.cfg.params.obufMax s.obuf s.ocnt.toNat
  hold : FilledMemory s.cfg.params.obufMax s.hold s.hcnt.toNat

theorem shaped_iff_filled (s : State) : Shaped s ↔ Filled s where
  mp h :=
    { keyr := ⟨h.keyr_len, h.keyn_le, h.keyr_tail⟩
      nonr := ⟨h.nonr_len, h.nonn_le, h.nonr_tail⟩
      infr := ⟨h.infr_len, h.infn_le, h.infr_tail⟩
      mkey := ⟨h.mkey_len, s.cfg.legal.mkeyLen_le _ _, h.mkey_tail⟩
      ctrb := ⟨h.ctrb_len, blockLen_le_nonceCap s, h.ctrb_tail⟩
      aadt := h.aadt_le
      icnt := h.icnt_le
      ibuf := ⟨le_rfl, h.ibuf_wf, h.ibuf_tail⟩
      obuf := ⟨h.ocnt_le, h.obuf_wf, h.obuf_tail⟩
      hold := ⟨h.hcnt_le, h.hold_wf, h.hold_tail⟩ }
  mpr h :=
    { keyr_len := h.keyr.length, nonr_len := h.nonr.length, infr_len := h.infr.length, mkey_len := h.mkey.length
      ctrb_len := h.ctrb.length, keyn_le := h.keyr.le, nonn_le := h.nonr.le, infn_le := h.infr.le
      icnt_le := h.icnt, ocnt_le := h.obuf.le, hcnt_le := h.hold.le, aadt_le := h.aadt
      keyr_tail := h.keyr.tail, nonr_tail := h.nonr.tail, infr_tail := h.infr.tail, mkey_tail := h.mkey.tail
      ctrb_tail := h.ctrb.tail, ibuf_wf := h.ibuf.wf, obuf_wf := h.obuf.wf, hold_wf := h.hold.wf
      ibuf_tail := h.ibuf.tail, obuf_tail := h.obuf.tail, hold_tail := h.hold.tail }

/-! ### What the shared operations keep of it -/

section
variable {s : State}

theorem Filled.clearBuffers (h : Filled s) : Filled (clearBuffers s) :=
  { h with icnt := Nat.zero_le _, ibuf := .empty le_rfl, obuf := .empty (Nat.zero_le _) }

theorem Filled.takeError (h : Filled s) (c : ErrCode) : Filled (takeError c s) := { h with }

theorem Filled.zeroRegisters (s : State) : Filled (zeroRegisters s) where
  keyr := .zeros (Nat.zero_le _)
  nonr := .zeros (Nat.zero_le _)
  infr := .zeros (Nat.zero_le _)
  mkey := .zeros (s.cfg.legal.mkeyLen_le _ _)
  ctrb := .zeros (blockLen_le_nonceCap (Machine.zeroRegisters s))
  aadt := Nat.zero_le _
  icnt := Nat.zero_le _
  ibuf := .empty le_rfl
  obuf := .empty (Nat.zero_le _)
  hold := .empty (Nat.zero_le _)

theorem toNat_ofNat_of_le_obufMax {n : Nat} (h : n ≤ s.cfg.params.obufMax) : (BitVec.ofNat 16 n).toNat = n := by
  have := s.cfg.legal.obufMax_le
  rw [BitVec.toNat_ofNat]
  exact Nat.mod_eq_of_lt (by omega)

/-- A response that fits, from cleared buffers. -/
theorem Filled.respond (h : Filled s) (hob : s.obuf = []) {B : Bytes} (hB : B.length ≤ s.cfg.params.obufMax) :
    Filled (respond s B) :=
  { h with
    obuf := by
      have hfill := (FilledMemory.empty (Nat.zero_le s.cfg.params.obufMax)).append (B := B) (by omega)
      rw [respond_obuf, respond_ocnt, respond_cfg, toNat_ofNat_of_le_obufMax hB, hob]
      simpa using hfill }

/-- The new HCNT does not wrap when the bytes fit in HOLD. -/
theorem toNat_withhold_hcnt {B : Bytes} (hB : s.hcnt.toNat + B.length ≤ s.cfg.params.obufMax) :
    (withhold s B).hcnt.toNat = s.hcnt.toNat + B.length := by
  have := s.cfg.legal.obufMax_le
  rw [withhold_hcnt, BitVec.toNat_add, toNat_ofNat_of_le_obufMax (s := s) (by omega)]
  exact Nat.mod_eq_of_lt (by omega)

theorem Filled.withhold (h : Filled s) {B : Bytes} (hB : s.hcnt.toNat + B.length ≤ s.cfg.params.obufMax) :
    Filled (withhold s B) :=
  { h with hold := by rw [toNat_withhold_hcnt hB]; exact h.hold.append hB }

/-- The transform keeps CTRB's size and the zeros after the counter block. -/
theorem Filled.afterTransform (h : Filled s) (E : Engines) (X : Bytes) : Filled (afterTransform E s X) :=
  { h with
    ctrb := h.ctrb.overwrite (by
      rw [ctrBlocks_counter, length_iterate_incCounter]; exact length_counterBlock h.ctrb.length) }

/-- The session's MAC key has MKEYLEN bytes; under CTR that is none. -/
theorem length_sessionMacKey (E : Engines) (c : Config) (m : Mode) (key info : Bytes) :
    (sessionMacKey E m (c.params.variant m.eng m.cls) key info).length = (c.params.variant m.eng m.cls).mkeyLen := by
  unfold sessionMacKey
  split
  · next he => rw [he, (c.legal.ctr_zero m.cls).2.1]; rfl
  · exact length_kdfBytes ..
  · exact length_rcsMacKey ..

theorem Filled.startSession (h : Filled s) (E : Engines) (m : Mode)
    (hn : s.nonn = (s.cfg.params.variant m.eng m.cls).blockLen) : Filled (startSession E m s) :=
  { h with
    keyr := .zeros (Nat.zero_le _)
    nonr := .zeros (Nat.zero_le _)
    infr := .zeros (Nat.zero_le _)
    mkey := .fillArray (length_sessionMacKey E s.cfg m _ _) (s.cfg.legal.mkeyLen_le _ _)
    ctrb := .fillArray (h.nonr.length_take.trans hn) (blockLen_le_nonceCap (Machine.startSession E m s))
    aadt := Nat.zero_le _
    hold := .empty (Nat.zero_le _) }

end

end Sys2Proof.Safety

/-! # The sequencing of a session (10_state.md R40 items 2 to 4, 6 to 8) -/

namespace Sys2Proof.Machine

/-! ### What admission asks of a command (44_commands.md R181) -/

section
variable {s : State}

theorem admitSession_eq_none {i : Instr} : admitSession i s = none ↔
    s.phase ≠ .uninit ∧ sessionAllows i s.mode = true ∧ phaseAllows i s.mode.eng s.phase = true := by
  unfold admitSession
  by_cases hp : s.phase = .uninit <;> simp [hp]
  cases sessionAllows i s.mode <;> simp

theorem admission_setaad {len : BitVec 16} : admission (.setaad len) s = none ↔
    s.mode.eng ≠ .ctr ∧ (s.phase = .init ∨ s.phase = .aad) := by
  rw [admission, admitSession_eq_none]
  simp only [sessionAllows, phaseAllows, bne_iff_ne, Bool.or_eq_true, beq_iff_eq]
  constructor
  · rintro ⟨-, h⟩; exact h
  · rintro ⟨he, hp⟩; exact ⟨by rcases hp with hp | hp <;> simp [hp], he, hp⟩

theorem admission_xform {len : BitVec 16} : admission (.xform len) s = none ↔
    (s.mode.eng = .ctr ∧ s.phase = .init) ∨ (s.mode.eng ≠ .ctr ∧ s.phase = .aad) ∨ s.phase = .xform := by
  rw [admission, admitSession_eq_none]
  cases he : s.mode.eng <;> cases hp : s.phase <;> simp [sessionAllows, phaseAllows]

theorem admission_final : admission .final s = none ↔
    s.mode.eng ≠ .ctr ∧ s.mode.dir = .encrypt ∧ (s.phase = .aad ∨ s.phase = .xform) := by
  rw [admission, admitSession_eq_none]
  cases hp : s.phase <;> simp [sessionAllows, phaseAllows]

theorem admission_verify {len : BitVec 16} : admission (.verify len) s = none ↔
    s.mode.eng ≠ .ctr ∧ s.mode.dir = .decrypt ∧ (s.phase = .aad ∨ s.phase = .xform) := by
  rw [admission, admitSession_eq_none]
  cases hp : s.phase <;> simp [sessionAllows, phaseAllows]

end

/-- INIT's checks passed (44_commands.md R187). -/
theorem initChecks_eq_none {m : Mode} {s : State} (h : firstRaise (initChecks m s) = none) :
    (s.cfg.params.variant m.eng m.cls).supported = true ∧ s.nonn = (s.cfg.params.variant m.eng m.cls).blockLen := by
  rw [firstRaise_initChecks] at h
  split at h; · cases h
  next hs =>
  split at h; · cases h
  split at h; · cases h
  split at h; · cases h
  next hn => exact ⟨by simpa using hs, by simpa using hn⟩

/-- A bound on LEN and the operand's length, both met: the checks of SETAAD and of the three loads (44_commands.md R184 to
R186, R188). -/
theorem boundChecks_eq_none {p : Prop} [Decidable p] {c : ErrCode} {len : BitVec 16} {X : Bytes}
    (h : firstRaise [(decide p, c), operandCheck X len] = none) : ¬ p ∧ X.length = len.toNat := by
  rw [firstRaise_decide, firstRaise_operandCheck, firstRaise_nil] at h
  split at h; · cases h
  next hp =>
  split at h; · cases h
  next hl => exact ⟨hp, not_not.1 hl⟩

/-- XFORM's checks passed (44_commands.md R189). -/
theorem xformChecks_eq_none {len : BitVec 16} {s : State} {X : Bytes} (h : firstRaise (xformChecks len s X) = none) :
    X.length = len.toNat ∧
    ((s.mode.eng = .ctr ∨ s.mode.dir = .encrypt) → len.toNat ≤ s.cfg.params.obufMax) ∧
    (s.mode.eng ≠ .ctr → s.mode.dir = .decrypt → s.hcnt.toNat + len.toNat ≤ s.cfg.params.obufMax) ∧
    s.ctt.toNat + len.toNat < 2 ^ 64 := by
  rw [firstRaise_xformChecks] at h
  split at h; · cases h
  next h1 =>
  split at h; · cases h
  next h2 =>
  split at h; · cases h
  next h3 =>
  split at h; · cases h
  next h4 =>
  exact ⟨by omega, fun hd => Nat.le_of_not_lt fun hlt => h2 ⟨hd, hlt⟩,
    fun he hd => Nat.le_of_not_lt fun hlt => h3 ⟨he, hd, hlt⟩, by omega⟩

/-- A total that stays below 2^64 does not wrap. -/
theorem toNat_add_len64 {v : BitVec 64} {len : BitVec 16} (h : v.toNat + len.toNat < 2 ^ 64) :
    (v + len64 len).toNat = v.toNat + len.toNat := by
  have hl : (len64 len).toNat = len.toNat := by
    rw [len64, BitVec.toNat_setWidth]
    exact Nat.mod_eq_of_lt (by omega)
  rw [BitVec.toNat_add, hl, Nat.mod_eq_of_lt h]

/-- INIT's MOD field decodes to a legal INIT (30_encoding.md R93). -/
theorem wellFormed_of_decodeInit {md : Byte} {i : Instr} (h : decodeInit md = .ok i) : WellFormed i := by
  unfold decodeInit at h
  split at h; · cases h
  split at h; · cases h
  next eng _ =>
  split at h; · cases h
  next hk =>
  cases h
  generalize md.getLsbD 5 = k at hk ⊢
  cases k with
  | false => simp [WellFormed, wellFormed, kdfOfBit]
  | true => simpa [WellFormed, wellFormed, kdfOfBit] using hk

/-- A command the decoder answers is a legal one: only INIT has a side condition. -/
theorem wellFormed_of_decodeWord {cw : Word} {i : Instr} (h : decodeWord cw = .ok i) : WellFormed i := by
  cases i with
  | init =>
    unfold decodeWord at h
    simp only [ite_eq_iff, reduceCtorEq, and_false, or_false, false_or, Except.ok.injEq] at h
    obtain ⟨-, -, hinit⟩ := h
    exact wellFormed_of_decodeInit hinit
  | _ => rfl

/-- KDF is 1 under HBA only (30_encoding.md R93). -/
theorem kdf_of_wellFormed_init {eng : Engine} {cls : KeyClass} {dir : Direction} {ce : CounterOrder} {kdf : KdfStrategy}
    (h : WellFormed (.init eng cls dir ce kdf)) (he : eng ≠ .hba) : kdf = .hkdf := by
  cases kdf with
  | hkdf => rfl
  | kmac => exact absurd (of_decide_eq_true h rfl) he

end Sys2Proof.Machine

namespace Sys2Proof.Safety

open Sys2Proof.Machine

section
variable {s : State}

theorem errByte_mem_allCodes (c : ErrCode) : errByte c ∈ allCodes := by cases c <;> decide

/-! ### What the shared operations keep of it -/

/-- Sequencing does not look at the two buffers, the host's accesses or what it has read. -/
theorem Sequenced.buffers (h : Sequenced s) (I O : Memory) (i o : BitVec 16) (q : List HostAccess) (v : Word) :
    Sequenced { s with ibuf := I, icnt := i, obuf := O, ocnt := o, hostq := q, rdata := v } :=
  { h with uninit := fun hp => { h.uninit hp with }, live := fun hp => { h.live hp with } }

theorem Sequenced.clearBuffers (h : Sequenced s) : Sequenced (clearBuffers s) := h.buffers ..

theorem Sequenced.takeError (h : Sequenced s) (c : ErrCode) : Sequenced (takeError c s) :=
  { h with
    uninit := fun hp => { h.uninit hp with }
    live := fun hp => { h.live hp with }
    failed := fun hp => by
      obtain ⟨hd, hc, ha, -⟩ := h.failed hp
      exact ⟨hd, hc, ha, rfl⟩
    sticky := fun _ => rfl
    code := errByte_mem_allCodes c }

theorem Sequenced.finishCommand_done (h : Sequenced s) : Sequenced (finishCommand (.done s)) :=
  { h with
    uninit := fun hp => { h.uninit hp with }
    live := fun hp => { h.live hp with }
    sticky := fun he => absurd rfl he
    code := List.mem_cons_self }

theorem Sequenced.respond (h : Sequenced s) (B : Bytes) : Sequenced (respond s B) := h.buffers ..

theorem Sequenced.zeroRegisters (s : State) : Sequenced (zeroRegisters s) where
  uninit _ :=
    { mode := rfl, ks := rfl, mkey := fun _ => mem_zeros, ctrb := fun _ => mem_zeros, macst := rfl, aadt := rfl, ctt := rfl
      hold := fun _ => rfl, hcnt := rfl, authok := rfl }
  live hp := absurd rfl hp
  ctr _ := ⟨.inl rfl, rfl, rfl, rfl⟩
  kdf _ := rfl
  transcript := nofun
  withheld he := absurd rfl he
  nothing_withheld _ := rfl
  init := nofun
  aad := nofun
  final := nofun
  authok := nofun
  failed := nofun
  sticky he := absurd rfl he
  code := List.mem_cons_self

/-! ### The accumulator of a live session -/

theorem macAbsorb_eq_none (st : Option MacState) (A : Bytes) : macAbsorb st A = none ↔ st = none := by
  cases st <;> simp [macAbsorb]

theorem macAbsorb_eq_some {st : Option MacState} {A : Bytes} {m : MacState} (h : macAbsorb st A = some m) :
    ∃ m₀, st = some m₀ ∧ m = macUpdate m₀ A := by
  cases st with
  | none => cases h
  | some m₀ => exact ⟨m₀, rfl, (Option.some.inj h).symm⟩

/-- Absorbing keeps the accumulator the session's own. -/
theorem LiveSession.absorb (h : LiveSession s) (A : Bytes) : LiveSession { s with macst := macAbsorb s.macst A } :=
  { h with
    mac0_iff := (macAbsorb_eq_none _ _).trans h.mac0_iff
    keyed := fun m hm => by
      obtain ⟨m₀, hm₀, rfl⟩ := macAbsorb_eq_some hm
      exact h.keyed m₀ hm₀ }

end

end Sys2Proof.Safety

/-! # Every step keeps the invariants (10_state.md R40) -/

namespace Sys2Proof.Safety

open Sys2Proof.Machine

/-! ### The accumulator INIT primes (41_hba.md R131, 42_rcs.md R151) -/

theorem primedMac_eq_none (E : Engines) (m : Mode) (v : VariantParams) (mk nonce : Bytes) :
    primedMac E m v mk nonce = none ↔ m.eng = .ctr := by
  unfold primedMac
  split <;> simp [*]

theorem primedMac_eq_some {E : Engines} {m : Mode} {v : VariantParams} {mk nonce : Bytes} {a : MacState}
    (h : primedMac E m v mk nonce = some a) : a = macUpdate (macInit v.rc mk (E.cust m.eng m.cls)) nonce := by
  unfold primedMac at h
  split at h
  · cases h
  all_goals exact (Option.some.inj h).symm

section
variable {s : State}

/-- The session's MAC key is the one INIT derived. -/
theorem macKey_startSession (E : Engines) (m : Mode) (s : State) :
    macKey (startSession E m s) =
      sessionMacKey E m (s.cfg.params.variant m.eng m.cls) (stagedKey s) (stagedInfo s) := by
  have hl := length_sessionMacKey E s.cfg m (stagedKey s) (stagedInfo s)
  show (fillArray mkeyCap _).take (s.cfg.params.variant m.eng m.cls).mkeyLen = _
  rw [← hl, take_fillArray]

/-! ### Sequencing through each effect -/

theorem Sequenced.startSession (h : Sequenced s) (hf : Filled s) {m : Mode} (hw : m.eng ≠ .hba → m.kdf = .hkdf)
    (hs : (s.cfg.params.variant m.eng m.cls).supported = true)
    (hn : s.nonn = (s.cfg.params.variant m.eng m.cls).blockLen) : Sequenced (startSession engines m s) where
  uninit := nofun
  live _ :=
    { counts := ⟨rfl, rfl, rfl⟩
      supported := hs
      mac0_iff := primedMac_eq_none ..
      keyed := fun a ha => by
        obtain rfl := primedMac_eq_some ha
        exact ⟨rfl, (macKey_startSession ..).symm, rfl⟩ }
  ctr _ := ⟨.inr (.inl rfl), rfl, rfl, rfl⟩
  kdf := hw
  transcript a ha _ := by
    obtain rfl := primedMac_eq_some ha
    exact hf.nonr.length_take.trans hn
  withheld _ _ _ := rfl
  nothing_withheld _ := rfl
  init _ := ⟨rfl, rfl⟩
  aad := nofun
  final := nofun
  authok := nofun
  failed := nofun
  sticky := h.sticky
  code := h.code

theorem Sequenced.absorbAad (h : Sequenced s) {len : BitVec 16} {A : Bytes} (he : s.mode.eng ≠ .ctr)
    (hp : s.phase = .init ∨ s.phase = .aad) (hlen : A.length = len.toNat)
    (hmax : s.aadt.toNat + len.toNat < 2 ^ 64) : Sequenced (absorbAad len A s) :=
  { h with
    uninit := nofun
    live := fun _ => { (h.live (by rintro hu; simp [hu] at hp)).absorb A with }
    ctr := fun hc => absurd hc he
    transcript := fun m hm _ => by
      obtain ⟨m₀, hm₀, rfl⟩ := macAbsorb_eq_some hm
      have hmsg := h.transcript m₀ hm₀ (hp.imp_right .inl)
      show (m₀.msg ++ A).length = blockLen s + (s.aadt + len64 len).toNat + s.ctt.toNat
      rw [List.length_append, hmsg, hlen, toNat_add_len64 hmax]
      omega
    withheld := fun he hd _ => h.withheld he hd (hp.imp_right .inl)
    init := nofun
    aad := fun _ => hp.elim (fun hp => (h.init hp).2) h.aad
    final := nofun
    authok := fun ha => absurd (h.authok ha).1 (by rintro hu; simp [hu] at hp)
    failed := nofun }

/-- A transform: `A` absorbed, LEN bytes counted, `n` the new HCNT. -/
theorem Sequenced.transform (h : Sequenced s) {len : BitVec 16} {A C : Bytes} {n k : BitVec 16} {M O : Memory}
    (hp : (s.mode.eng = .ctr ∧ s.phase = .init) ∨ (s.mode.eng ≠ .ctr ∧ s.phase = .aad) ∨ s.phase = .xform)
    (hlen : s.mode.eng ≠ .ctr → A.length = len.toNat) (hmax : s.ctt.toNat + len.toNat < 2 ^ 64)
    (hkeep : s.mode.eng = .ctr ∨ s.mode.dir = .encrypt → n = s.hcnt)
    (hgrow : s.mode.eng ≠ .ctr → s.mode.dir = .decrypt → n.toNat = s.hcnt.toNat + len.toNat) :
    Sequenced { s with
      macst := macAbsorb s.macst A, ctrb := C, hold := M, hcnt := n, obuf := O, ocnt := k
      ctt := s.ctt + len64 len, phase := .xform } :=
  have hrun : s.phase = .init ∨ s.phase = .aad ∨ s.phase = .xform := by tauto
  have hlive : LiveSession s := h.live (by rintro hu; simp [hu] at hp)
  { h with
    uninit := nofun
    live := fun _ => { hlive.absorb A with }
    ctr := fun he => by
      obtain ⟨-, ha, hc, hk⟩ := h.ctr he
      exact ⟨.inr (.inr rfl), ha, (hkeep (.inl he)).trans hc, hk⟩
    transcript := fun m hm _ => by
      obtain ⟨m₀, hm₀, rfl⟩ := macAbsorb_eq_some hm
      have he : s.mode.eng ≠ .ctr := fun he => by simp [hlive.mac0_iff.2 he] at hm₀
      have hmsg := h.transcript m₀ hm₀ hrun
      show (m₀.msg ++ A).length = blockLen s + s.aadt.toNat + (s.ctt + len64 len).toNat
      rw [List.length_append, hmsg, hlen he, toNat_add_len64 hmax]
      omega
    withheld := fun he hd _ => by
      show n.toNat = (s.ctt + len64 len).toNat
      rw [hgrow he hd, h.withheld he hd hrun, toNat_add_len64 hmax]
    nothing_withheld := fun hd => (hkeep (.inr hd)).trans (h.nothing_withheld hd)
    init := nofun
    aad := nofun
    final := nofun
    authok := fun ha => absurd (h.authok ha).1 (by rintro hu; simp [hu] at hp)
    failed := nofun }

/-- The end of an authenticated session, in phase FINAL or FAILED: the length block absorbed, `n` = 0 bytes withheld. -/
theorem Sequenced.close (h : Sequenced s) (he : s.mode.eng ≠ .ctr) (hp : s.phase = .aad ∨ s.phase = .xform) {p : Phase}
    {n k : BitVec 16} {M O : Memory} {b sticky : Bool} {code : Byte} (hend : p = .final ∨ p = .failed) (hn : n = 0)
    (hb : b = true → p = .final ∧ s.mode.dir = .decrypt)
    (hfail : p = .failed → s.mode.dir = .decrypt ∧ sticky = true) (hsticky : code ≠ 0 → sticky = true)
    (hcode : code ∈ allCodes) :
    Sequenced { s with
      macst := macAbsorb s.macst (lengthBlock s), hold := M, hcnt := n, obuf := O, ocnt := k
      phase := p, authok := b, err := code, esticky := sticky } :=
  have hrun : ¬ (p = .init ∨ p = .aad ∨ p = .xform) := by rcases hend with rfl | rfl <;> simp
  { h with
    uninit := fun hu => by rcases hend with rfl | rfl <;> cases hu
    live := fun _ => { (h.live (by rintro hu; simp [hu] at hp)).absorb (lengthBlock s) with }
    ctr := fun hc => absurd hc he
    transcript := fun _ _ hr => absurd hr hrun
    withheld := fun _ _ hr => absurd hr hrun
    nothing_withheld := fun _ => hn
    init := fun hi => absurd (.inl hi) hrun
    aad := fun ha => absurd (.inr (.inl ha)) hrun
    final := fun _ => hn
    authok := hb
    failed := fun hf => by
      obtain ⟨hd, hs⟩ := hfail hf
      refine ⟨hd, hn, ?_, hs⟩
      by_contra hb'
      cases hf.symm.trans (hb (by simpa using hb')).1
    sticky := hsticky
    code := hcode }

theorem Sequenced.produceTag (h : Sequenced s) (E : Engines) (he : s.mode.eng ≠ .ctr) (hd : s.mode.dir = .encrypt)
    (hp : s.phase = .aad ∨ s.phase = .xform) : Sequenced (produceTag E s) :=
  h.close he hp (.inl rfl) (h.nothing_withheld hd) (fun ha => ⟨rfl, (h.authok ha).2⟩) nofun h.sticky h.code

/-- VERIFY's tags-equal outcome (43_tag_compare.md R174). -/
theorem Sequenced.releasePlaintext (h : Sequenced s) (E : Engines) (he : s.mode.eng ≠ .ctr) (hd : s.mode.dir = .decrypt)
    (hp : s.phase = .aad ∨ s.phase = .xform) : Sequenced (releasePlaintext (tagCompute E s).2) :=
  h.close he hp (.inl rfl) rfl (fun _ => ⟨rfl, hd⟩) nofun h.sticky h.code

/-- VERIFY's tags-unequal outcome (43_tag_compare.md R175): the poisoned session, with the code and ESTICKY the frame
sets. -/
theorem Sequenced.poisonSession (h : Sequenced s) (E : Engines) (he : s.mode.eng ≠ .ctr) (hd : s.mode.dir = .decrypt)
    (hp : s.phase = .aad ∨ s.phase = .xform) :
    Sequenced (Machine.takeError .authFail (poisonSession (tagCompute E s).2)) :=
  h.close he hp (.inr rfl) rfl (fun ha => by simp [(h.authok ha).1] at hp) (fun _ => ⟨hd, rfl⟩) (fun _ => rfl)
    (errByte_mem_allCodes .authFail)

/-! ### Filled registers through the ends of a session -/

theorem Filled.produceTag (h : Filled s) (E : Engines) (hob : s.obuf = []) : Filled (produceTag E s) :=
  have hafter : Filled (tagCompute E s).2 := { h with }
  { hafter.respond hob (B := (tagCompute E s).1) (by rw [length_tagCompute]; exact s.cfg.legal.tagLen_le_obuf _ _) with }

theorem Filled.releasePlaintext (h : Filled s) (hob : s.obuf = []) : Filled (releasePlaintext s) :=
  { h with
    obuf := by
      have hfill := (FilledMemory.empty (Nat.zero_le s.cfg.params.obufMax)).append
        (B := Memory.readBytes s.hold 0 s.hcnt.toNat) (by simpa using h.hold.le)
      rw [Memory.length_readBytes, Nat.zero_add] at hfill
      show FilledMemory _ (Memory.writeBytes s.obuf 0 _) s.hcnt.toNat
      rw [hob]
      exact hfill
    hold := .empty (Nat.zero_le _) }

theorem Filled.poisonSession (h : Filled s) : Filled (poisonSession s) := { h with hold := .empty (Nat.zero_le _) }

/-! ### Each command -/

theorem Invariants.filled (h : Invariants s) : Filled s := (shaped_iff_filled s).1 h.shaped

theorem Filled.invariants (h : Filled s) (hs : Sequenced s) : Invariants s := ⟨(shaped_iff_filled s).2 h, hs⟩

theorem Invariants.finishCommand_done (h : Invariants s) : Invariants (finishCommand (.done s)) :=
  Filled.invariants { h.filled with } h.sequenced.finishCommand_done

theorem Invariants.zeroRegisters (s : State) : Invariants (zeroRegisters s) :=
  (Filled.zeroRegisters s).invariants (.zeroRegisters s)

/-- A failed command, an illegal word among them (60_exceptions.md R226). -/
theorem Invariants.refuse (h : Invariants s) (c : ErrCode) : Invariants (Machine.takeError c (clearBuffers s)) :=
  (h.filled.clearBuffers.takeError c).invariants (h.sequenced.clearBuffers.takeError c)

/-- Sequencing in phase UNINIT does not look at the staging registers. -/
theorem Sequenced.stage (h : Sequenced s) (hp : s.phase = .uninit) (K N F : Bytes) (k n f : Nat) :
    Sequenced { s with keyr := K, keyn := k, nonr := N, nonn := n, infr := F, infn := f } :=
  { h with uninit := fun _ => { h.uninit hp with }, live := fun hl => absurd hp hl }

theorem Invariants.absorbAad {len : BitVec 16} {X : Bytes} (h : Invariants s) (ha : admission (.setaad len) s = none)
    (hc : firstRaise (checksOf (.setaad len) s X) = none) : Invariants (absorbAad len X s) := by
  obtain ⟨he, hp⟩ := admission_setaad.1 ha
  obtain ⟨hmax, hlen⟩ := boundChecks_eq_none hc
  rw [not_lt] at hmax
  have hlt : s.aadt.toNat + len.toNat < 2 ^ 64 := hmax.trans_lt (s.cfg.legal.aadMax_lt _ _)
  refine Filled.invariants { h.filled with aadt := ?_ } (h.sequenced.absorbAad he hp hlen hlt)
  show (s.aadt + len64 len).toNat ≤ _
  rw [toNat_add_len64 hlt]
  exact hmax

theorem Invariants.xformEffect {len : BitVec 16} {X : Bytes} (h : Invariants s) (hob : s.obuf = [])
    (ha : admission (.xform len) s = none) (hc : firstRaise (checksOf (.xform len) s X) = none) :
    Invariants (xformEffect engines len s X) := by
  have hctrb := h.filled.ctrb.length
  have hp := admission_xform.1 ha
  obtain ⟨hlen, hfit, hfitHold, hmax⟩ := xformChecks_eq_none hc
  have habs := fun he => (length_absorbedBytes engines X hctrb he).trans hlen
  have hY := (length_ctrXor engines X hctrb).trans hlen
  have hafter := h.filled.afterTransform engines X
  by_cases hresp : s.mode.eng = .ctr ∨ s.mode.dir = .encrypt
  · rw [xformEffect_eq_respond engines len X hresp]
    refine Filled.invariants { hafter.respond hob (hY.le.trans (hfit hresp)) with } ?_
    exact h.sequenced.transform hp habs hmax (fun _ => rfl) fun he hd => by simp [he, hd] at hresp
  · obtain ⟨he, hd⟩ := decrypting_of_not_responding hresp
    have hroom : (afterTransform engines s X).hcnt.toNat + (ctrXor engines s X).1.length ≤ s.cfg.params.obufMax := by
      rw [hY]; exact hfitHold he hd
    rw [xformEffect_eq_withhold engines len X he hd]
    refine Filled.invariants { hafter.withhold hroom with } ?_
    refine h.sequenced.transform hp habs hmax (fun hresp' => absurd hresp' hresp) fun _ _ => ?_
    exact (toNat_withhold_hcnt hroom).trans (by rw [hY]; rfl)

theorem Invariants.compareTag {len : BitVec 16} {X : Bytes} (h : Invariants s) (hob : s.obuf = [])
    (ha : admission (.verify len) s = none) : Invariants (finishCommand (compareTag engines s X)) := by
  obtain ⟨he, hd, hp⟩ := admission_verify.1 ha
  have hafter : Filled (tagCompute engines s).2 := { h.filled with }
  rcases compareTag_cases engines s X with ⟨-, hend⟩ | ⟨-, hend⟩ <;> rw [hend]
  · exact ((hafter.releasePlaintext hob).invariants (h.sequenced.releasePlaintext engines he hd hp)).finishCommand_done
  · exact (hafter.poisonSession.takeError _).invariants (h.sequenced.poisonSession engines he hd hp)

/-- Every effect keeps the invariants, from an empty OBUF. -/
theorem Invariants.effectOf {i : Instr} {X : Bytes} (h : Invariants s) (hw : WellFormed i) (hob : s.obuf = [])
    (ha : admission i s = none) (hc : firstRaise (checksOf i s X) = none) :
    Invariants (finishCommand (effectOf i s X)) := by
  have hfill := h.filled
  have hseq := h.sequenced
  cases i with
  | ldkey len =>
    have hphase : s.phase = .uninit := by simpa [admission] using ha
    obtain ⟨hp, hlen⟩ := boundChecks_eq_none hc
    have hkeyr := FilledArray.fillArray hlen (Nat.le_of_not_lt (not_or.1 hp).2)
    exact Invariants.finishCommand_done (Filled.invariants { hfill with keyr := hkeyr } (hseq.stage hphase ..))
  | ldnonce len =>
    have hphase : s.phase = .uninit := by simpa [admission] using ha
    obtain ⟨hp, hlen⟩ := boundChecks_eq_none hc
    have hnonr := FilledArray.fillArray hlen (Nat.le_of_not_lt (not_or.1 hp).2)
    exact Invariants.finishCommand_done (Filled.invariants { hfill with nonr := hnonr } (hseq.stage hphase ..))
  | ldinfo len =>
    have hphase : s.phase = .uninit := by simpa [admission] using ha
    obtain ⟨hp, hlen⟩ := boundChecks_eq_none hc
    have hinfr := FilledArray.fillArray hlen (Nat.le_of_not_lt hp)
    exact Invariants.finishCommand_done (Filled.invariants { hfill with infr := hinfr } (hseq.stage hphase ..))
  | init eng cls dir ce kdf =>
    obtain ⟨hs, hn⟩ := initChecks_eq_none hc
    exact ((hfill.startSession engines _ hn).invariants
      (hseq.startSession hfill (kdf_of_wellFormed_init hw) hs hn)).finishCommand_done
  | setaad len => exact (h.absorbAad ha hc).finishCommand_done
  | xform len => exact (h.xformEffect hob ha hc).finishCommand_done
  | final =>
    obtain ⟨he, hd, hp⟩ := admission_final.1 ha
    exact ((hfill.produceTag engines hob).invariants (hseq.produceTag engines he hd hp)).finishCommand_done
  | verify len => exact h.compareTag hob ha
  | stnonce =>
    have hfit : (counterBlock s).length ≤ s.cfg.params.obufMax :=
      (length_counterBlock hfill.ctrb.length).trans_le (blockLen_le_obufMax s)
    exact ((hfill.respond hob hfit).invariants (hseq.respond _)).finishCommand_done
  | dispose => exact (Invariants.zeroRegisters s).finishCommand_done

/-- Every legal command keeps the invariants. -/
theorem Invariants.exec {i : Instr} {t : State} (h : Invariants s) (hw : WellFormed i) (he : exec i s = .next t) :
    Invariants t := by
  rcases exec_cases he with ⟨c, -, rfl⟩ | ⟨c, -, -, rfl⟩ | ⟨ha, hc, rfl⟩
  · exact h.refuse c
  · exact h.refuse c
  · have hclear := h.filled.clearBuffers.invariants h.sequenced.clearBuffers
    exact hclear.effectOf hw rfl ((admission_clearBuffers i s).trans ha) hc

/-! ### One step -/

/-- The host's pending accesses and what it has read are no registers. -/
theorem Invariants.hostFields (h : Invariants s) (q : List HostAccess) (v : Word) :
    Invariants { s with hostq := q, rdata := v } :=
  Filled.invariants { h.filled with } (h.sequenced.buffers ..)

theorem Invariants.writeIcnt (h : Invariants s) (v : Word) : Invariants (writeIcnt v s) := by
  refine Filled.invariants { h.filled with icnt := ?_ } (h.sequenced.buffers ..)
  show (BitVec.ofNat 16 (min _ s.cfg.params.ibufMax)).toNat ≤ s.cfg.params.ibufMax
  rw [BitVec.toNat_ofNat]
  exact (Nat.mod_le _ _).trans (Nat.min_le_right _ _)

theorem Invariants.writeOperandByte (h : Invariants s) {i : Nat} (hi : i < s.cfg.params.ibufMax) (v : Word) :
    Invariants (writeOperandByte i v s) :=
  Filled.invariants { h.filled with ibuf := h.filled.ibuf.write hi _ } (h.sequenced.buffers ..)

end

/-- Settles O56, by the kinds of access a step performs: a command word by `Invariants.exec`, an illegal one as a failed
command, a reset from no assumption at all, and the rest by the one register each writes. -/
theorem stepKeepsTheInvariants : Obligations.StepKeepsTheInvariants := by
  intro s t h hstep
  have hq := fun q => h.hostFields q s.rdata
  rcases step_cases hstep with ⟨-, rfl⟩ | ⟨a, q, -, hcase⟩
  · exact h
  · rcases hcase with ⟨v, rfl⟩ | ⟨cw, i, -, hd, he⟩ | ⟨cw, e, -, -, rfl⟩ | ⟨v, rfl⟩ |
      ⟨i, v, hi, rfl⟩ | rfl | ⟨-, rfl⟩
    · exact h.hostFields q v
    · exact (hq q).exec (wellFormed_of_decodeWord hd) he
    · exact (hq q).refuse .cfgIllegal
    · exact (hq q).writeIcnt v
    · exact (hq q).writeOperandByte hi v
    · exact hq q
    · exact .zeroRegisters _

/-- Settles O17: reset is DISPOSE's zeroing of the registers. -/
theorem invariantsHoldAtReset : Obligations.InvariantsHoldAtReset := .zeroRegisters State.reset

end Sys2Proof.Safety

/-! # Flags, responses, canonical memories and HOLD through a command (10_state.md R31 to R35) -/

namespace Sys2Proof.Safety

open Sys2Proof.Machine

theorem errByte_ne_zero (c : ErrCode) : errByte c ≠ 0 := by cases c <;> decide

/-! ### ESTICKY and AUTHOK -/

/-- What a command does to ESTICKY and AUTHOK (10_state.md R35). -/
def FlagRule (i : Instr) (s t : State) : Prop :=
  (i ≠ .dispose → (t.esticky = true ↔ s.esticky = true ∨ t.err ≠ 0x00)) ∧
  (i = .dispose → t.esticky = false) ∧
  (t.authok = true ↔ ((∃ len, i = .verify len) ∧ t.err = 0x00) ∨
    (s.authok = true ∧ i ≠ .dispose ∧ ¬ (t.err = 0x00 ∧ ∃ e c d o k, i = .init e c d o k)))

/-- A failure sets ESTICKY and keeps AUTHOK. -/
theorem flagRule_of_failed {i : Instr} {s t : State} (hi : i ≠ .dispose) (herr : t.err ≠ 0) (hst : t.esticky = true)
    (hau : t.authok = s.authok) : FlagRule i s t := by
  refine ⟨fun _ => ⟨fun _ => .inr herr, fun _ => hst⟩, fun h => absurd h hi, ?_⟩
  rw [hau]
  exact ⟨fun ha => .inr ⟨ha, hi, fun h => herr h.1⟩, fun h => h.elim (fun hv => absurd hv.2 herr) And.left⟩

/-- A success of a command other than INIT, VERIFY and DISPOSE keeps both flags. -/
theorem flagRule_of_kept {i : Instr} {s t : State} (hd : i ≠ .dispose) (hv : ∀ len, i ≠ .verify len)
    (hi : ∀ e c d o k, i ≠ .init e c d o k) (herr : t.err = 0) (hst : t.esticky = s.esticky)
    (hau : t.authok = s.authok) : FlagRule i s t := by
  simp [FlagRule, hd, hv, hi, herr, hst, hau]

theorem flagRule_effectOf (i : Instr) (s : State) (X : Bytes) : FlagRule i s (finishCommand (effectOf i s X)) := by
  cases i with
  | init => simp [FlagRule, effectOf, startSession]
  | verify len =>
    rcases compareTag_cases engines s X with ⟨-, hend⟩ | ⟨-, hend⟩ <;> rw [effectOf, hend]
    · simp [FlagRule, releasePlaintext, tagCompute]
    · exact flagRule_of_failed nofun (errByte_ne_zero .authFail) rfl rfl
  | dispose => simp [FlagRule, effectOf]
  | xform len =>
    have hframe := xformEffect_frame engines len s X
    exact flagRule_of_kept nofun nofun nofun rfl (congrArg State.esticky hframe :) (congrArg State.authok hframe :)
  | ldkey | ldnonce | ldinfo | setaad | final | stnonce => exact flagRule_of_kept nofun nofun nofun rfl rfl rfl

/-- Settles O24, by the three outcomes of a command: a refusal by admission or by a check is a failure, which DISPOSE never
has, and the effects follow `flagRule_effectOf`. -/
theorem stickyAndAuthFlags : Obligations.StickyAndAuthFlags := by
  intro i s t h
  rcases exec_cases h with ⟨c, ha, rfl⟩ | ⟨c, -, hc, rfl⟩ | ⟨-, -, rfl⟩
  · exact flagRule_of_failed (by rintro rfl; cases ha) (errByte_ne_zero c) rfl rfl
  · exact flagRule_of_failed (by rintro rfl; cases hc) (errByte_ne_zero c) rfl rfl
  · exact flagRule_effectOf i (clearBuffers s) (operand s)

/-! ### Responses -/

/-- No response stands in OBUF (10_state.md R33). -/
def Silent (t : State) : Prop := t.obuf = [] ∧ t.ocnt = 0

theorem Silent.no_response {t : State} (h : Silent t) : ¬ (t.ocnt ≠ 0 ∨ ∃ a, Memory.read t.obuf a ≠ 0) := by
  obtain ⟨hobuf, hocnt⟩ := h
  simp [hobuf, hocnt]

/-- The five sources of a response. -/
def Responds (i : Instr) (s t : State) : Prop :=
  t.err = 0x00 ∧
  (((∃ len, i = .xform len) ∧ (s.mode.eng = .ctr ∨ s.mode.dir = .encrypt)) ∨
    i = .final ∨ ((∃ len, i = .verify len) ∧ t.authok = true) ∨ i = .stnonce)

theorem effectOf_silent_or_responds (i : Instr) {s : State} (X : Bytes) (h : Silent s) :
    Silent (finishCommand (effectOf i s X)) ∨ Responds i s (finishCommand (effectOf i s X)) := by
  cases i with
  | xform len =>
    by_cases hresp : s.mode.eng = .ctr ∨ s.mode.dir = .encrypt
    · exact .inr ⟨rfl, .inl ⟨⟨len, rfl⟩, hresp⟩⟩
    · obtain ⟨he, hd⟩ := decrypting_of_not_responding hresp
      obtain ⟨hobuf, hocnt⟩ := xformEffect_response engines len s X he hd
      exact .inl ⟨hobuf.trans h.1, hocnt.trans h.2⟩
  | verify len =>
    rcases compareTag_cases engines s X with ⟨-, hend⟩ | ⟨-, hend⟩ <;> rw [effectOf, hend]
    · exact .inr ⟨rfl, .inr (.inr (.inl ⟨⟨len, rfl⟩, rfl⟩))⟩
    · exact .inl h
  | final => exact .inr ⟨rfl, .inr (.inl rfl)⟩
  | stnonce => exact .inr ⟨rfl, .inr (.inr (.inr rfl))⟩
  | dispose => exact .inl ⟨rfl, rfl⟩
  | ldkey | ldnonce | ldinfo | init | setaad => exact .inl h

/-- Settles O25: a refusal leaves the cleared buffers, and an effect that writes OBUF is one of the five. -/
theorem onlyFiveThingsAreEverResponses : Obligations.OnlyFiveThingsAreEverResponses := by
  intro i s t h hresp
  rcases exec_cases h with ⟨c, -, rfl⟩ | ⟨c, -, -, rfl⟩ | ⟨-, -, rfl⟩
  · exact absurd hresp (Silent.no_response ⟨rfl, rfl⟩)
  · exact absurd hresp (Silent.no_response ⟨rfl, rfl⟩)
  · rcases effectOf_silent_or_responds i (s := clearBuffers s) (operand s) ⟨rfl, rfl⟩ with hs | hr
    · exact absurd hresp hs.no_response
    · exact hr

/-! ### Canonical memories -/

/-- IBUF, OBUF and HOLD are in canonical form (log entry 15). -/
structure Canonical (s : State) : Prop where
  ibuf : Memory.wf s.ibuf = true
  obuf : Memory.wf s.obuf = true
  hold : Memory.wf s.hold = true

section
variable {s : State}

theorem Canonical.clearBuffers (h : Canonical s) : Canonical (clearBuffers s) := ⟨rfl, rfl, h.hold⟩

theorem Canonical.respond (h : Canonical s) (B : Bytes) : Canonical (respond s B) :=
  { h with obuf := Memory.wf_writeBytes B 0 h.obuf }

theorem Canonical.withhold (h : Canonical s) (B : Bytes) : Canonical (withhold s B) :=
  { h with hold := Memory.wf_writeBytes B _ h.hold }

theorem Canonical.xformEffect (h : Canonical s) (E : Engines) (len : BitVec 16) (X : Bytes) :
    Canonical (xformEffect E len s X) := by
  have hafter : Canonical (afterTransform E s X) := { h with }
  by_cases hresp : s.mode.eng = .ctr ∨ s.mode.dir = .encrypt
  · rw [xformEffect_eq_respond E len X hresp]
    exact { hafter.respond _ with }
  · obtain ⟨he, hd⟩ := decrypting_of_not_responding hresp
    rw [xformEffect_eq_withhold E len X he hd]
    exact { hafter.withhold _ with }

theorem Canonical.effectOf (h : Canonical s) (i : Instr) (X : Bytes) : Canonical (finishCommand (effectOf i s X)) := by
  cases i with
  | xform len => exact { h.xformEffect engines len X with }
  | verify len =>
    rcases compareTag_cases engines s X with ⟨-, hend⟩ | ⟨-, hend⟩ <;> rw [Machine.effectOf, hend]
    · exact { h with obuf := Memory.wf_writeBytes _ 0 h.obuf, hold := rfl }
    · exact { h with hold := rfl }
  | final => exact { h.respond (tagCompute engines s).1 with }
  | stnonce => exact { h.respond (counterBlock s) with }
  | init => exact { h with hold := rfl }
  | dispose => exact ⟨rfl, rfl, rfl⟩
  | ldkey | ldnonce | ldinfo | setaad => exact { h with }

theorem Canonical.exec {i : Instr} {t : State} (h : Canonical s) (he : exec i s = .next t) : Canonical t := by
  rcases exec_cases he with ⟨c, -, rfl⟩ | ⟨c, -, -, rfl⟩ | ⟨-, -, rfl⟩
  · exact { h.clearBuffers with }
  · exact { h.clearBuffers with }
  · exact h.clearBuffers.effectOf i (operand s)

end

/-- Settles O55, by the kinds of access a step performs. -/
theorem stepKeepsMemoriesCanonical : Obligations.StepKeepsMemoriesCanonical := by
  intro s t hi ho hh hstep
  have h : Canonical s := ⟨hi, ho, hh⟩
  have hq : ∀ q, Canonical { s with hostq := q } := fun _ => { h with }
  suffices ht : Canonical t from ⟨ht.ibuf, ht.obuf, ht.hold⟩
  rcases step_cases hstep with ⟨-, rfl⟩ | ⟨a, q, -, hcase⟩
  · exact h
  · rcases hcase with ⟨v, rfl⟩ | ⟨cw, i, -, -, he⟩ | ⟨cw, e, -, -, rfl⟩ | ⟨v, rfl⟩ |
      ⟨i, v, -, rfl⟩ | rfl | ⟨-, rfl⟩
    · exact { h with }
    · exact (hq q).exec he
    · exact { h.clearBuffers with }
    · exact { h with }
    · exact { h with ibuf := Memory.wf_write _ _ h.ibuf }
    · exact hq q
    · exact ⟨rfl, rfl, rfl⟩

/-! ### HOLD reaches no other register -/

theorem admission_hold (i : Instr) (s : State) (M : Memory) : admission i { s with hold := M } = admission i s := by
  cases i <;> rfl

theorem checksOf_hold (i : Instr) (s : State) (M : Memory) (X : Bytes) :
    checksOf i { s with hold := M } X = checksOf i s X := by
  cases i <;> rfl

theorem xformEffect_of_hold (E : Engines) (len : BitVec 16) (s : State) (M : Memory) (X : Bytes) :
    xformEffect E len { s with hold := M } X =
      { xformEffect E len s X with hold := (xformEffect E len { s with hold := M } X).hold } := by
  by_cases hresp : s.mode.eng = .ctr ∨ s.mode.dir = .encrypt
  · rw [xformEffect_eq_respond E len X hresp, xformEffect_eq_respond E len (s := { s with hold := M }) X hresp]
    rfl
  · obtain ⟨he, hd⟩ := decrypting_of_not_responding hresp
    rw [xformEffect_eq_withhold E len X he hd, xformEffect_eq_withhold E len (s := { s with hold := M }) X he hd]
    rfl

/-- From states that differ only in HOLD every effect but VERIFY's success leads to states that differ only in HOLD. -/
theorem effectOf_of_hold (i : Instr) (s : State) (M : Memory) (X : Bytes)
    (h : (∀ len, i ≠ .verify len) ∨ (finishCommand (effectOf i s X)).err ≠ 0) :
    ∃ M', finishCommand (effectOf i { s with hold := M } X) = { finishCommand (effectOf i s X) with hold := M' } := by
  cases i with
  | xform len =>
    refine ⟨(xformEffect engines len { s with hold := M } X).hold, ?_⟩
    simp only [effectOf, finishCommand_done]
    rw [xformEffect_of_hold]
  | verify len =>
    rcases compareTag_cases engines s X with ⟨-, hend⟩ | ⟨hne, hend⟩
    · rw [effectOf, hend] at h
      exact absurd rfl (h.resolve_left fun hv => hv len rfl)
    · have hend' : compareTag engines { s with hold := M } X =
          .authFailed (poisonSession (tagCompute engines { s with hold := M }).2) :=
        if_neg (by rw [Bool.not_eq_true]; exact hne)
      rw [effectOf, hend, hend']
      exact ⟨[], rfl⟩
  | init | dispose => exact ⟨[], rfl⟩
  | ldkey | ldnonce | ldinfo | setaad | final | stnonce => exact ⟨M, rfl⟩

theorem eq_with_own_hold {t t' : State} {M : Memory} (h : t' = { t with hold := M }) :
    t' = { t with hold := t'.hold } := by
  subst h; rfl

/-- Settles O51: admission and the checks do not look at HOLD, so both runs take the same one of the three outcomes. -/
theorem withheldPlaintextStaysHidden : Obligations.WithheldPlaintextStaysHidden := by
  intro i s s' t t' hs h h' hv
  obtain ⟨M, rfl⟩ : ∃ M, s' = { s with hold := M } := ⟨_, hs⟩
  have hadm := admission_hold i s M
  have hchk := checksOf_hold i (clearBuffers s) M (operand s)
  rcases exec_cases h with ⟨c, ha, rfl⟩ | ⟨c, ha, hc, rfl⟩ | ⟨ha, hc, rfl⟩
  · rw [exec_of_admission (hadm.trans ha)] at h'
    cases h'
    rfl
  · rw [exec_of_raise (hadm.trans ha) ((congrArg firstRaise hchk).trans hc)] at h'
    cases h'
    rfl
  · rw [exec_of_checks (hadm.trans ha) ((congrArg firstRaise hchk).trans hc)] at h'
    cases h'
    obtain ⟨M', hM'⟩ := effectOf_of_hold i (clearBuffers s) M (operand s) hv
    exact eq_with_own_hold hM'

end Sys2Proof.Safety

/-! # The bus's reads, STATUS and reset (10_state.md R36, R38, R39) -/

namespace Sys2Proof.Machine

/-! ### What a read answers (20_memory.md R62, R64, R68) -/

/-- The value a read of a target answers. -/
def readValue (s : State) : Target → Word
  | .reg r => regValue s r
  | .responseByte i => (Memory.read s.obuf i).setWidth 32
  | .operandByte _ | .bad | .outside => 0

theorem busRead_eq_next {addr n : Nat} {s t : State} (h : busRead addr n s = .next t) :
    t = { s with rdata := readValue s (targetAt s.cfg.params addr n) } := by
  unfold busRead badAccess at h
  split at h
  case h_4 ht => split at h <;> cases h; rw [ht]; rfl
  all_goals cases h
  all_goals next ht => rw [ht]; rfl

/-- No target's value depends on a secret or on a staged byte (10_state.md R38). -/
theorem readValue_of_secrets (s : State) (T : Target) (ks : KeySchedule) (mkey ctrb keyr nonr infr : Bytes)
    (macst : Option MacState) (hold ibuf : Memory) :
    readValue { s with ks := ks, mkey := mkey, macst := macst, hold := hold, ctrb := ctrb, keyr := keyr, nonr := nonr,
                       infr := infr, ibuf := ibuf } T = readValue s T := by
  cases T with
  | reg r => cases r <;> rfl
  | operandByte | responseByte | bad | outside => rfl

/-! ### The bits of STATUS (10_state.md R36) -/

theorem statusWord_phase (s : State) : (statusWord s).extractLsb' 0 3 = phaseCode s.phase := by
  rw [statusWord, BitVec.extractLsb'_append_eq_of_add_le (by decide), BitVec.extractLsb'_eq_self]

theorem statusWord_eng (s : State) : (statusWord s).extractLsb' 3 2 = engCode s.mode.eng := by
  rw [statusWord, BitVec.extractLsb'_append_eq_of_le (by decide), BitVec.extractLsb'_append_eq_of_add_le (by decide)]
  exact BitVec.extractLsb'_eq_self

theorem statusWord_flags (s : State) :
    (statusWord s).getLsbD 5 = clsBit s.mode.cls ∧ (statusWord s).getLsbD 6 = dirBit s.mode.dir ∧
    (statusWord s).getLsbD 7 = ceBit s.mode.ce ∧ (statusWord s).getLsbD 8 = kdfBit s.mode.kdf ∧
    (statusWord s).getLsbD 9 = keyLoaded s ∧ (statusWord s).getLsbD 10 = nonceLoaded s ∧
    (statusWord s).getLsbD 11 = infoLoaded s ∧ (statusWord s).getLsbD 12 = s.esticky ∧
    (statusWord s).getLsbD 13 = s.authok := by
  simp only [statusWord, BitVec.getLsbD_append]
  simp

theorem statusWord_reserved (s : State) : (statusWord s).extractLsb' 14 18 = 0 := by
  rw [statusWord]
  repeat rw [BitVec.extractLsb'_append_eq_of_le (by decide)]
  exact BitVec.extractLsb'_eq_self

/-- A read of offset 4 answers STATUS. -/
theorem step_read_status {s : State} {q : List HostAccess} (h : s.hostq = .read (s.cfg.params.base + 4) 4 :: q) :
    step s = .next { s with hostq := q, rdata := statusWord s } := by
  rw [step_cons h]
  simp only [performAccess, busRead, targetAt_register s.cfg.params (k := 1) (by decide) rfl]
  rfl

/-- A write of offset 4 is ignored. -/
theorem step_write_status {s : State} {q : List HostAccess} {v : Word}
    (h : s.hostq = .write (s.cfg.params.base + 4) 4 v :: q) : step s = .next { s with hostq := q } := by
  rw [step_cons h]
  simp only [performAccess, busWrite, targetAt_register s.cfg.params (k := 1) (by decide) rfl, writeReg]

end Sys2Proof.Machine

namespace Sys2Proof.Safety

open Sys2Proof.Machine

/-- Settles O15: a read that answers gives the value of its target, which depends on no secret, and the target depends on
the configuration alone. -/
theorem secretsHaveNoBusReadPath : Obligations.SecretsHaveNoBusReadPath := by
  intro s s' t t' addr n q hs hq ht ht'
  have hq' : s'.hostq = .read addr n :: q := by rw [hs]; exact hq
  have hcfg : s'.cfg = s.cfg := by rw [hs]
  rw [step_cons hq] at ht
  rw [step_cons hq'] at ht'
  rw [busRead_eq_next ht, busRead_eq_next ht']
  simp only [hcfg]
  rw [hs]
  exact readValue_of_secrets { s with hostq := q } ..

/-- Settles O8: the codes are the definitions', the bits those of the concatenation, and offset 4 is the register
STATUS. -/
theorem statusFields : Obligations.StatusFields := by
  refine ⟨⟨rfl, rfl, rfl, rfl, rfl, rfl⟩, ⟨rfl, rfl, rfl, rfl, rfl, rfl, rfl, rfl, rfl, rfl, rfl⟩, fun s => ?_⟩
  obtain ⟨hcls, hdir, hce, hkdf, hkld, hnld, hild, hsticky, hauth⟩ := statusWord_flags s
  exact ⟨statusWord_phase s, statusWord_eng s, hcls, hdir, hce, hkdf, by rw [hkld, keyLoaded_iff],
    by rw [hnld, nonceLoaded_iff], by rw [hild, infoLoaded_iff], hsticky, hauth, statusWord_reserved s,
    fun _ => step_read_status, fun _ _ => step_write_status⟩

/-! ### Reset (10_state.md R39) -/

theorem atReset_zeroRegisters (s : State) : AtReset (zeroRegisters s) where
  phase := rfl
  mode := rfl
  staging := ⟨fun _ => mem_zeros, fun _ => mem_zeros, fun _ => mem_zeros⟩
  sizes := ⟨length_zeros _, length_zeros _, length_zeros _, length_zeros _, length_zeros _⟩
  counts := ⟨rfl, rfl, rfl⟩
  secrets := ⟨rfl, fun _ => mem_zeros, fun _ => mem_zeros, rfl⟩
  totals := ⟨rfl, rfl⟩
  buffers := ⟨fun _ => rfl, fun _ => rfl, fun _ => rfl⟩
  bufferCounts := ⟨rfl, rfl, rfl⟩
  flags := ⟨rfl, rfl, rfl⟩

theorem statusWord_zeroRegisters (s : State) : statusWord (zeroRegisters s) = 0 := by
  simp only [statusWord, keyLoaded, nonceLoaded, infoLoaded, zeroRegisters_authok, zeroRegisters_esticky,
    zeroRegisters_keyn, zeroRegisters_nonn, zeroRegisters_infn, zeroRegisters_mode, zeroRegisters_phase, ne_eq,
    not_true_eq_false, decide_false]
  rfl

/-- Settles O16: the reset state and the state a reset leaves are both zeroed registers. -/
theorem resetLeavesTheResetValues : Obligations.ResetLeavesTheResetValues :=
  ⟨atReset_zeroRegisters State.reset, statusWord_zeroRegisters State.reset, fun s q hq =>
    ⟨zeroRegisters { s with hostq := q }, step_cons hq, atReset_zeroRegisters _, statusWord_zeroRegisters _⟩⟩

end Sys2Proof.Safety

/-! # One bus access as one step (20_memory.md R61 to R72) -/

namespace Sys2Proof.Machine

/-! ### A command leaves the host alone -/

/-- No command's effect touches the parameters, the host's pending accesses or what the host has read. -/
theorem effectOf_keeps_host (i : Instr) (s : State) (X : Bytes) :
    (finishCommand (effectOf i s X)).cfg = s.cfg ∧ (finishCommand (effectOf i s X)).hostq = s.hostq ∧
      (finishCommand (effectOf i s X)).rdata = s.rdata := by
  cases i with
  | xform len =>
    rw [show effectOf (.xform len) s X = .done (xformEffect engines len s X) from rfl, xformEffect_frame]
    exact ⟨rfl, rfl, rfl⟩
  | verify len =>
    rcases compareTag_cases engines s X with ⟨-, hend⟩ | ⟨-, hend⟩
    · rw [effectOf, hend]; exact ⟨rfl, rfl, rfl⟩
    · rw [effectOf, hend]; exact ⟨rfl, rfl, rfl⟩
  | ldkey | ldnonce | ldinfo | init | setaad | final | stnonce | dispose => exact ⟨rfl, rfl, rfl⟩

theorem exec_keeps_host {i : Instr} {s t : State} (h : exec i s = .next t) :
    t.cfg = s.cfg ∧ t.hostq = s.hostq ∧ t.rdata = s.rdata := by
  rcases exec_cases h with ⟨c, -, rfl⟩ | ⟨c, -, -, rfl⟩ | ⟨-, -, rfl⟩
  · exact ⟨rfl, rfl, rfl⟩
  · exact ⟨rfl, rfl, rfl⟩
  · exact effectOf_keeps_host i (clearBuffers s) (operand s)

/-! ### Command words (20_memory.md R66) -/

/-- A write of CMD ends in a next state, whatever the word. -/
theorem writeCmd_total (cw : Word) (s : State) : ∃ t, writeCmd cw s = .next t := by
  rw [writeCmd_eq]
  split
  · exact ⟨_, exec_eq_next _ _⟩
  · exact ⟨_, rfl⟩

theorem decodeWord_of_decode_wordBytes {cw : Word} {i : Instr} (h : decode (wordBytes cw) = .ok (i, [])) :
    decodeWord cw = .ok i := by
  have hw := decode_wordBytes cw []
  rw [List.append_nil, h] at hw
  split at hw
  · next j hj => cases hw; exact hj
  · cases hw

theorem writeCmd_of_decodeWord {cw : Word} {i : Instr} (h : decodeWord cw = .ok i) (s : State) :
    writeCmd cw s = exec i s := by
  rw [writeCmd_eq, h]

/-! ### Registers (20_memory.md R61 to R65) -/

/-- The values of the twelve registers in the order of their offsets. -/
theorem map_regValue_regOrder (s : State) :
    regOrder.map (regValue s) =
      [0, statusWord s, s.err.setWidth 32, s.icnt.setWidth 32, s.ocnt.setWidth 32,
        s.aadt.setWidth 32, (s.aadt >>> 32).setWidth 32, s.ctt.setWidth 32, (s.ctt >>> 32).setWidth 32,
        s.hcnt.setWidth 32, capWord s.cfg.params, varWord s.cfg.params] := rfl

/-- No register's value depends on the accesses still pending. -/
theorem regValue_hostq (s : State) (q : List HostAccess) (r : Reg) :
    regValue { s with hostq := q } r = regValue s r := by
  cases r <;> rfl

/-- Only CMD and ICNT take a write (20_memory.md R63). -/
theorem writeReg_readOnly {r : Reg} (hc : r ≠ .cmd) (hi : r ≠ .icnt) (v : Word) (s : State) :
    writeReg r v s = .next s := by
  cases r with
  | cmd => exact absurd rfl hc
  | icnt => exact absurd rfl hi
  | status | err | ocnt | aadtLo | aadtHi | cttLo | cttHi | hcnt | cap | var => rfl

/-- Among the twelve offsets, those of CMD and ICNT are the first and the fourth. -/
theorem regOrder_readOnly {k : Nat} (hk : k < 12) (h0 : k ≠ 0) (h3 : k ≠ 3) :
    ∃ r, regOrder[k]? = some r ∧ r ≠ .cmd ∧ r ≠ .icnt := by
  have hall : ∀ k (hk : k < regOrder.length), k ≠ 0 → k ≠ 3 → regOrder[k] ≠ .cmd ∧ regOrder[k] ≠ .icnt := by decide
  exact ⟨regOrder[k]'hk, List.getElem?_eq_getElem hk, hall k hk h0 h3⟩

/-- The bound of ICNT fits its 16 bits, so the minimum of R65 is stored whole. -/
theorem toNat_writeIcnt (v : Word) (s : State) :
    (writeIcnt v s).icnt.toNat = min (v.toNat % 65536) s.cfg.params.ibufMax := by
  have hmax := s.cfg.legal.ibufMax_le
  show (BitVec.ofNat 16 (min (v.extractLsb' 0 16).toNat s.cfg.params.ibufMax)).toNat = _
  rw [BitVec.toNat_ofNat, BitVec.extractLsb'_toNat, Nat.shiftRight_zero, Nat.mod_eq_of_lt (by omega)]

/-! ### The constant registers (10_state.md R37) -/

theorem capWord_ibufMax (c : Config) : ((capWord c.params).extractLsb' 0 16).toNat = c.params.ibufMax := by
  have hmax := c.legal.ibufMax_le
  rw [capWord, BitVec.extractLsb'_append_eq_of_add_le (by decide), BitVec.extractLsb'_eq_self, BitVec.toNat_ofNat,
    Nat.mod_eq_of_lt (by omega)]

theorem capWord_obufMax (c : Config) : ((capWord c.params).extractLsb' 16 16).toNat = c.params.obufMax := by
  have hmax := c.legal.obufMax_le
  rw [capWord, BitVec.extractLsb'_append_eq_of_le (by decide), BitVec.extractLsb'_eq_self, BitVec.toNat_ofNat,
    Nat.mod_eq_of_lt (by omega)]

theorem varWord_supported (p : Params) :
    (varWord p).getLsbD 0 = p.ctr0.supported ∧ (varWord p).getLsbD 1 = p.ctr1.supported ∧
    (varWord p).getLsbD 2 = p.hba0.supported ∧ (varWord p).getLsbD 3 = p.hba1.supported ∧
    (varWord p).getLsbD 4 = p.rcs0.supported ∧ (varWord p).getLsbD 5 = p.rcs1.supported ∧
    (varWord p).getLsbD 8 = p.hkdfSupported ∧ (varWord p).getLsbD 9 = p.kmacSupported := by
  simp only [varWord, BitVec.getLsbD_append]
  simp

theorem varWord_gap (p : Params) : (varWord p).extractLsb' 6 2 = 0 := by
  rw [varWord]
  iterate 6 rw [BitVec.extractLsb'_append_eq_of_le (by decide)]
  rw [BitVec.extractLsb'_append_eq_of_add_le (by decide)]
  exact BitVec.extractLsb'_eq_self

theorem varWord_reserved (p : Params) : (varWord p).extractLsb' 10 22 = 0 := by
  rw [varWord]
  repeat rw [BitVec.extractLsb'_append_eq_of_le (by decide)]
  exact BitVec.extractLsb'_eq_self

/-! ### The step that performs an access, by the target it reaches -/

section
variable {s : State} {q : List HostAccess} {v : Word} {addr n : Nat}

theorem step_read_register {r : Reg} (ht : targetAt s.cfg.params addr n = .reg r) (h : s.hostq = .read addr n :: q) :
    step s = .next { s with hostq := q, rdata := regValue s r } := by
  rw [step_cons h]
  simp only [performAccess, busRead, ht, regValue_hostq]

theorem step_write_register {r : Reg} (ht : targetAt s.cfg.params addr n = .reg r)
    (h : s.hostq = .write addr n v :: q) : step s = writeReg r v { s with hostq := q } := by
  rw [step_cons h]
  simp only [performAccess, busWrite, ht]

theorem step_read_operand {j : Nat} (ht : targetAt s.cfg.params addr n = .operandByte j)
    (h : s.hostq = .read addr n :: q) : step s = .next { s with hostq := q, rdata := 0 } := by
  rw [step_cons h]
  simp only [performAccess, busRead, ht]

theorem step_write_operand {j : Nat} (ht : targetAt s.cfg.params addr n = .operandByte j)
    (h : s.hostq = .write addr n v :: q) : step s = .next (writeOperandByte j v { s with hostq := q }) := by
  rw [step_cons h]
  simp only [performAccess, busWrite, ht]

theorem step_read_response {j : Nat} (ht : targetAt s.cfg.params addr n = .responseByte j)
    (h : s.hostq = .read addr n :: q) :
    step s = .next { s with hostq := q, rdata := (Memory.read s.obuf j).setWidth 32 } := by
  rw [step_cons h]
  simp only [performAccess, busRead, ht]

theorem step_write_response {j : Nat} (ht : targetAt s.cfg.params addr n = .responseByte j)
    (h : s.hostq = .write addr n v :: q) : step s = .next { s with hostq := q } := by
  rw [step_cons h]
  simp only [performAccess, busWrite, ht]

theorem step_read_bad (ht : targetAt s.cfg.params addr n = .bad) (h : s.hostq = .read addr n :: q) :
    step s =
      if s.cfg.params.busFaultOnBadAccess then .fault .busError else .next { s with hostq := q, rdata := 0 } := by
  rw [step_cons h]
  simp only [performAccess, busRead, ht, badAccess]

theorem step_write_bad (ht : targetAt s.cfg.params addr n = .bad) (h : s.hostq = .write addr n v :: q) :
    step s = if s.cfg.params.busFaultOnBadAccess then .fault .busError else .next { s with hostq := q } := by
  rw [step_cons h]
  simp only [performAccess, busWrite, ht, badAccess]

end

/-! ### Where a step stops -/

/-- The host's next access is a read or a write of `n` bytes at `addr`. -/
def Accesses (s : State) (addr n : Nat) : Prop :=
  ∃ v q, s.hostq = .read addr n :: q ∨ s.hostq = .write addr n v :: q

/-- A step answers a next state, faults on a signalled bad access, or refuses an access outside the block. -/
theorem step_outcomes (s : State) :
    (∃ t, step s = .next t) ∨
    ∃ addr n, Accesses s addr n ∧
      ((step s = .fault .busError ∧ s.cfg.params.busFaultOnBadAccess = true ∧ targetAt s.cfg.params addr n = .bad) ∨
       (step s = .refused .outsideBlock ∧ targetAt s.cfg.params addr n = .outside)) := by
  cases hq : s.hostq with
  | nil => exact .inl ⟨s, step_nil hq⟩
  | cons a q =>
    have hstep := step_cons hq
    cases a with
    | read addr n =>
      have hacc : Accesses s addr n := ⟨0, q, .inl hq⟩
      rcases busRead_cases hstep.symm with ⟨v, hv⟩ | hbad | hout
      · exact .inl ⟨_, hv⟩
      · exact .inr ⟨addr, n, hacc, .inl hbad⟩
      · exact .inr ⟨addr, n, hacc, .inr hout⟩
    | write addr n v =>
      have hacc : Accesses s addr n := ⟨v, q, .inr hq⟩
      rcases busWrite_cases hstep.symm with ⟨-, -, hv⟩ | hv | ⟨i, -, hv⟩ | hv | hbad | hout
      · rw [hv]; exact .inl (writeCmd_total v _)
      · exact .inl ⟨_, hv⟩
      · exact .inl ⟨_, hv⟩
      · exact .inl ⟨_, hv⟩
      · exact .inr ⟨addr, n, hacc, .inl hbad⟩
      · exact .inr ⟨addr, n, hacc, .inr hout⟩
    | reset => exact .inl ⟨_, hstep⟩

end Sys2Proof.Machine

namespace Sys2Proof.Safety

open Sys2Proof.Machine

/-- Settles O10: the step of each window access, and the laws of the byte array for the stored byte. -/
theorem windowAccesses : Obligations.WindowAccesses := by
  refine ⟨fun s q v j hj hwf h => ?_,
    fun s q j hj => step_read_operand (targetAt_operand _ s.cfg.legal.ibufMax_le hj),
    fun s q j hj => step_read_response (targetAt_response _ s.cfg.legal.obufMax_le hj),
    fun s q v j hj => step_write_response (targetAt_response _ s.cfg.legal.obufMax_le hj)⟩
  exact ⟨_, step_write_operand (targetAt_operand _ s.cfg.legal.ibufMax_le hj) h, Memory.read_write_same j _ hwf,
    fun a ha => Memory.read_write_other _ ha hwf, rfl⟩

/-- Settles O11: an unmapped access inside the block has the target `bad`, which answers by the platform's parameter. -/
theorem badAccessesDoNothing : Obligations.BadAccessesDoNothing := by
  intro s q off n hoff hm
  have ht := targetAt_bad s.cfg.params hoff hm
  refine ⟨fun hb => ⟨fun h => ?_, fun v h => ?_⟩, fun hb => ⟨fun h => ?_, fun v h => ?_⟩⟩
  · rw [step_read_bad ht h, hb]; rfl
  · rw [step_write_bad ht h, hb]; rfl
  · rw [step_read_bad ht h, hb]; rfl
  · rw [step_write_bad ht h, hb]; rfl

/-- Settles O12, by the outcomes of a step: a fault reached the target `bad`, a refusal the target `outside`, and a
write of CMD neither. -/
theorem whereAStepStops : Obligations.WhereAStepStops := by
  refine ⟨fun s f hf => ?_, fun s r hr => ?_, fun s cw q h => ?_⟩
  · rcases step_outcomes s with ⟨t, ht⟩ | ⟨addr, n, ⟨v, q, hq⟩, ⟨hs, hb, ht⟩ | ⟨hs, -⟩⟩
    · cases ht.symm.trans hf
    · cases hs.symm.trans hf
      obtain ⟨off, rfl, hoff, hm⟩ := targetAt_eq_bad s.cfg.legal.ibufMax_le s.cfg.legal.obufMax_le ht
      exact ⟨rfl, hb, off, n, v, q, hq, hoff, hm⟩
    · cases hs.symm.trans hf
  · rcases step_outcomes s with ⟨t, ht⟩ | ⟨addr, n, ⟨v, q, hq⟩, ⟨hs, -⟩ | ⟨hs, ht⟩⟩
    · cases ht.symm.trans hr
    · cases hs.symm.trans hr
    · cases hs.symm.trans hr
      exact ⟨rfl, addr, n, v, q, hq, targetAt_eq_outside ht⟩
  · rw [step_command h]
    exact writeCmd_total cw _

/-- Settles O14, by the kinds of access a step performs: a read, a write of ICNT, an operand byte or an ignored write
changes only the fields named. -/
theorem onlyCommandsAndResetChangeTheSession : Obligations.OnlyCommandsAndResetChangeTheSession := by
  intro s t a q hq hreset hcmd hstep
  rcases step_cases hstep with ⟨hnil, -⟩ | ⟨a', q', hq', hcase⟩
  · rw [hnil] at hq; cases hq
  · cases hq.symm.trans hq'
    rcases hcase with ⟨v, rfl⟩ | ⟨cw, i, ha, -⟩ | ⟨cw, e, ha, -⟩ | ⟨v, rfl⟩ | ⟨i, v, -, rfl⟩ | rfl | ⟨ha, -⟩
    · rfl
    · exact absurd ha (hcmd cw)
    · exact absurd ha (hcmd cw)
    · rfl
    · rfl
    · rfl
    · exact absurd ha hreset

/-- Settles O6: the bytes of a word decode as the word, and `withFetchWord` puts its write of CMD first. -/
theorem stepRunsTheDecodedCommand : Obligations.StepRunsTheDecodedCommand := by
  have hrun : ∀ {s : State} {q : List HostAccess} {cw : Word} {i : Instr},
      s.hostq = .write s.cfg.params.base 4 cw :: q → decode (wordBytes cw) = .ok (i, []) →
      step s = exec i { s with hostq := q } := fun h hd => by
    rw [step_command h, writeCmd_of_decodeWord (decodeWord_of_decode_wordBytes hd)]
  refine ⟨fun s q cw i h hd => ⟨wellFormed_of_decodeWord (decodeWord_of_decode_wordBytes hd), hrun h hd⟩,
    fun s cw i hd => ?_⟩
  have hword : BitVec.ofNat 32 (cw.toNat % 2 ^ 32) = cw := by
    rw [Nat.mod_eq_of_lt cw.isLt, BitVec.ofNat_toNat, BitVec.setWidth_eq]
  have hq : (s.withFetchWord 32 cw.toNat).hostq = .write s.cfg.params.base 4 cw :: s.hostq := by
    rw [State.withFetchWord, commandWrite, hword]
  exact hrun (s := s.withFetchWord 32 cw.toNat) hq hd

/-- Settles O7: the register at each of the twelve offsets by the order of the map, and the bits of the two
concatenations. -/
theorem registerReadsAnswerTheirValues : Obligations.RegisterReadsAnswerTheirValues := by
  refine ⟨fun s q k hk h => ?_, fun c => ?_⟩
  · have hr : regOrder[k]? = some (regOrder[k]'hk) := List.getElem?_eq_getElem hk
    rw [step_read_register (targetAt_register _ hk hr) h, ← map_regValue_regOrder, List.getD, List.getElem?_map, hr]
    rfl
  · obtain ⟨hctr0, hctr1, hhba0, hhba1, hrcs0, hrcs1, hhkdf, hkmac⟩ := varWord_supported c.params
    exact ⟨capWord_ibufMax c, capWord_obufMax c, hctr0, hctr1, hhba0, hhba1, hrcs0, hrcs1, varWord_gap _, hhkdf, hkmac,
      varWord_reserved _⟩

/-- Settles O9: offset 0x0C is ICNT, and every register but CMD and ICNT is read-only. -/
theorem registerWritesStoreOnlyIcnt : Obligations.RegisterWritesStoreOnlyIcnt := by
  refine ⟨fun s q v h => ?_, fun s q v k hk h0 h3 h => ?_⟩
  · exact ⟨_, step_write_register (targetAt_register _ (k := 3) (by decide) rfl) h, toNat_writeIcnt v _, rfl⟩
  · obtain ⟨r, hr, hcmd, hicnt⟩ := regOrder_readOnly hk h0 h3
    rw [step_write_register (targetAt_register _ hk hr) h, writeReg_readOnly hcmd hicnt]

/-- Settles O13, by the kinds of access a step performs: each is performed on the state from which it has been taken,
and none, a command among them, touches the queue or the configuration again. -/
theorem oneAccessPerStep : Obligations.OneAccessPerStep := by
  refine ⟨fun s => step_nil, fun s t a q hq hstep => ?_⟩
  rcases step_cases hstep with ⟨hnil, -⟩ | ⟨a', q', hq', hcase⟩
  · rw [hnil] at hq; cases hq
  · cases hq.symm.trans hq'
    rcases hcase with ⟨v, rfl⟩ | ⟨cw, i, -, -, he⟩ | ⟨cw, e, -, -, rfl⟩ | ⟨v, rfl⟩ | ⟨i, v, -, rfl⟩ | rfl | ⟨-, rfl⟩
    · exact ⟨rfl, rfl⟩
    · obtain ⟨hcfg, hhostq, -⟩ := exec_keeps_host he
      exact ⟨hhostq, hcfg⟩
    · exact ⟨rfl, rfl⟩
    · exact ⟨rfl, rfl⟩
    · exact ⟨rfl, rfl⟩
    · exact ⟨rfl, rfl⟩
    · exact ⟨rfl, rfl⟩

end Sys2Proof.Safety

/-! # The command word, taken apart (30_encoding.md R90 to R96) -/

namespace Sys2Proof

open Sys2Proof.Safety

/-! ### Words and their fields (R90) -/

/-- A word is determined by its fields. -/
theorem fieldsWord_eq_iff {opc md : Byte} {len : BitVec 16} {cw : Word} :
    fieldsWord opc md len = cw ↔ opcField cw = opc ∧ modField cw = md ∧ lenField cw = len := by
  constructor
  · rintro rfl
    exact ⟨opcField_fieldsWord opc md len, modField_fieldsWord opc md len, lenField_fieldsWord opc md len⟩
  · rintro ⟨rfl, rfl, rfl⟩
    exact fieldsWord_fields cw

/-- Masking a word masks each field. -/
theorem fieldsWord_and_fieldsWord (opc opc' md md' : Byte) (len len' : BitVec 16) :
    fieldsWord opc md len &&& fieldsWord opc' md' len' = fieldsWord (opc &&& opc') (md &&& md') (len &&& len') :=
  BitVec.and_append.trans (congrArg (· ++ _) BitVec.and_append)

/-- A match of masked bits, field by field: `mo`, `mm` and `ml` are the mask's fields. -/
theorem and_eq_fieldsWord_iff {cw : Word} {mo mm opc md : Byte} {ml len : BitVec 16} :
    cw &&& fieldsWord mo mm ml = fieldsWord opc md len ↔
      opcField cw &&& mo = opc ∧ modField cw &&& mm = md ∧ lenField cw &&& ml = len := by
  conv_lhs => rw [← fieldsWord_fields cw, fieldsWord_and_fieldsWord]
  rw [eq_comm, fieldsWord_eq_iff, opcField_fieldsWord, modField_fieldsWord, lenField_fieldsWord]

theorem byte_and_0xFF (b : Byte) : b &&& 0xFF = b := BitVec.and_allOnes

/-- The mask 0xFFFF0000 fixes OPC and MOD. -/
theorem and_opcMod_mask_iff {cw : Word} {opc md : Byte} :
    cw &&& 0xFFFF0000 = fieldsWord opc md 0 ↔ opcField cw = opc ∧ modField cw = md := by
  rw [show (0xFFFF0000 : Word) = fieldsWord 0xFF 0xFF 0 from rfl, and_eq_fieldsWord_iff, byte_and_0xFF,
    byte_and_0xFF]
  simp

/-- The mask 0xFFC0FFFF fixes OPC, LEN and the top two bits of MOD. -/
theorem and_init_mask_iff {cw : Word} {opc : Byte} {len : BitVec 16} :
    cw &&& 0xFFC0FFFF = fieldsWord opc 0 len ↔
      opcField cw = opc ∧ (modField cw).extractLsb' 6 2 = 0 ∧ lenField cw = len := by
  have htop : ∀ b : Byte, b &&& 0xC0 = 0 ↔ b.extractLsb' 6 2 = 0 := by decide
  rw [show (0xFFC0FFFF : Word) = fieldsWord 0xFF 0xC0 0xFFFF from rfl, and_eq_fieldsWord_iff, byte_and_0xFF, htop,
    show lenField cw &&& 0xFFFF = lenField cw from BitVec.and_allOnes]

/-- A bit of MOD is a bit of the word. -/
theorem modField_getLsbD (cw : Word) {i : Nat} (h : i < 8) : (modField cw).getLsbD i = cw.getLsbD (16 + i) := by
  simp [modField, h]

/-- A range of bits of MOD is a range of bits of the word. -/
theorem modField_extractLsb' (cw : Word) {i n : Nat} (h : i + n ≤ 8) :
    (modField cw).extractLsb' i n = cw.extractLsb' (16 + i) n := by
  ext j hj
  simp only [modField, BitVec.getElem_extractLsb', BitVec.getLsbD_extractLsb', Nat.add_assoc]
  rw [decide_eq_true (by omega), Bool.true_and]

/-! ### INIT's MOD byte (R93) -/

theorem engOfCode_eq_some_iff {c : BitVec 2} {eng : Engine} : engOfCode c = some eng ↔ c = engCode eng := by
  revert c; cases eng <;> decide

theorem engCode_injective {eng eng' : Engine} (h : engCode eng = engCode eng') : eng = eng' :=
  Option.some.inj ((engOfCode_eq_some_iff.2 rfl).symm.trans (engOfCode_eq_some_iff.2 h))

theorem engOfCode_eq_none_iff {c : BitVec 2} : engOfCode c = none ↔ c = 3 := by
  revert c; decide

@[simp] theorem clsBit_clsOfBit (b : Bool) : clsBit (clsOfBit b) = b := by cases b <;> rfl
@[simp] theorem dirBit_dirOfBit (b : Bool) : dirBit (dirOfBit b) = b := by cases b <;> rfl
@[simp] theorem ceBit_ceOfBit (b : Bool) : ceBit (ceOfBit b) = b := by cases b <;> rfl
@[simp] theorem kdfBit_kdfOfBit (b : Bool) : kdfBit (kdfOfBit b) = b := by cases b <;> rfl
@[simp] theorem clsOfBit_clsBit (cls : KeyClass) : clsOfBit (clsBit cls) = cls := by cases cls <;> rfl
@[simp] theorem dirOfBit_dirBit (dir : Direction) : dirOfBit (dirBit dir) = dir := by cases dir <;> rfl
@[simp] theorem ceOfBit_ceBit (ce : CounterOrder) : ceOfBit (ceBit ce) = ce := by cases ce <;> rfl
@[simp] theorem kdfOfBit_kdfBit (kdf : KdfStrategy) : kdfOfBit (kdfBit kdf) = kdf := by cases kdf <;> rfl

theorem kdfBit_eq_true_iff {kdf : KdfStrategy} : kdfBit kdf = true ↔ kdf = .kmac := by cases kdf <;> decide

theorem wellFormed_init_iff {eng : Engine} {cls : KeyClass} {dir : Direction} {ce : CounterOrder} {kdf : KdfStrategy} :
    WellFormed (.init eng cls dir ce kdf) ↔ (kdf = .kmac → eng = .hba) := decide_eq_true_iff

theorem initMod_extractLsb' (eng : Engine) (cls : KeyClass) (dir : Direction) (ce : CounterOrder) (kdf : KdfStrategy) :
    (initMod eng cls dir ce kdf).extractLsb' 6 2 = 0 ∧ (initMod eng cls dir ce kdf).extractLsb' 0 2 = engCode eng := by
  constructor
  · rw [initMod]
    iterate 5 rw [BitVec.extractLsb'_append_eq_of_le (by decide)]
    exact BitVec.extractLsb'_eq_self
  · exact (BitVec.extractLsb'_append_eq_of_add_le (by decide)).trans BitVec.extractLsb'_eq_self

theorem initMod_getLsbD (eng : Engine) (cls : KeyClass) (dir : Direction) (ce : CounterOrder) (kdf : KdfStrategy) :
    (initMod eng cls dir ce kdf).getLsbD 2 = clsBit cls ∧ (initMod eng cls dir ce kdf).getLsbD 3 = dirBit dir ∧
    (initMod eng cls dir ce kdf).getLsbD 4 = ceBit ce ∧ (initMod eng cls dir ce kdf).getLsbD 5 = kdfBit kdf := by
  simp only [initMod, BitVec.getLsbD_append]
  simp

/-- A byte is its parts, cut as R93 cuts MOD. -/
theorem append_initMod_parts (md : Byte) :
    md.extractLsb' 6 2 ++ BitVec.ofBool (md.getLsbD 5) ++ BitVec.ofBool (md.getLsbD 4) ++ BitVec.ofBool (md.getLsbD 3)
      ++ BitVec.ofBool (md.getLsbD 2) ++ md.extractLsb' 0 2 = md := by
  have hbit (i : Nat) : BitVec.ofBool (md.getLsbD i) = md.extractLsb' i 1 := by
    ext j hj
    obtain rfl : j = 0 := by omega
    simp
  simp only [hbit]
  iterate 5 rw [BitVec.extractLsb'_append_extractLsb'_eq_extractLsb' (by rfl)]
  exact BitVec.extractLsb'_eq_self

/-- A byte is INIT's MOD for given arguments exactly when each of its parts is the argument's code. -/
theorem eq_initMod_iff {md : Byte} {eng : Engine} {cls : KeyClass} {dir : Direction} {ce : CounterOrder}
    {kdf : KdfStrategy} :
    md = initMod eng cls dir ce kdf ↔
      md.extractLsb' 6 2 = 0 ∧ md.extractLsb' 0 2 = engCode eng ∧ md.getLsbD 2 = clsBit cls ∧
      md.getLsbD 3 = dirBit dir ∧ md.getLsbD 4 = ceBit ce ∧ md.getLsbD 5 = kdfBit kdf := by
  constructor
  · rintro rfl
    obtain ⟨htop, heng⟩ := initMod_extractLsb' eng cls dir ce kdf
    exact ⟨htop, heng, initMod_getLsbD eng cls dir ce kdf⟩
  · rintro ⟨htop, heng, hcls, hdir, hce, hkdf⟩
    rw [initMod, show 0#2 = md.extractLsb' 6 2 from htop.symm, ← heng, ← hcls, ← hdir, ← hce, ← hkdf]
    exact (append_initMod_parts md).symm

/-- Decoding INIT's MOD byte gives the arguments back. -/
theorem decodeInit_initMod {eng : Engine} {cls : KeyClass} {dir : Direction} {ce : CounterOrder} {kdf : KdfStrategy}
    (h : WellFormed (.init eng cls dir ce kdf)) :
    decodeInit (initMod eng cls dir ce kdf) = .ok (.init eng cls dir ce kdf) := by
  obtain ⟨htop, heng, hcls, hdir, hce, hkdf⟩ := eq_initMod_iff.1 (rfl : initMod eng cls dir ce kdf = _)
  have hallowed : ¬(kdf = .kmac ∧ eng ≠ .hba) := fun hk => hk.2 (wellFormed_init_iff.1 h hk.1)
  simp only [decodeInit, htop, heng, hcls, hdir, hce, hkdf, engOfCode_eq_some_iff.2 rfl, kdfBit_eq_true_iff,
    if_neg hallowed, clsOfBit_clsBit, dirOfBit_dirBit, ceOfBit_ceBit, kdfOfBit_kdfBit]
  rfl

/-- R93's conditions on INIT's MOD, broken. -/
def IllegalInitMod (md : Byte) : Prop :=
  md.extractLsb' 6 2 ≠ 0 ∨ md.extractLsb' 0 2 = 3 ∨ (md.getLsbD 5 = true ∧ md.extractLsb' 0 2 ≠ 1)

/-- What decoding a MOD byte can do: answer the arguments whose MOD byte it is, or find a condition of R93 broken. -/
theorem decodeInit_cases {md : Byte} {r : Except DecodeError Instr} (h : decodeInit md = r) :
    (∃ eng cls dir ce kdf, r = .ok (.init eng cls dir ce kdf) ∧ md = initMod eng cls dir ce kdf) ∨
    (∃ e, r = .error e ∧ IllegalInitMod md) := by
  unfold decodeInit at h
  subst h
  split
  · next htop => exact .inr ⟨_, rfl, .inl htop⟩
  next htop =>
  split
  · next hnone => exact .inr ⟨_, rfl, .inr (.inl (engOfCode_eq_none_iff.1 hnone))⟩
  next eng hsome =>
  have heng := engOfCode_eq_some_iff.1 hsome
  split
  · next hkdf =>
    refine .inr ⟨_, rfl, .inr (.inr ⟨hkdf.1, fun hone => hkdf.2 ?_⟩)⟩
    exact engCode_injective (heng.symm.trans hone)
  · refine .inl ⟨_, _, _, _, _, rfl, eq_initMod_iff.2 ⟨not_not.1 htop, heng, ?_⟩⟩
    simp

/-! ### Decoding is the inverse of encoding (R96) -/

/-- The field MOD of a command's word. -/
def modOf : Instr → Byte
  | .init eng cls dir ce kdf => initMod eng cls dir ce kdf
  | .ldkey _ | .ldnonce _ | .ldinfo _ | .setaad _ | .xform _ | .verify _ | .final | .stnonce | .dispose => 0

/-- The field LEN of a command's word. -/
def lenOf : Instr → BitVec 16
  | .ldkey len | .ldnonce len | .ldinfo len | .setaad len | .xform len | .verify len => len
  | .init .. | .final | .stnonce | .dispose => 0

theorem encodeWord_eq_fieldsWord (i : Instr) : encodeWord i = fieldsWord (opcode i) (modOf i) (lenOf i) := by
  cases i <;> rfl

theorem encodeWord_eq_iff {i : Instr} {cw : Word} :
    encodeWord i = cw ↔ opcField cw = opcode i ∧ modField cw = modOf i ∧ lenField cw = lenOf i := by
  rw [encodeWord_eq_fieldsWord, fieldsWord_eq_iff]

/-- Decoding a legal command's word gives the command back. -/
theorem decodeWord_encodeWord {i : Instr} (h : WellFormed i) : decodeWord (encodeWord i) = .ok i := by
  rw [encodeWord_eq_fieldsWord]
  simp only [decodeWord, opcField_fieldsWord, modField_fieldsWord, lenField_fieldsWord]
  cases i with
  | init eng cls dir ce kdf => exact decodeInit_initMod h
  | _ => rfl

/-! ### The illegal words (R95) -/

/-- R95 in the word's fields. -/
theorem illegalWord_iff_fields {cw : Word} :
    IllegalWord cw ↔
      (opcField cw = 0x00 ∨ 0x0B ≤ opcField cw) ∨ (opcField cw ≠ 0x04 ∧ modField cw ≠ 0) ∨
      ((opcField cw = 0x04 ∨ opcField cw = 0x07 ∨ opcField cw = 0x09 ∨ opcField cw = 0x0A) ∧ lenField cw ≠ 0) ∨
      (opcField cw = 0x04 ∧ IllegalInitMod (modField cw)) := by
  rw [IllegalInitMod, modField_extractLsb' cw (by decide), modField_extractLsb' cw (by decide),
    modField_getLsbD cw (by decide)]
  rfl

/-- The word of a legal command is not illegal. -/
theorem not_illegalWord_encodeWord {i : Instr} (h : WellFormed i) : ¬ IllegalWord (encodeWord i) := by
  rw [illegalWord_iff_fields, encodeWord_eq_fieldsWord, opcField_fieldsWord, modField_fieldsWord, lenField_fieldsWord]
  cases i with
  | init eng cls dir ce kdf =>
    obtain ⟨htop, heng, -, -, -, hkdf⟩ := eq_initMod_iff.1 (rfl : initMod eng cls dir ce kdf = _)
    rw [wellFormed_init_iff] at h
    simp only [opcode, modOf, lenOf, IllegalInitMod, htop, heng, hkdf, kdfBit_eq_true_iff]
    cases eng with
    | hba => simp [engCode]
    | ctr | rcs => simpa [engCode] using h
  | _ => simp [opcode, modOf, lenOf]

/-- What the decoder can do: answer the command whose word it is given, or find the word illegal. -/
theorem decodeWord_cases {cw : Word} {r : Except DecodeError Instr} (h : decodeWord cw = r) :
    (∃ i, r = .ok i ∧ encodeWord i = cw) ∨ (∃ e, r = .error e ∧ IllegalWord cw) := by
  simp only [encodeWord_eq_iff, illegalWord_iff_fields]
  unfold decodeWord at h
  extract_lets opc md len at h
  obtain ⟨hopc, h⟩ | ⟨hinit, h⟩ := ite_eq_iff.1 h
  · obtain ⟨hlen, rfl⟩ | ⟨hlen, h⟩ := ite_eq_iff.1 h
    · exact .inr ⟨_, rfl, .inr (.inr (.inl ⟨.inl hopc, hlen⟩))⟩
    · rcases decodeInit_cases h with ⟨eng, cls, dir, ce, kdf, hr, hmd⟩ | ⟨e, hr, hmd⟩
      · exact .inl ⟨_, hr, hopc, hmd, not_not.1 hlen⟩
      · exact .inr ⟨e, hr, .inr (.inr (.inr ⟨hopc, hmd⟩))⟩
  obtain ⟨hmd, h⟩ | ⟨hmd, h⟩ := ite_eq_iff.1 h
  · obtain ⟨-, rfl⟩ | ⟨-, rfl⟩ := ite_eq_iff.1 h <;> exact .inr ⟨_, rfl, .inr (.inl ⟨hinit, hmd⟩)⟩
  replace hmd : md = 0 := not_not.1 hmd
  iterate 6
    obtain ⟨hopc, rfl⟩ | ⟨hopc, h⟩ := ite_eq_iff.1 h
    · exact .inl ⟨_, rfl, hopc, hmd, rfl⟩
  iterate 3
    obtain ⟨hopc, h⟩ | ⟨hopc, h⟩ := ite_eq_iff.1 h
    · obtain ⟨hlen, rfl⟩ | ⟨hlen, rfl⟩ := ite_eq_iff.1 h
      · exact .inr ⟨_, rfl, .inr (.inr (.inl ⟨by simp [show opcField cw = _ from hopc], hlen⟩))⟩
      · exact .inl ⟨_, rfl, hopc, hmd, not_not.1 hlen⟩
  -- What is left is an opcode outside the map.
  have hrest : opc = 0x00 ∨ 0x0B ≤ opc := by bv_omega
  exact .inr ⟨_, h.symm, .inl hrest⟩

/-- A word that decodes is the encoding of its command. -/
theorem encodeWord_of_decodeWord {cw : Word} {i : Instr} (h : decodeWord cw = .ok i) : encodeWord i = cw := by
  rcases decodeWord_cases h with ⟨j, hj, hcw⟩ | ⟨_, he, -⟩
  · cases hj; exact hcw
  · cases he

/-- The decoder answers a command exactly for the word of a legal command. -/
theorem decodeWord_eq_ok_iff {cw : Word} {i : Instr} : decodeWord cw = .ok i ↔ WellFormed i ∧ encodeWord i = cw :=
  ⟨fun h => ⟨Machine.wellFormed_of_decodeWord h, encodeWord_of_decodeWord h⟩,
    fun ⟨hwf, hcw⟩ => hcw ▸ decodeWord_encodeWord hwf⟩

theorem decodeWord_eq_ok_iff_fields {cw : Word} {i : Instr} :
    decodeWord cw = .ok i ↔ WellFormed i ∧ opcField cw = opcode i ∧ modField cw = modOf i ∧ lenField cw = lenOf i := by
  rw [decodeWord_eq_ok_iff, encodeWord_eq_iff]

/-! ### The rows of the opcode map (R92) -/

/-- A row whose LEN is free: the mask leaves out LEN, and LEN is the operand. -/
theorem decodeWord_eq_ok_iff_of_len {cw : Word} {i : Instr} {opc : Byte} (hwf : WellFormed i) (hopc : opcode i = opc)
    (hmod : modOf i = 0) :
    decodeWord cw = .ok i ↔ cw &&& 0xFFFF0000 = fieldsWord opc 0 0 ∧ lenOf i = cw.extractLsb' 0 16 := by
  rw [decodeWord_eq_ok_iff_fields, and_opcMod_mask_iff, hopc, hmod, and_assoc, eq_comm (a := lenOf i)]
  exact and_iff_right hwf

/-- A row with no free field: the mask is the whole word. -/
theorem decodeWord_eq_ok_iff_of_fixed {cw : Word} {i : Instr} (hwf : WellFormed i) :
    decodeWord cw = .ok i ↔ cw &&& 0xFFFFFFFF = encodeWord i := by
  rw [decodeWord_eq_ok_iff, and_iff_right hwf, eq_comm, show cw &&& 0xFFFFFFFF = cw from BitVec.and_allOnes]

/-- INIT's row: the mask leaves out the six bits of the arguments. -/
theorem decodeWord_eq_ok_init_iff {cw : Word} {eng : Engine} {cls : KeyClass} {dir : Direction} {ce : CounterOrder}
    {kdf : KdfStrategy} :
    decodeWord cw = .ok (.init eng cls dir ce kdf) ↔
      cw &&& 0xFFC0FFFF = fieldsWord 0x04 0 0 ∧ cw.extractLsb' 16 2 = engCode eng ∧ cw.getLsbD 18 = clsBit cls ∧
      cw.getLsbD 19 = dirBit dir ∧ cw.getLsbD 20 = ceBit ce ∧ cw.getLsbD 21 = kdfBit kdf ∧
      (kdf = .kmac → eng = .hba) := by
  rw [decodeWord_eq_ok_iff_fields, wellFormed_init_iff, and_init_mask_iff, modOf, eq_initMod_iff, opcode, lenOf,
    modField_extractLsb' cw (i := 0) (by decide), modField_getLsbD cw (i := 2) (by decide),
    modField_getLsbD cw (i := 3) (by decide), modField_getLsbD cw (i := 4) (by decide),
    modField_getLsbD cw (i := 5) (by decide)]
  tauto

end Sys2Proof

/-! # The statements about the command word (30_encoding.md) -/

namespace Sys2Proof.Safety

open Sys2Proof.Machine

/-- The decoder errs exactly on the illegal words. -/
theorem exists_error_iff_illegalWord {cw : Word} : (∃ e, decodeWord cw = .error e) ↔ IllegalWord cw := by
  constructor
  · rintro ⟨e, h⟩
    rcases decodeWord_cases h with ⟨i, hi, -⟩ | ⟨-, -, hill⟩
    · cases hi
    · exact hill
  · intro h
    cases hd : decodeWord cw with
    | error e => exact ⟨e, rfl⟩
    | ok i =>
      obtain ⟨hwf, rfl⟩ := decodeWord_eq_ok_iff.1 hd
      exact absurd h (not_illegalWord_encodeWord hwf)

/-- Clearing the buffers and taking an error is the whole of a failed command (60_exceptions.md R226). -/
theorem refused_takeError (c : ErrCode) (s : State) : Refused s (takeError c (clearBuffers s)) (errByte c) :=
  ⟨⟨fun _ => rfl, rfl⟩, ⟨rfl, fun _ => rfl⟩, rfl, rfl, rfl⟩

/-- Settles O1: the bytes of a word decode as the word, and the word of a legal command decodes to the command. -/
theorem decodeOfEncodeIsTheCommand : Obligations.DecodeOfEncodeIsTheCommand := by
  intro i rest hwf
  rw [encode, decode_wordBytes, decodeWord_encodeWord hwf]

/-- Settles O2: the decoder answers a command only for the word of that command. -/
theorem encodeOfDecodeIsTheWord : Obligations.EncodeOfDecodeIsTheWord :=
  fun _ _ h => (decodeWord_eq_ok_iff.1 h).symm

/-- Settles O3, row by row: LEN is free in six rows, MOD's arguments in INIT's, nothing in three. -/
theorem opcodeMapMatchAndMask : Obligations.OpcodeMapMatchAndMask := by
  intro cw
  exact ⟨fun len => decodeWord_eq_ok_iff_of_len (i := .ldkey len) (opc := 0x01) rfl rfl rfl,
    fun len => decodeWord_eq_ok_iff_of_len (i := .ldnonce len) (opc := 0x02) rfl rfl rfl,
    fun len => decodeWord_eq_ok_iff_of_len (i := .ldinfo len) (opc := 0x03) rfl rfl rfl,
    fun _ _ _ _ _ => decodeWord_eq_ok_init_iff,
    fun len => decodeWord_eq_ok_iff_of_len (i := .setaad len) (opc := 0x05) rfl rfl rfl,
    fun len => decodeWord_eq_ok_iff_of_len (i := .xform len) (opc := 0x06) rfl rfl rfl,
    decodeWord_eq_ok_iff_of_fixed rfl,
    fun len => decodeWord_eq_ok_iff_of_len (i := .verify len) (opc := 0x08) rfl rfl rfl,
    decodeWord_eq_ok_iff_of_fixed rfl,
    decodeWord_eq_ok_iff_of_fixed rfl⟩

/-- Settles O4: the decoder errs exactly on the illegal words, and a write of one to CMD is the failed command of the
execution frame. -/
theorem illegalWordsFailAndChangeNothingElse : Obligations.IllegalWordsFailAndChangeNothingElse := by
  refine ⟨fun cw => exists_error_iff_illegalWord, fun s cw q hq hill => ?_, .inl (.inl rfl), .inl (.inr (by decide))⟩
  obtain ⟨e, he⟩ := exists_error_iff_illegalWord.2 hill
  have hstep : step s = illegalCommand { s with hostq := q } := by rw [step_command hq, writeCmd_eq, he]
  exact ⟨_, hstep, refused_takeError .cfgIllegal _⟩

/-- Settles O5: the decoder evaluated on each word. -/
theorem sampleWordsDecode : Obligations.SampleWordsDecode :=
  ⟨rfl, rfl, rfl, rfl, rfl, rfl, rfl, rfl, rfl, rfl⟩

end Sys2Proof.Safety

/-! # The counter block as a number (40_ctr_keystream.md R111 to R113) -/

namespace Sys2Proof.Safety

open Sys2Proof.Machine

theorem leNat_lt (C : Bytes) : leNat C < 256 ^ C.length := by
  induction C with
  | nil => simp [leNat]
  | cons b bs ih =>
    have hb : b.toNat < 256 := b.isLt
    rw [leNat, List.length_cons, pow_succ']
    omega

/-- A byte string read from its last byte is the reversed string read from its first. -/
theorem beNat_eq_leNat_reverse (C : Bytes) : beNat C = leNat C.reverse := by
  induction C with
  | nil => rfl
  | cons b bs ih =>
    rw [beNat, ih, List.reverse_cons, leNat_append, leNat_singleton, List.length_reverse]
    ring

/-- IncLE adds one (R112): a byte 0xFF becomes 0 and carries into the rest, any other byte takes the one up. -/
theorem leNat_incLE (C : Bytes) : leNat (incLE C) = (leNat C + 1) % 256 ^ C.length := by
  induction C with
  | nil => rfl
  | cons b bs ih =>
    have hlt := leNat_lt bs
    by_cases hb : b + 1 = 0
    · have hff : b.toNat = 255 := by bv_omega
      have hcarry : b.toNat + 256 * leNat bs + 1 = 256 * (leNat bs + 1) := by omega
      rw [incLE, if_pos hb, leNat, leNat, ih, List.length_cons, hcarry, pow_succ', Nat.mul_mod_mul_left]
      simp
    · have hinc : (b + 1).toNat = b.toNat + 1 := by bv_omega
      have hb' : b.toNat + 1 < 256 := hinc ▸ (b + 1).isLt
      have hfit : b.toNat + 256 * leNat bs + 1 < 256 ^ (b :: bs).length := by
        rw [List.length_cons, pow_succ']
        omega
      rw [incLE, if_neg hb, leNat, leNat, hinc, Nat.mod_eq_of_lt hfit]
      ring

/-- IncBE adds one (R111): it is IncLE from the other end. -/
theorem beNat_incBE (C : Bytes) : beNat (incBE C) = (beNat C + 1) % 256 ^ C.length := by
  rw [beNat_eq_leNat_reverse, incBE, List.reverse_reverse, leNat_incLE, List.length_reverse, beNat_eq_leNat_reverse]

/-- The number of a counter block in the byte order CE selects (R112). -/
def counterNat : CounterOrder → Bytes → Nat
  | .bigEndian => beNat
  | .littleEndian => leNat

theorem counterNat_incCounter (ce : CounterOrder) (C : Bytes) :
    counterNat ce (incCounter ce C) = (counterNat ce C + 1) % 256 ^ C.length := by
  cases ce with
  | bigEndian => exact beNat_incBE C
  | littleEndian => exact leNat_incLE C

theorem counterNat_lt (ce : CounterOrder) (C : Bytes) : counterNat ce C < 256 ^ C.length := by
  cases ce with
  | bigEndian =>
    rw [counterNat, beNat_eq_leNat_reverse, ← List.length_reverse]
    exact leNat_lt _
  | littleEndian => exact leNat_lt C

/-- `k` increments add `k` modulo 256^BL (R113). -/
theorem counterNat_iterate_incCounter (ce : CounterOrder) (C : Bytes) (k : Nat) :
    counterNat ce ((incCounter ce)^[k] C) = (counterNat ce C + k) % 256 ^ C.length := by
  induction k with
  | zero => exact (Nat.mod_eq_of_lt (counterNat_lt ce C)).symm
  | succ k ih =>
    rw [Function.iterate_succ_apply', counterNat_incCounter, length_iterate_incCounter, ih, Nat.mod_add_mod,
      Nat.add_assoc]

/-- Settles O35: the length is kept by the loop, the number by the carry argument read from the other end. -/
theorem bigEndianIncrementAddsOne : Obligations.BigEndianIncrementAddsOne :=
  fun C => ⟨length_incBE C, beNat_incBE C⟩

/-- Settles O36: the increment's number, and `Inc` by the cases of CE. -/
theorem littleEndianIncrementAddsOne : Obligations.LittleEndianIncrementAddsOne :=
  ⟨fun C => ⟨length_incLE C, leNat_incLE C⟩, fun _ => ⟨rfl, rfl⟩⟩

end Sys2Proof.Safety

/-! # `CtrXor` in closed form (40_ctr_keystream.md R114 to R117) -/

namespace Sys2Proof.Machine

/-! ### Byte strings by their bytes -/

theorem bytes_ext {A B : Bytes} (hlen : A.length = B.length) (h : ∀ j < A.length, A.getD j 0 = B.getD j 0) : A = B := by
  refine List.ext_getElem hlen fun j hA hB => ?_
  rw [← List.getD_eq_getElem A 0 hA, ← List.getD_eq_getElem B 0 hB]
  exact h j hA

theorem getD_drop (A : Bytes) (n j : Nat) : (A.drop n).getD j 0 = A.getD (n + j) 0 := by
  simp only [List.getD, List.getElem?_drop]

theorem getD_xorBytes {A B : Bytes} {j : Nat} (hA : j < A.length) (hB : j < B.length) :
    (xorBytes A B).getD j 0 = A.getD j 0 ^^^ B.getD j 0 := by
  simp [xorBytes, List.getD, hA, hB]

/-! ### The keystream block (R114) -/

/-- The engine that makes keystream: RCS's own under RCS, the block cipher under CTR and HBA. -/
theorem getD_ksBlock (E : Engines) (mode : Mode) (ks : KeySchedule) {C : Bytes} {j : Nat} (hj : j < C.length) :
    (ksBlock E mode ks C).getD j 0 =
      if mode.eng = .rcs then E.rcsEncByte mode.cls ks C j else E.bcEncByte ks C j := by
  cases he : mode.eng <;> simp [ksBlock, he, bcEnc, rcsEnc, hj]

theorem ksBlock_of_dir (E : Engines) (mode : Mode) (ks : KeySchedule) (C : Bytes) (d : Direction) :
    ksBlock E { mode with dir := d } ks C = ksBlock E mode ks C := rfl

/-! ### The counter block in CTRB -/

section
variable {s : State} {C : Bytes}

theorem counterBlock_setCounterBlock (hC : C.length = blockLen s) : counterBlock (setCounterBlock s C) = C := by
  rw [counterBlock, blockLen_setCounterBlock, setCounterBlock_ctrb, ← hC, List.take_left]

theorem setCounterBlock_setCounterBlock (hC : C.length = blockLen s) (D : Bytes) :
    setCounterBlock (setCounterBlock s C) D = setCounterBlock s D := by
  have hdrop : (C ++ s.ctrb.drop (blockLen s)).drop (blockLen s) = s.ctrb.drop (blockLen s) := by
    rw [← hC, List.drop_left]
  simp only [setCounterBlock]
  exact congrArg (fun T => { s with ctrb := D ++ T }) hdrop

theorem length_setCounterBlock_ctrb (hc : s.ctrb.length = s.cfg.params.nonceCap) (hC : C.length = blockLen s) :
    (setCounterBlock s C).ctrb.length = s.cfg.params.nonceCap := by
  have := blockLen_le_nonceCap s
  simp only [setCounterBlock_ctrb, List.length_append, List.length_drop]
  omega

theorem getD_setCounterBlock_ctrb (hC : C.length = blockLen s) {j : Nat} (hj : blockLen s ≤ j) :
    (setCounterBlock s C).ctrb.getD j 0 = s.ctrb.getD j 0 := by
  rw [setCounterBlock_ctrb, List.getD_append_right _ _ _ _ (hC ▸ hj), getD_drop, hC, Nat.add_sub_of_le hj]

end

/-! ### How many blocks -/

/-- The two ways to write `ceil(n / BL)` agree. -/
theorem blockCount_eq {bl : Nat} (h : 0 < bl) (n : Nat) :
    blockCount n bl = n / bl + (if n % bl = 0 then 0 else 1) := by
  have hn := Nat.div_add_mod n bl
  have hr := Nat.mod_lt n h
  rw [blockCount, Nat.div_eq_iff h]
  split <;> constructor <;> (rw [Nat.add_mul, Nat.mul_comm (n / bl)]) <;> omega

/-- Whole blocks count by themselves. -/
theorem blockCount_add {bl m : Nat} (h : 0 < bl) (hm : m % bl = 0) (n : Nat) :
    blockCount (m + n) bl = blockCount n bl + m / bl := by
  obtain ⟨q, rfl⟩ := Nat.dvd_of_mod_eq_zero hm
  have hsum : bl * q + n + bl - 1 = n + bl - 1 + bl * q := by omega
  rw [blockCount, blockCount, hsum, Nat.add_mul_div_left _ _ h, Nat.mul_div_cancel_left _ h]

theorem blockCount_of_mod_eq_zero {bl m : Nat} (h : 0 < bl) (hm : m % bl = 0) : blockCount m bl = m / bl := by
  rw [blockCount_eq h, if_pos hm, Nat.add_zero]

/-! ### The loop (R115) -/

/-- Output byte `j` of the loop: the first block makes the bytes below BL, the loop after it the others. -/
theorem getD_ctrBlocks (E : Engines) (mode : Mode) (ks : KeySchedule) {bl : Nat} (hbl : 0 < bl) :
    ∀ (k : Nat) (C X : Bytes) (j : Nat), C.length = bl → X.length ≤ k * bl → j < X.length →
      (ctrBlocks E mode ks bl k C X).1.getD j 0 =
        X.getD j 0 ^^^ (ksBlock E mode ks ((incCounter mode.ce)^[j / bl] C)).getD (j % bl) 0
  | 0, _, _, _, _, hX, hj => by omega
  | k + 1, C, X, j, hC, hX, hj => by
    rw [Nat.add_mul, Nat.one_mul] at hX
    have hY : (xorBytes (X.take bl) (ksBlock E mode ks C)).length = min bl X.length := by simp [hC]
    simp only [ctrBlocks]
    by_cases hlt : j < bl
    · rw [List.getD_append _ _ _ _ (by omega), getD_xorBytes (by simp; omega) (by simpa [hC] using hlt), getD_take,
        if_pos hlt, Nat.div_eq_of_lt hlt, Nat.mod_eq_of_lt hlt, Function.iterate_zero_apply]
    · obtain ⟨i, rfl⟩ := Nat.exists_eq_add_of_le (Nat.le_of_not_lt hlt)
      have hfull : (xorBytes (X.take bl) (ksBlock E mode ks C)).length = bl := by omega
      rw [List.getD_append_right _ _ _ _ (by omega), hfull, Nat.add_sub_cancel_left,
        getD_ctrBlocks E mode ks hbl k _ _ i (by simp [hC]) (by simp; omega) (by simp; omega), getD_drop,
        Nat.add_div_left i hbl, Nat.add_mod_left, Function.iterate_succ_apply]

end Sys2Proof.Machine

namespace Sys2Proof.Safety

open Sys2Proof.Machine

section
variable {s : State}

/-! ### The keystream of a session -/

theorem blocksFor_eq_blockCount (s : State) (n : Nat) : blocksFor s n = blockCount n (blockLen s) :=
  (blockCount_eq (blockLen_pos s) n).symm

theorem length_counterAfter (hc : s.ctrb.length = s.cfg.params.nonceCap) (k : Nat) :
    (counterAfter s k).length = blockLen s :=
  (length_iterate_incCounter _ _ _).trans (length_counterBlock hc)

/-- Keystream byte `j` is a byte of the keystream block of its counter (R114). -/
theorem keystreamByte_eq_getD_ksBlock (E : Engines) (hc : s.ctrb.length = s.cfg.params.nonceCap) (j : Nat) :
    keystreamByte E s j = (ksBlock E s.mode s.ks (counterAfter s (j / blockLen s))).getD (j % blockLen s) 0 := by
  have hj : j % blockLen s < (counterAfter s (j / blockLen s)).length :=
    (Nat.mod_lt j (blockLen_pos s)).trans_eq (length_counterAfter hc _).symm
  rw [getD_ksBlock E _ _ hj]
  cases he : s.mode.eng <;> simp [keystreamByte, he]

@[simp] theorem length_transformed (E : Engines) (s : State) (X : Bytes) : (transformed E s X).length = X.length := by
  simp [transformed]

theorem getD_transformed (E : Engines) (s : State) {X : Bytes} {j : Nat} (hj : j < X.length) :
    (transformed E s X).getD j 0 = X.getD j 0 ^^^ keystreamByte E s j := by
  rw [transformed, getD_map_range, if_pos hj]

/-- The closed form is its own inverse: each byte meets the same keystream byte twice (R117). -/
theorem transformed_transformed (E : Engines) (s : State) (X : Bytes) : transformed E s (transformed E s X) = X := by
  refine bytes_ext (by simp) fun j hj => ?_
  have hX : j < X.length := by simpa using hj
  rw [getD_transformed E s (by simpa using hX), getD_transformed E s hX, BitVec.xor_assoc, BitVec.xor_self,
    BitVec.xor_zero]

/-! ### What `CtrXor` answers and leaves -/

theorem ctrXor_output (E : Engines) (hc : s.ctrb.length = s.cfg.params.nonceCap) (X : Bytes) :
    (ctrXor E s X).1 = transformed E s X := by
  have hlen := length_ctrXor E X hc
  refine bytes_ext (hlen.trans (length_transformed E s X).symm) fun j hj => ?_
  rw [hlen] at hj
  rw [getD_transformed E s hj, keystreamByte_eq_getD_ksBlock E hc]
  exact getD_ctrBlocks E s.mode s.ks (blockLen_pos s) _ _ X j (length_counterBlock hc)
    (le_blockCount_mul _ (blockLen_pos s)) hj

theorem ctrXor_state_eq (E : Engines) (s : State) (X : Bytes) :
    (ctrXor E s X).2 = setCounterBlock s (counterAfter s (blocksFor s X.length)) := by
  rw [ctrXor_state, blocksFor_eq_blockCount]
  rfl

theorem counterBlock_ctrXor (E : Engines) (hc : s.ctrb.length = s.cfg.params.nonceCap) (X : Bytes) :
    counterBlock (ctrXor E s X).2 = counterAfter s (blocksFor s X.length) := by
  rw [ctrXor_state_eq, counterBlock_setCounterBlock (length_counterAfter hc _)]

theorem getD_ctrXor_ctrb (E : Engines) (hc : s.ctrb.length = s.cfg.params.nonceCap) (X : Bytes) {j : Nat}
    (hj : blockLen s ≤ j) : (ctrXor E s X).2.ctrb.getD j 0 = s.ctrb.getD j 0 := by
  rw [ctrXor_state_eq, getD_setCounterBlock_ctrb (length_counterAfter hc _) hj]

theorem length_ctrXor_ctrb (E : Engines) (hc : s.ctrb.length = s.cfg.params.nonceCap) (X : Bytes) :
    (ctrXor E s X).2.ctrb.length = (ctrXor E s X).2.cfg.params.nonceCap := by
  rw [ctrXor_state_eq]
  exact length_setCounterBlock_ctrb hc (length_counterAfter hc _)

/-! ### Continuing after whole blocks (R116) -/

/-- After whole blocks the counter stands where the session's keystream goes on. -/
theorem counterAfter_ctrXor (E : Engines) (hc : s.ctrb.length = s.cfg.params.nonceCap) {A : Bytes}
    (hA : A.length % blockLen s = 0) (k : Nat) :
    counterAfter (ctrXor E s A).2 k = counterAfter s (k + A.length / blockLen s) := by
  rw [counterAfter, counterBlock_ctrXor E hc, blocksFor_eq_blockCount, blockCount_of_mod_eq_zero (blockLen_pos s) hA]
  exact (Function.iterate_add_apply _ _ _ _).symm

theorem keystreamByte_ctrXor (E : Engines) (hc : s.ctrb.length = s.cfg.params.nonceCap) {A : Bytes}
    (hA : A.length % blockLen s = 0) (j : Nat) :
    keystreamByte E (ctrXor E s A).2 j = keystreamByte E s (A.length + j) := by
  obtain ⟨q, hq⟩ := Nat.dvd_of_mod_eq_zero hA
  have hdiv : (A.length + j) / blockLen s = j / blockLen s + A.length / blockLen s := by
    rw [hq, Nat.mul_add_div (blockLen_pos s), Nat.mul_div_cancel_left _ (blockLen_pos s), Nat.add_comm]
  have hmod : (A.length + j) % blockLen s = j % blockLen s := by rw [hq, Nat.mul_add_mod]
  rw [keystreamByte_eq_getD_ksBlock E hc, keystreamByte_eq_getD_ksBlock E (length_ctrXor_ctrb E hc A), hdiv, hmod,
    ← counterAfter_ctrXor E hc hA]
  rfl

theorem transformed_append (E : Engines) (hc : s.ctrb.length = s.cfg.params.nonceCap) {A : Bytes}
    (hA : A.length % blockLen s = 0) (B : Bytes) :
    transformed E s (A ++ B) = transformed E s A ++ transformed E (ctrXor E s A).2 B := by
  refine bytes_ext (by simp) fun j hj => ?_
  rw [length_transformed] at hj
  rw [getD_transformed E s hj]
  by_cases hlt : j < A.length
  · rw [List.getD_append _ _ _ _ hlt, List.getD_append _ _ _ _ (by simpa using hlt), getD_transformed E s hlt]
  · obtain ⟨i, rfl⟩ := Nat.exists_eq_add_of_le (Nat.le_of_not_lt hlt)
    have hi : i < B.length := by simpa using hj
    rw [List.getD_append_right _ _ _ _ (by simp), List.getD_append_right _ _ _ _ (by simp), length_transformed,
      Nat.add_sub_cancel_left, getD_transformed E _ hi, keystreamByte_ctrXor E hc hA]

theorem ctrXor_state_append (E : Engines) (hc : s.ctrb.length = s.cfg.params.nonceCap) {A : Bytes}
    (hA : A.length % blockLen s = 0) (B : Bytes) : (ctrXor E s (A ++ B)).2 = (ctrXor E (ctrXor E s A).2 B).2 := by
  have hcount : blocksFor s (A ++ B).length = blocksFor s B.length + A.length / blockLen s := by
    rw [List.length_append, blocksFor_eq_blockCount, blocksFor_eq_blockCount, blockCount_add (blockLen_pos s) hA]
  have hblocks : blocksFor (ctrXor E s A).2 B.length = blocksFor s B.length := rfl
  rw [ctrXor_state_eq, ctrXor_state_eq E (ctrXor E s A).2, hblocks, counterAfter_ctrXor E hc hA, ← hcount,
    ctrXor_state_eq E s A, setCounterBlock_setCounterBlock (length_counterAfter hc _)]

end

/-! ### The statements -/

/-- Settles O37: output, counter block, the bytes beyond BL and the frame, each by its own lemma. -/
theorem ctrXorInClosedForm : Obligations.CtrXorInClosedForm := fun E s X hc =>
  ⟨ctrXor_output E hc X, counterBlock_ctrXor E hc X, fun _ hj => getD_ctrXor_ctrb E hc X hj, ctrXor_frame E s X⟩

/-- Settles O38: the counter block has been incremented `ceil(n / BL)` times, and each increment adds one. -/
theorem counterAdvancesByTheBlockCount : Obligations.CounterAdvancesByTheBlockCount := by
  intro E s X hc
  have hsum : counterNat s.mode.ce (counterBlock (ctrXor E s X).2) =
      (counterNat s.mode.ce (counterBlock s) + blocksFor s X.length) % 256 ^ blockLen s := by
    rw [counterBlock_ctrXor E hc, counterAfter, counterNat_iterate_incCounter, length_counterBlock hc]
  exact ⟨fun hce => by rwa [hce] at hsum, fun hce => by rwa [hce] at hsum⟩

/-- Settles O39: after whole blocks the second transform goes on with the keystream of the first. -/
theorem ctrXorSplitsAtBlockBoundaries : Obligations.CtrXorSplitsAtBlockBoundaries := by
  intro E s A B hc hA
  refine ⟨?_, ctrXor_state_append E hc hA B⟩
  rw [ctrXor_output E hc, ctrXor_output E hc, ctrXor_output E (length_ctrXor_ctrb E hc A), transformed_append E hc hA]

/-- Settles O40: the closed form is its own inverse, and the final state depends on the input's length only. -/
theorem ctrXorIsAnInvolution : Obligations.CtrXorIsAnInvolution := by
  intro E s X hc
  refine ⟨?_, ?_⟩
  · rw [ctrXor_output E hc, ctrXor_output E hc, transformed_transformed]
  · rw [ctrXor_state_eq, ctrXor_state_eq, length_ctrXor E X hc]

/-- Settles O58: the block's bytes are the engine's, and the choice of the engine does not look at DIR. -/
theorem keystreamBlockIsTheEnginesOutput : Obligations.KeystreamBlockIsTheEnginesOutput := by
  intro E s hc
  have hlen := length_counterBlock hc
  exact ⟨(length_ksBlock E s.mode s.ks _).trans hlen, fun j hj => getD_ksBlock E s.mode s.ks (hj.trans_eq hlen.symm),
    ksBlock_of_dir E s.mode s.ks _⟩

end Sys2Proof.Safety

/-! # CTR sessions (40_ctr_keystream.md R110, R118, R119) -/

namespace Sys2Proof.Machine

/-- INIT's checks pass under the conditions of 44_commands.md R187. -/
theorem firstRaise_initChecks_of_legal {m : Mode} {s : State}
    (hs : (s.cfg.params.variant m.eng m.cls).supported = true)
    (hkdf : m.eng = .hba → kdfSupported s.cfg.params m.kdf = true)
    (hk : s.keyn = (s.cfg.params.variant m.eng m.cls).keyLen)
    (hn : s.nonn = (s.cfg.params.variant m.eng m.cls).blockLen)
    (hi : s.infn ≤ (s.cfg.params.variant m.eng m.cls).infoMax) : firstRaise (initChecks m s) = none := by
  rw [firstRaise_initChecks, if_neg (by simp [hs]), if_neg (by rintro ⟨he, hf⟩; simp [hkdf he] at hf),
    if_neg (not_not.2 hk), if_neg (not_not.2 hn), if_neg (Nat.not_lt.2 hi)]

/-- XFORM's checks pass for an operand of LEN bytes whose output is a response (44_commands.md R189). -/
theorem firstRaise_xformChecks_of_responding {len : BitVec 16} {s : State} {X : Bytes} (hX : X.length = len.toNat)
    (hresp : s.mode.eng = .ctr ∨ s.mode.dir = .encrypt) (hfit : len.toNat ≤ s.cfg.params.obufMax)
    (hmax : s.ctt.toNat + len.toNat < 2 ^ 64) : firstRaise (xformChecks len s X) = none := by
  rw [firstRaise_xformChecks, if_neg (not_not.2 hX), if_neg (fun h => Nat.not_lt.2 hfit h.2), if_neg, if_neg (by omega)]
  rintro ⟨he, hd, -⟩
  rcases hresp with h | h
  · exact he h
  · simp [hd] at h

end Sys2Proof.Machine

namespace Sys2Proof.Safety

open Sys2Proof.Machine

/-- A response that fits, from cleared buffers, is the response the host reads (10_state.md R33). -/
theorem response_respond {s : State} {B : Bytes} (hob : s.obuf = []) (hB : B.length ≤ s.cfg.params.obufMax) :
    Response (respond s B) B := by
  refine ⟨?_, fun a => ?_⟩
  · rw [respond_ocnt, toNat_ofNat_of_le_obufMax hB]
  · rw [respond_obuf, hob, Memory.read_writeBytes_nil]

/-- What XFORM leaves in a CTR session: the closed form as the response, CTT and PHASE counted on, nothing absorbed. -/
theorem exec_xform_ctr {len : BitVec 16} {s : State} (he : s.mode.eng = .ctr) (hp : s.phase = .init ∨ s.phase = .xform)
    (hn : s.icnt = len) (hfit : len.toNat ≤ s.cfg.params.obufMax) (hmax : s.ctt.toNat + len.toNat < 2 ^ 64) :
    exec (.xform len) s = .next (finishCommand (.done (countTransformed len
      (respond (ctrXor engines (clearBuffers s) (operand s)).2 (ctrXor engines (clearBuffers s) (operand s)).1)))) := by
  have ha : admission (.xform len) s = none := admission_xform.2 (by rcases hp with hp | hp <;> simp [he, hp])
  have hX : (operand s).length = len.toNat := by rw [length_operand, hn]
  rw [exec_of_checks ha (firstRaise_xformChecks_of_responding hX (.inl he) hfit hmax)]
  simp only [effectOf, xformEffect, clearBuffers_mode, he]
  rfl

/-- Settles O43: the response and CTRB are those of `CtrXor` on the cleared buffers, which it does not look at. -/
theorem xformCtrSession : Obligations.XformCtrSession := by
  intro len s he hp hn hfit hmax hc
  have hX : (operand s).length = len.toNat := by rw [length_operand, hn]
  have hc' : (clearBuffers s).ctrb.length = (clearBuffers s).cfg.params.nonceCap := hc
  have hout := ctrXor_output engines hc' (operand s)
  have hlen := (length_ctrXor engines (operand s) hc').trans hX
  refine ⟨_, exec_xform_ctr he hp hn hfit hmax, ⟨⟨fun _ => rfl, rfl⟩, rfl⟩, ?_, ?_,
    fun j hj => getD_ctrXor_ctrb engines hc' (operand s) hj, toNat_add_len64 hmax, rfl, rfl⟩
  · rw [operandBytes_eq hn]
    have hresp := response_respond (s := (ctrXor engines (clearBuffers s) (operand s)).2) rfl (hlen.trans_le hfit)
    rw [hout] at hresp ⊢
    exact hresp
  · rw [← hX]
    exact counterBlock_ctrXor engines hc' (operand s)

/-- Settles O30: the checks of INIT pass, and the engine part of a CTR variant loads the key's schedule and the nonce. -/
theorem initCtrSession : Obligations.InitCtrSession := by
  intro cls dir ce kdf s hp hs hk hn hi _
  have ha : admission (.init .ctr cls dir ce kdf) s = none := if_pos hp
  have hchk : firstRaise (initChecks ⟨.ctr, cls, dir, ce, kdf⟩ (clearBuffers s)) = none :=
    firstRaise_initChecks_of_legal hs (by simp) hk hn (by simp [hi])
  have hfit : s.nonn ≤ s.cfg.params.nonceCap := hn.trans_le (Params.blockLen_le_nonceCap ..)
  refine ⟨_, exec_of_checks ha hchk, rfl, rfl, rfl, length_fillArray (Nat.zero_le _),
    fun j => getD_fillArray _ [] j, rfl, length_fillArray ?_, fun j => ?_⟩
  · exact (List.length_take_le _ _).trans hfit
  · exact (getD_fillArray _ _ j).trans (getD_take _ _ j)

end Sys2Proof.Safety

/-! # Starting an authenticated session (41_hba.md R130, R131; 42_rcs.md R150, R151) -/

namespace Sys2Proof.Machine

theorem getD_kdfBytes (E : Engines) (k : KdfStrategy) (key info : Bytes) (n j : Nat) :
    (kdfBytes E k key info n).getD j 0 = if j < n then E.kdfByte k key info n j else 0 :=
  getD_map_range _ n j

end Sys2Proof.Machine

namespace Sys2Proof.Safety

open Sys2Proof.Machine

section
variable {s : State}

theorem length_startSession_mkey (E : Engines) (m : Mode) (s : State) : (startSession E m s).mkey.length = mkeyCap :=
  length_fillArray ((length_sessionMacKey E s.cfg m _ _).trans_le (s.cfg.legal.mkeyLen_le _ _))

theorem getD_startSession_mkey (E : Engines) (m : Mode) (s : State) (j : Nat) : (startSession E m s).mkey.getD j 0 =
    (sessionMacKey E m (s.cfg.params.variant m.eng m.cls) (stagedKey s) (stagedInfo s)).getD j 0 :=
  getD_fillArray ..

theorem length_startSession_ctrb (E : Engines) {m : Mode} (hn : s.nonn = (s.cfg.params.variant m.eng m.cls).blockLen) :
    (startSession E m s).ctrb.length = s.cfg.params.nonceCap :=
  length_fillArray ((List.length_take_le _ _).trans (hn.trans_le (Params.blockLen_le_nonceCap ..)))

theorem getD_startSession_ctrb (E : Engines) (m : Mode) (s : State) (j : Nat) :
    (startSession E m s).ctrb.getD j 0 = if j < s.nonn then s.nonr.getD j 0 else 0 :=
  (getD_fillArray _ _ j).trans (getD_take _ _ j)

/-- The accumulator an authenticated session is primed with has the nonce as its first data. -/
theorem primedMac_of_ne_ctr (E : Engines) {m : Mode} (v : VariantParams) (mk nonce : Bytes) (he : m.eng ≠ .ctr) :
    primedMac E m v mk nonce = some ⟨v.rc, mk, E.cust m.eng m.cls, nonce⟩ := by
  unfold primedMac
  split
  · next h => exact absurd h he
  all_goals rfl

/-- The primed accumulator's key stands in MKEY. -/
theorem startSession_macst (E : Engines) {m : Mode} (s : State) (he : m.eng ≠ .ctr) :
    (startSession E m s).macst = some ⟨(s.cfg.params.variant m.eng m.cls).rc,
      (startSession E m s).mkey.take (s.cfg.params.variant m.eng m.cls).mkeyLen, E.cust m.eng m.cls,
      stagedNonce s⟩ := by
  have hkey : (startSession E m s).mkey.take (s.cfg.params.variant m.eng m.cls).mkeyLen = _ :=
    macKey_startSession E m s
  rw [hkey]
  exact primedMac_of_ne_ctr E _ _ _ he

end

/-- Settles O31: the checks of INIT pass, and the engine part keys the cipher with the key and the accumulator with what
`Kdf` makes of it. -/
theorem initHbaSession : Obligations.InitHbaSession := by
  intro cls dir ce kdf s hp hs hkdf hk hn hi _
  have ha : admission (.init .hba cls dir ce kdf) s = none := if_pos hp
  have hchk : firstRaise (initChecks ⟨.hba, cls, dir, ce, kdf⟩ (clearBuffers s)) = none :=
    firstRaise_initChecks_of_legal hs (fun _ => hkdf) hk hn hi
  exact ⟨_, exec_of_checks ha hchk, rfl, rfl, rfl, length_startSession_mkey engines ⟨.hba, cls, dir, ce, kdf⟩ _,
    fun j => (getD_startSession_mkey ..).trans (getD_kdfBytes ..),
    startSession_macst engines (m := ⟨.hba, cls, dir, ce, kdf⟩) (clearBuffers s) (Engine.noConfusion ·),
    length_startSession_ctrb engines (m := ⟨.hba, cls, dir, ce, kdf⟩) (s := clearBuffers s) hn,
    getD_startSession_ctrb engines ⟨.hba, cls, dir, ce, kdf⟩ (clearBuffers s)⟩

end Sys2Proof.Safety

/-! # SETAAD in chunks (41_hba.md R133, 42_rcs.md R153) -/

namespace Sys2Proof.Safety

open Sys2Proof.Machine

/-- A command that leaves ERR at 0 was admitted, passed its checks and had its effect. -/
theorem exec_succeeded {i : Instr} {s t : State} (h : exec i s = .next t) (herr : t.err = 0) :
    admission i s = none ∧ firstRaise (checksOf i (clearBuffers s) (operand s)) = none ∧
      t = finishCommand (effectOf i (clearBuffers s) (operand s)) := by
  rcases exec_cases h with ⟨c, -, rfl⟩ | ⟨c, -, -, rfl⟩ | hdone
  · exact absurd herr (errByte_ne_zero c)
  · exact absurd herr (errByte_ne_zero c)
  · exact hdone

/-- An operand of LEN bytes: ICNT is LEN. -/
theorem icnt_of_length_operand {len : BitVec 16} {s : State} (h : (operand s).length = len.toNat) : s.icnt = len :=
  BitVec.eq_of_toNat_eq ((length_operand s).symm.trans h)

/-- SETAAD's success, in the terms of 44_commands.md R188. -/
theorem exec_setaad_succeeded {len : BitVec 16} {s t : State} (h : exec (.setaad len) s = .next t) (herr : t.err = 0) :
    s.mode.eng ≠ .ctr ∧ (s.phase = .init ∨ s.phase = .aad) ∧ s.icnt = len ∧
      s.aadt.toNat + len.toNat ≤ (sessionVariant s).aadMax ∧
      t = finishCommand (.done (absorbAad len (operand s) (clearBuffers s))) := by
  obtain ⟨ha, hc, ht⟩ := exec_succeeded h herr
  obtain ⟨he, hp⟩ := admission_setaad.1 ha
  obtain ⟨hmax, hlen⟩ := boundChecks_eq_none hc
  exact ⟨he, hp, icnt_of_length_operand hlen, not_lt.1 hmax, ht⟩

/-- SETAAD under the conditions of 44_commands.md R188. -/
theorem exec_setaad {len : BitVec 16} {s : State} (he : s.mode.eng ≠ .ctr) (hp : s.phase = .init ∨ s.phase = .aad)
    (hn : s.icnt = len) (hmax : s.aadt.toNat + len.toNat ≤ (sessionVariant s).aadMax) :
    exec (.setaad len) s = .next (finishCommand (.done (absorbAad len (operand s) (clearBuffers s)))) := by
  have hX : (operand s).length = len.toNat := by rw [length_operand, hn]
  have hchk : firstRaise (checksOf (.setaad len) (clearBuffers s) (operand s)) = none := by
    rw [checksOf, firstRaise_decide, sessionVariant_clearBuffers, clearBuffers_aadt, if_neg (not_lt.2 hmax),
      firstRaise_operandCheck, if_neg (not_not.2 hX), firstRaise_nil]
  exact exec_of_checks (admission_setaad.2 ⟨he, hp⟩) hchk

theorem len64_add {a b : BitVec 16} (h : a.toNat + b.toNat < 65536) : len64 (a + b) = len64 a + len64 b := by
  apply BitVec.eq_of_toNat_eq
  simp only [len64, BitVec.toNat_setWidth, BitVec.toNat_add, BitVec.toNat_add_of_lt h]
  omega

/-- Absorbing in two chunks is absorbing the concatenation: the accumulator by R7, AADT by the sum of the lengths. -/
theorem absorbAad_absorbAad {a b : BitVec 16} (h : a.toNat + b.toNat < 65536) (A B : Bytes) (s : State) :
    absorbAad b B (absorbAad a A s) = absorbAad (a + b) (A ++ B) s := by
  simp only [absorbAad, macAbsorb_append, len64_add h, BitVec.add_assoc]

/-- Settles O34: the bound the second SETAAD has passed is the whole one's, and the two effects are one absorption. -/
theorem setaadChunksConcatenate : Obligations.SetaadChunksConcatenate := by
  intro len1 len2 s t1 s2 t2 s3 t3 hlt h1 herr1 hs2 h2 herr2 hs3 hn hcat h3
  obtain ⟨he, hp, hn1, hmax1, ht1⟩ := exec_setaad_succeeded h1 herr1
  obtain ⟨-, -, hn2, hmax2, ht2⟩ := exec_setaad_succeeded h2 herr2
  have hclear2 : clearBuffers s2 = t1 := by
    rw [congrArg clearBuffers hs2, ht1]
    rfl
  obtain ⟨I, n, rfl⟩ : ∃ I n, s3 = { s with ibuf := I, icnt := n } := ⟨_, _, hs3⟩
  have hsum := BitVec.toNat_add_of_lt hlt
  rw [← hsum, operandBytes_eq hn, operandBytes_eq hn1, operandBytes_eq hn2] at hcat
  have haadt : (s.aadt + len64 len1).toNat = s.aadt.toNat + len1.toNat :=
    toNat_add_len64 (hmax1.trans_lt (s.cfg.legal.aadMax_lt _ _))
  have hmax : s.aadt.toNat + (len1 + len2).toNat ≤ (sessionVariant s).aadMax := by
    rw [← clearBuffers_aadt s2, ← sessionVariant_clearBuffers s2, hclear2, ht1] at hmax2
    rw [hsum, ← Nat.add_assoc, ← haadt]
    exact hmax2
  rw [exec_setaad (s := { s with ibuf := I, icnt := n }) he hp hn hmax, hcat, ← absorbAad_absorbAad hlt] at h3
  cases h3
  rw [ht2, hclear2, ht1]
  exact ⟨rfl, rfl⟩

end Sys2Proof.Safety

/-! # XFORM of an authenticated session (41_hba.md R135, R136; 42_rcs.md R154) -/

namespace Sys2Proof.Machine

/-- XFORM's checks pass for an operand of LEN bytes whose output is withheld (44_commands.md R189). -/
theorem firstRaise_xformChecks_of_withholding {len : BitVec 16} {s : State} {X : Bytes} (hX : X.length = len.toNat)
    (he : s.mode.eng ≠ .ctr) (hd : s.mode.dir = .decrypt) (hfit : s.hcnt.toNat + len.toNat ≤ s.cfg.params.obufMax)
    (hmax : s.ctt.toNat + len.toNat < 2 ^ 64) : firstRaise (xformChecks len s X) = none := by
  rw [firstRaise_xformChecks, if_neg (not_not.2 hX), if_neg (by simp [he, hd]),
    if_neg (fun h => Nat.not_lt.2 hfit h.2.2), if_neg (by omega)]

theorem absorbedBytes_of_ne_ctr (E : Engines) {s : State} (X : Bytes) (he : s.mode.eng ≠ .ctr) :
    absorbedBytes E s X = ciphertextOf s.mode.dir X (ctrXor E s X).1 := by
  unfold absorbedBytes
  split
  · next h => exact absurd h he
  all_goals rfl

end Sys2Proof.Machine

namespace Sys2Proof.Safety

open Sys2Proof.Machine

/-- An accumulator after XFORM has the ciphertext appended. -/
theorem afterTransform_macst (E : Engines) {s : State} {m : MacState} (X : Bytes)
    (hc : s.ctrb.length = s.cfg.params.nonceCap) (he : s.mode.eng ≠ .ctr) (hm : s.macst = some m) :
    (afterTransform E s X).macst =
      some { m with msg := m.msg ++ ciphertextOf s.mode.dir X (transformed E s X) } := by
  rw [afterTransform, absorbedBytes_of_ne_ctr E X he, hm, ctrXor_output E hc]
  rfl

section
variable {len : BitVec 16} {s : State}

/-- XFORM once admitted and checked, as a state. -/
theorem exec_xform (ha : admission (.xform len) s = none)
    (hchk : firstRaise (xformChecks len (clearBuffers s) (operand s)) = none) :
    exec (.xform len) s = .next (finishCommand (.done (xformEffect engines len (clearBuffers s) (operand s)))) :=
  exec_of_checks ha hchk

theorem admission_xform_authenticated (he : s.mode.eng ≠ .ctr) (hp : s.phase = .aad ∨ s.phase = .xform) :
    admission (.xform len) s = none :=
  admission_xform.2 (.inr (hp.imp_left fun hp => ⟨he, hp⟩))

/-- XFORM of an encrypting HBA or RCS session, as a state. -/
theorem exec_xform_encrypting (he : s.mode.eng ≠ .ctr) (hd : s.mode.dir = .encrypt)
    (hp : s.phase = .aad ∨ s.phase = .xform) (hX : (operand s).length = len.toNat)
    (hfit : len.toNat ≤ s.cfg.params.obufMax) (hmax : s.ctt.toNat + len.toNat < 2 ^ 64)
    (hc : s.ctrb.length = s.cfg.params.nonceCap) :
    exec (.xform len) s = .next (finishCommand (.done (countTransformed len
      (respond (afterTransform engines (clearBuffers s) (operand s)) (transformed engines s (operand s)))))) := by
  have hout : (ctrXor engines (clearBuffers s) (operand s)).1 = transformed engines s (operand s) :=
    ctrXor_output engines (s := clearBuffers s) hc _
  rw [exec_xform (admission_xform_authenticated he hp) (firstRaise_xformChecks_of_responding hX (.inr hd) hfit hmax),
    xformEffect_eq_respond engines len (s := clearBuffers s) _ (.inr hd), hout]

/-- XFORM of a decrypting HBA or RCS session, as a state. -/
theorem exec_xform_decrypting (he : s.mode.eng ≠ .ctr) (hd : s.mode.dir = .decrypt)
    (hp : s.phase = .aad ∨ s.phase = .xform) (hX : (operand s).length = len.toNat)
    (hfit : s.hcnt.toNat + len.toNat ≤ s.cfg.params.obufMax) (hmax : s.ctt.toNat + len.toNat < 2 ^ 64)
    (hc : s.ctrb.length = s.cfg.params.nonceCap) :
    exec (.xform len) s = .next (finishCommand (.done (countTransformed len
      (withhold (afterTransform engines (clearBuffers s) (operand s)) (transformed engines s (operand s)))))) := by
  have hout : (ctrXor engines (clearBuffers s) (operand s)).1 = transformed engines s (operand s) :=
    ctrXor_output engines (s := clearBuffers s) hc _
  rw [exec_xform (admission_xform_authenticated he hp) (firstRaise_xformChecks_of_withholding hX he hd hfit hmax),
    xformEffect_eq_withhold engines len (s := clearBuffers s) _ he hd, hout]

/-- Where XFORM leaves the counter block. -/
theorem counterBlock_afterTransform (E : Engines) (hc : s.ctrb.length = s.cfg.params.nonceCap) (X : Bytes) :
    counterBlock (afterTransform E s X) = counterAfter s (blocksFor s X.length) :=
  counterBlock_ctrXor E hc X

end

/-- Settles O44: the output is the response and the ciphertext the accumulator is extended by. -/
theorem xformEncryptingSession : Obligations.XformEncryptingSession := by
  intro len s m he hd hp hm hn hfit hmax hc
  have hX : (operand s).length = len.toNat := by rw [length_operand, hn]
  have hmac := afterTransform_macst engines (s := clearBuffers s) (operand s) hc he hm
  have hresp := response_respond (s := afterTransform engines (clearBuffers s) (operand s))
    (B := transformed engines s (operand s)) rfl (by rw [length_transformed, hX]; exact hfit)
  have hctr := counterBlock_afterTransform engines (s := clearBuffers s) hc (operand s)
  rw [clearBuffers_mode, hd] at hmac
  rw [hX] at hctr
  rw [operandBytes_eq hn]
  exact ⟨_, exec_xform_encrypting he hd hp hX hfit hmax hc, ⟨⟨fun _ => rfl, rfl⟩, rfl⟩, hresp, hmac, hctr,
    fun j hj => getD_ctrXor_ctrb engines (s := clearBuffers s) hc _ hj, toNat_add_len64 hmax, rfl, rfl⟩

/-- Settles O45: the operand is what the accumulator is extended by, and the output goes to HOLD. -/
theorem xformDecryptingSession : Obligations.XformDecryptingSession := by
  intro len s m he hd hp hm hn hfit hmax hc hwf
  have hX : (operand s).length = len.toNat := by rw [length_operand, hn]
  have hY : (transformed engines s (operand s)).length = len.toNat := (length_transformed ..).trans hX
  have hmac := afterTransform_macst engines (s := clearBuffers s) (operand s) hc he hm
  have hcnt := toNat_withhold_hcnt (s := afterTransform engines (clearBuffers s) (operand s))
    (B := transformed engines s (operand s)) (by rw [hY]; exact hfit)
  have hhold := fun a => Memory.read_writeBytes (transformed engines s (operand s)) s.hcnt.toNat a hwf
  have hctr := counterBlock_afterTransform engines (s := clearBuffers s) hc (operand s)
  rw [clearBuffers_mode, hd] at hmac
  rw [hX] at hctr
  rw [hY] at hcnt
  simp only [hY] at hhold
  rw [operandBytes_eq hn]
  exact ⟨_, exec_xform_decrypting he hd hp hX hfit hmax hc, ⟨⟨fun _ => rfl, rfl⟩, rfl⟩, ⟨rfl, fun _ => rfl⟩, hmac,
    hcnt, hhold, hctr, fun j hj => getD_ctrXor_ctrb engines (s := clearBuffers s) hc _ hj, toNat_add_len64 hmax, rfl,
    rfl⟩

end Sys2Proof.Safety

/-! # The round trip of an authenticated session (41_hba.md R139, 42_rcs.md R157) -/

namespace Sys2Proof.Machine

/-- A block read is the byte string whose bytes stand there. -/
theorem Memory.readBytes_eq_of_read {M : Memory} {B : Bytes} {n : Nat} (hn : n = B.length)
    (h : ∀ j < n, Memory.read M j = B.getD j 0) : Memory.readBytes M 0 n = B := by
  refine bytes_ext (by simp [hn]) fun j hj => ?_
  rw [Memory.length_readBytes] at hj
  rw [Memory.readBytes_eq_map, getD_map_range, if_pos hj, Nat.zero_add, h j hj]

theorem ctAcc_self (acc : Byte) (A : Bytes) : ctAcc acc A A = acc := by
  induction A generalizing acc with
  | nil => rfl
  | cons a A ih => rw [ctAcc, ih, BitVec.xor_self, BitVec.or_zero]

/-- The comparator accepts a tag compared with itself (43_tag_compare.md R170). -/
theorem ctEq_self (A : Bytes) : ctEq A A = true := by rw [ctEq, ctAcc_self]; rfl

end Sys2Proof.Machine

namespace Sys2Proof.Safety

open Sys2Proof.Machine

section
variable {s t : State} {m : MacState}

/-! ### The tag: FINAL produces it, VERIFY accepts it -/

theorem tagCompute_eq_tagOf (E : Engines) (hm : s.macst = some m) : (tagCompute E s).1 = tagOf E s m := by
  rw [tagCompute, hm]
  rfl

@[simp] theorem length_tagOf (E : Engines) (s : State) (m : MacState) :
    (tagOf E s m).length = (sessionVariant s).tagLen := by
  simp [tagOf]

/-- FINAL answers the tag of the transcript (43_tag_compare.md R172). -/
theorem response_final (he : s.mode.eng ≠ .ctr) (hd : s.mode.dir = .encrypt)
    (hp : s.phase = .aad ∨ s.phase = .xform) (hm : s.macst = some m) (h : exec .final s = .next t) :
    Response t (tagOf engines s m) := by
  have htag : (tagCompute engines (clearBuffers s)).1 = tagOf engines s m := tagCompute_eq_tagOf engines hm
  have hfit : (tagOf engines s m).length ≤ s.cfg.params.obufMax := by
    rw [length_tagOf]; exact s.cfg.legal.tagLen_le_obuf _ _
  have hresp := response_respond (s := (tagCompute engines (clearBuffers s)).2) rfl hfit
  rw [exec_of_checks (admission_final.2 ⟨he, hd, hp⟩) rfl] at h
  cases h
  rw [← htag] at hresp ⊢
  exact hresp

/-- The released plaintext is what HOLD holds (43_tag_compare.md R174). -/
theorem response_releasePlaintext (hob : s.obuf = []) :
    Response (releasePlaintext s) (Memory.readBytes s.hold 0 s.hcnt.toNat) := by
  refine ⟨(Memory.length_readBytes ..).symm, fun a => ?_⟩
  rw [releasePlaintext, hob, Memory.read_writeBytes_nil]

/-- VERIFY of the tag of the transcript releases what is withheld (43_tag_compare.md R174). -/
theorem verify_tagOf {len : BitVec 16} (he : s.mode.eng ≠ .ctr) (hd : s.mode.dir = .decrypt)
    (hp : s.phase = .aad ∨ s.phase = .xform) (hm : s.macst = some m) (hn : s.icnt = len)
    (htag : operand s = tagOf engines s m) (h : exec (.verify len) s = .next t) :
    t.err = 0 ∧ t.authok = true ∧ t.phase = .final ∧ Response t (Memory.readBytes s.hold 0 s.hcnt.toNat) := by
  have hX : (operand s).length = len.toNat := by rw [length_operand, hn]
  have hlen : len.toNat = (sessionVariant s).tagLen := by rw [← hX, htag, length_tagOf]
  have hchk : firstRaise (checksOf (.verify len) (clearBuffers s) (operand s)) = none := by
    rw [checksOf, firstRaise_operandCheck, firstRaise_decide, sessionVariant_clearBuffers, if_neg (not_not.2 hX),
      if_neg (not_not.2 hlen), firstRaise_nil]
  have hcmp : (tagCompute engines (clearBuffers s)).1 = operand s := (tagCompute_eq_tagOf engines hm).trans htag.symm
  rw [exec_of_checks (admission_verify.2 ⟨he, hd, hp⟩) hchk, effectOf, compareTag, hcmp, ctEq_self] at h
  cases h
  exact ⟨rfl, rfl, rfl, response_releasePlaintext (s := (tagCompute engines (clearBuffers s)).2) rfl⟩

/-- What a host copies byte by byte out of a response is the response. -/
theorem Response.readBytes {B : Bytes} (h : Response t B) : Memory.readBytes t.obuf 0 t.ocnt.toNat = B :=
  Memory.readBytes_eq_of_read h.1 fun j _ => h.2 j

end

/-! ### Two sessions that differ in DIR -/

/-- What keystream and transcript depend on, the same in two sessions of opposite directions (41_hba.md R139). -/
structure Twins (se sd : State) : Prop where
  mode : sd.mode = { se.mode with dir := .decrypt }
  cfg : sd.cfg = se.cfg
  ks : sd.ks = se.ks
  ctrb : sd.ctrb = se.ctrb

section
variable {se sd : State}

theorem Twins.sessionVariant (h : Twins se sd) : sessionVariant sd = sessionVariant se := by
  rw [Machine.sessionVariant, h.mode, h.cfg, Machine.sessionVariant]

/-- DIR does not enter the transform (40_ctr_keystream.md R117). -/
theorem Twins.transformed (h : Twins se sd) (E : Engines) (X : Bytes) : transformed E sd X = transformed E se X := by
  have hbl : blockLen sd = blockLen se := congrArg VariantParams.blockLen h.sessionVariant
  have hctr : ∀ k, counterAfter sd k = counterAfter se k := fun k => by
    rw [counterAfter, counterAfter, counterBlock, counterBlock, h.mode, h.ctrb, hbl]
  have hks : ∀ j, keystreamByte E sd j = keystreamByte E se j := fun j => by
    rw [keystreamByte, keystreamByte, h.mode, h.ks, hbl, hctr]
  simp only [Safety.transformed, hks]

/-- DIR does not enter the tag (43_tag_compare.md R171). -/
theorem tagOf_congr (hv : sessionVariant sd = sessionVariant se) (haadt : sd.aadt = se.aadt) (hctt : sd.ctt = se.ctt)
    (E : Engines) (m : MacState) : tagOf E sd m = tagOf E se m := by
  rw [tagOf, tagOf, hv, haadt, hctt]

end

/-! ### The two transforms of the round trip -/

section
variable {len : BitVec 16} {s t : State} {m : MacState}

@[simp] theorem length_operandBytes (s : State) (n : Nat) : (operandBytes s n).length = n := by simp [operandBytes]

/-- An encrypting XFORM that succeeded: its bounds held, and it left what O44 says. -/
theorem xform_encrypting_succeeded (he : s.mode.eng ≠ .ctr) (hd : s.mode.dir = .encrypt)
    (hp : s.phase = .aad ∨ s.phase = .xform) (hm : s.macst = some m) (hc : s.ctrb.length = s.cfg.params.nonceCap)
    (h : exec (.xform len) s = .next t) (herr : t.err = 0) :
    len.toNat ≤ s.cfg.params.obufMax ∧ s.ctt.toNat + len.toNat < 2 ^ 64 ∧
      Response t (transformed engines s (operandBytes s len.toNat)) ∧
      t.macst = some { m with msg := m.msg ++ transformed engines s (operandBytes s len.toNat) } ∧
      t.ctt.toNat = s.ctt.toNat + len.toNat ∧ t.phase = .xform ∧
      t.mode = s.mode ∧ t.cfg = s.cfg ∧ t.aadt = s.aadt := by
  obtain ⟨-, hchk, -⟩ := exec_succeeded h herr
  obtain ⟨hX, hfit, -, hmax⟩ := xformChecks_eq_none hchk
  obtain ⟨_, ht, -, hresp, hmac, -, -, hctt, hphase, hframe⟩ :=
    xformEncryptingSession len s m he hd hp hm (icnt_of_length_operand hX) (hfit (.inr hd)) hmax hc
  cases h.symm.trans ht
  exact ⟨hfit (.inr hd), hmax, hresp, hmac, hctt, hphase, (congrArg State.mode hframe :),
    (congrArg State.cfg hframe :), (congrArg State.aadt hframe :)⟩

/-- The first decrypting XFORM of a session: HOLD holds its output and nothing before it. -/
theorem xform_decrypting_first (he : s.mode.eng ≠ .ctr) (hd : s.mode.dir = .decrypt)
    (hp : s.phase = .aad ∨ s.phase = .xform) (hm : s.macst = some m) (hc : s.ctrb.length = s.cfg.params.nonceCap)
    (hn : s.icnt = len) (hcnt : s.hcnt = 0) (hwf : Memory.wf s.hold = true) (hfit : len.toNat ≤ s.cfg.params.obufMax)
    (hmax : s.ctt.toNat + len.toNat < 2 ^ 64) (h : exec (.xform len) s = .next t) :
    t.ocnt = 0 ∧ Memory.readBytes t.hold 0 t.hcnt.toNat = transformed engines s (operandBytes s len.toNat) ∧
      t.macst = some { m with msg := m.msg ++ operandBytes s len.toNat } ∧
      t.ctt.toNat = s.ctt.toNat + len.toNat ∧ t.phase = .xform ∧
      t.mode = s.mode ∧ t.cfg = s.cfg ∧ t.aadt = s.aadt := by
  have hnone : s.hcnt.toNat = 0 := by rw [hcnt]; rfl
  have hroom : s.hcnt.toNat + len.toNat ≤ s.cfg.params.obufMax := by rwa [hnone, Nat.zero_add]
  obtain ⟨_, ht, -, hsilent, hmac, htcnt, hhold, -, -, hctt, hphase, hframe⟩ :=
    xformDecryptingSession len s m he hd hp hm hn hroom hmax hc hwf
  cases h.symm.trans ht
  rw [hnone] at htcnt hhold
  have hheld : Memory.readBytes t.hold 0 t.hcnt.toNat = transformed engines s (operandBytes s len.toNat) := by
    refine Memory.readBytes_eq_of_read (by simp [htcnt]) fun j hj => ?_
    rw [hhold, if_pos ⟨Nat.zero_le _, htcnt ▸ hj⟩, Nat.sub_zero]
  exact ⟨BitVec.eq_of_toNat_eq hsilent.1, hheld, hmac, hctt, hphase, (congrArg State.mode hframe :),
    (congrArg State.cfg hframe :), (congrArg State.aadt hframe :)⟩

end

/-- Settles O57: both directions absorb the one ciphertext, so the tags agree; and the decrypting transform undoes the
encrypting one, so what VERIFY releases is the plaintext. -/
theorem encryptThenDecryptGivesThePlaintextBack : Obligations.EncryptThenDecryptGivesThePlaintextBack := by
  intro len se sd te tf td sv tv m he hd hp hm hc hmode hphase hcfg hks hctrb hmac haadt hctt hhcnt hwf
    hte herr htf hn hread htd hsv htv
  have htwins : Twins se sd := ⟨hmode, hcfg, hks, hctrb⟩
  have hed : sd.mode.eng ≠ .ctr := by rw [hmode]; exact he
  have hdd : sd.mode.dir = .decrypt := by rw [hmode]
  obtain ⟨hfit, hmax, hsent, htemac, htectt, htephase, htemode, htecfg, hteaadt⟩ :=
    xform_encrypting_succeeded he hd hp hm hc hte herr
  obtain ⟨hsilent, hheld, htdmac, htdctt, htdphase, htdmode, htdcfg, htdaadt⟩ :=
    xform_decrypting_first hed hdd (by rwa [hphase]) (hmac.trans hm) (by rwa [hctrb, hcfg]) hn hhcnt hwf (by rwa [hcfg])
      (by rwa [hctt]) htd
  have hcipher : operandBytes sd len.toNat = transformed engines se (operandBytes se len.toNat) := by
    rw [operandBytes_eq hn, operand, hn]
    exact Memory.readBytes_eq_of_read (by simp) fun j hj => (hread j hj).trans (hsent.2 j)
  rw [hcipher] at htdmac hheld
  have hplain : Memory.readBytes td.hold 0 td.hcnt.toNat = operandBytes se len.toNat := by
    rw [hheld, htwins.transformed, transformed_transformed]
  have hvar : sessionVariant td = sessionVariant te := by
    rw [sessionVariant, sessionVariant, htdmode, htdcfg, htemode, htecfg]
    exact htwins.sessionVariant
  have htags := tagOf_congr hvar (htdaadt.trans (haadt.trans hteaadt.symm))
    (BitVec.eq_of_toNat_eq (by rw [htdctt, htectt, hctt])) engines
  have hsentTag := response_final (htemode ▸ he) (htemode ▸ hd) (.inr htephase) htemac htf
  subst hsv
  obtain ⟨hverr, hauth, hfinal, hreleased⟩ := verify_tagOf (s := { td with ibuf := tf.obuf, icnt := tf.ocnt })
    (htdmode ▸ hed) (htdmode ▸ hdd) (.inr htdphase) htdmac rfl (hsentTag.readBytes.trans (htags _).symm) htv
  exact ⟨hsilent, hverr, hauth, hfinal, hplain ▸ hreleased⟩

end Sys2Proof.Safety

/-! # RCS sessions (42_rcs.md R150, R151, R155) -/

namespace Sys2Proof.Machine

theorem getD_rcsMacKey (E : Engines) (cls : KeyClass) (key info : Bytes) (n j : Nat) :
    (rcsMacKey E cls key info n).getD j 0 = if j < n then E.rcsMacKeyByte cls key info j else 0 :=
  getD_map_range _ n j

/-- INIT from phase UNINIT with its checks passed starts the session (44_commands.md R187). -/
theorem exec_init {m : Mode} {s : State} (hp : s.phase = .uninit)
    (hchk : firstRaise (initChecks m (clearBuffers s)) = none) :
    exec (.init m.eng m.cls m.dir m.ce m.kdf) s =
      .next (finishCommand (.done (startSession engines m (clearBuffers s)))) :=
  exec_of_checks (i := .init m.eng m.cls m.dir m.ce m.kdf) (if_pos hp) hchk

/-- The fused transform of any session: its blocks cover the whole input, so what it absorbs is the whole ciphertext
(42_rcs.md R155). -/
theorem rcsXor_eq_ctrXor (E : Engines) (s : State) (X : Bytes) :
    rcsXor E s X = ((ctrXor E s X).1, { (ctrXor E s X).2 with
      macst := macAbsorb s.macst (ciphertextOf s.mode.dir X (ctrXor E s X).1) }) := by
  have hX : X.take (blockCount X.length (blockLen s) * blockLen s) = X :=
    List.take_of_length_le (le_blockCount_mul _ (blockLen_pos s))
  simp only [rcsXor, rcsBlocks_eq_ctrBlocks, hX]
  rfl

end Sys2Proof.Machine

namespace Sys2Proof.Safety

open Sys2Proof.Machine

/-- Settles O32: the checks of INIT pass, and the engine part takes schedule and MAC key from `RcsExpand`, its key and
info the staged ones. -/
theorem initRcsSession : Obligations.InitRcsSession := by
  intro cls dir ce kdf s hp hs hk hn hi _
  let m : Mode := ⟨.rcs, cls, dir, ce, kdf⟩
  have hchk : firstRaise (initChecks m (clearBuffers s)) = none :=
    firstRaise_initChecks_of_legal hs (Engine.noConfusion ·) hk hn hi
  exact ⟨_, exec_init (m := m) hp hchk, rfl, rfl, rfl, length_startSession_mkey engines m _,
    fun j => (getD_startSession_mkey engines m _ j).trans (getD_rcsMacKey ..),
    startSession_macst engines (m := m) (clearBuffers s) (Engine.noConfusion ·),
    length_startSession_ctrb engines (m := m) (s := clearBuffers s) hn,
    getD_startSession_ctrb engines m (clearBuffers s)⟩

/-- Settles O41: the two loops give the same output and counter block, and absorbing block by block is absorbing the
whole ciphertext. -/
theorem fusedTransformEqualsLayered : Obligations.FusedTransformEqualsLayered := fun E s X =>
  Prod.ext_iff.1 (rcsXor_eq_ctrXor E s X)

end Sys2Proof.Safety

/-! # The comparator and what VERIFY reveals (43_tag_compare.md R170, R176) -/

namespace Sys2Proof.Machine

/-- The accumulator never loses a set bit, so it ends at 0 only if it starts there and no byte pair differs. -/
theorem ctAcc_eq_zero_iff {acc : Byte} {A B : Bytes} (h : A.length = B.length) :
    ctAcc acc A B = 0 ↔ acc = 0 ∧ A = B := by
  induction A generalizing acc B with
  | nil =>
    obtain rfl := List.eq_nil_of_length_eq_zero h.symm
    simp [ctAcc]
  | cons a A ih =>
    cases B with
    | nil => cases h
    | cons b B =>
      have hbyte : acc ||| (a ^^^ b) = 0 ↔ acc = 0 ∧ a = b :=
        BitVec.or_eq_zero_iff.trans (and_congr_right' BitVec.xor_eq_zero_iff)
      rw [ctAcc, ih (Nat.succ.inj h), hbyte, List.cons.injEq, and_assoc]

theorem ctEq_iff {A B : Bytes} (h : A.length = B.length) : ctEq A B = true ↔ A = B := by
  rw [ctEq, beq_iff_eq, ctAcc_eq_zero_iff h, and_iff_right rfl]

section
variable {E : Engines} {s : State} {R R' : Bytes}

/-- The received tag enters VERIFY's outcome through the comparator's answer alone (43_tag_compare.md R173). -/
theorem compareTag_congr (h : ctEq (tagCompute E s).1 R = ctEq (tagCompute E s).1 R') :
    compareTag E s R = compareTag E s R' := by
  rw [compareTag, h, compareTag]

/-- A comparison's code tells the comparator's answer (43_tag_compare.md R174, R175). -/
theorem err_compareTag_eq_zero_iff :
    (finishCommand (compareTag E s R)).err = 0 ↔ ctEq (tagCompute E s).1 R = true := by
  rcases compareTag_cases E s R with ⟨heq, hend⟩ | ⟨hne, hend⟩ <;> rw [hend]
  · simp [heq]
  · simp [hne, errByte]

/-- Comparisons of one state that end with the same code end in the same state. -/
theorem finishCommand_compareTag_congr
    (h : (finishCommand (compareTag E s R)).err = (finishCommand (compareTag E s R')).err) :
    finishCommand (compareTag E s R) = finishCommand (compareTag E s R') := by
  have hbit : ctEq (tagCompute E s).1 R = ctEq (tagCompute E s).1 R' := by
    rw [Bool.eq_iff_iff, ← err_compareTag_eq_zero_iff, ← err_compareTag_eq_zero_iff, h]
  rw [compareTag_congr hbit]

end

/-- VERIFY's checks look at the operand's length only (44_commands.md R191). -/
theorem checksOf_verify_congr {X X' : Bytes} (h : X'.length = X.length) (len : BitVec 16) (s : State) :
    checksOf (.verify len) s X' = checksOf (.verify len) s X := by
  simp only [checksOf, operandCheck, h]

end Sys2Proof.Machine

namespace Sys2Proof.Safety

open Sys2Proof.Machine

/-- Settles O46: the accumulator starts at 0 and keeps every bit in which a byte pair differs (`ctAcc_eq_zero_iff`). -/
theorem comparatorIsEquality : Obligations.ComparatorIsEquality := fun _ _ => ctEq_iff

/-- Settles O50: the operand's length decides the checks, so both runs take the same one of the three outcomes; the
buffers are cleared before each of them, and at the comparison the operand leaves one bit, which the code tells. -/
theorem verifyRevealsOnlyEquality : Obligations.VerifyRevealsOnlyEquality := by
  intro len s s' t t' hs h h' herr
  obtain ⟨M, rfl⟩ : ∃ M, s' = { s with ibuf := M } := ⟨_, hs⟩
  have hadm : admission (.verify len) { s with ibuf := M } = admission (.verify len) s := rfl
  have hlen : (operand { s with ibuf := M }).length = (operand s).length := by simp
  have hchk := checksOf_verify_congr hlen len (clearBuffers s)
  rcases exec_cases h with ⟨c, ha, rfl⟩ | ⟨c, ha, hc, rfl⟩ | ⟨ha, hc, rfl⟩
  · rw [exec_of_admission (hadm.trans ha)] at h'
    cases h'
    rfl
  · rw [exec_of_raise (hadm.trans ha) ((congrArg firstRaise hchk).trans hc)] at h'
    cases h'
    rfl
  · rw [exec_of_checks (hadm.trans ha) ((congrArg firstRaise hchk).trans hc)] at h'
    cases h'
    exact finishCommand_compareTag_congr herr

end Sys2Proof.Safety

/-! # Admission as the spec's tables (44_commands.md R181) -/

namespace Sys2Proof.Safety

open Sys2Proof.Machine

/-! ### The columns -/

theorem sessionAllows_iff (i : Instr) (m : Mode) : sessionAllows i m = true ↔ EngineAndDirColumn i m.eng m.dir := by
  cases i with
  | setaad | xform | final | verify => cases he : m.eng <;> simp [sessionAllows, EngineAndDirColumn, he]
  | ldkey | ldnonce | ldinfo | init | stnonce | dispose => simp [sessionAllows, EngineAndDirColumn]

theorem phaseAllows_iff (i : Instr) (e : Engine) (p : Phase) : phaseAllows i e p = true ↔ PhaseColumn i e p := by
  cases i with
  | xform => cases e <;> simp [phaseAllows, PhaseColumn]
  | ldkey | ldnonce | ldinfo | init | setaad | final | verify | stnonce | dispose =>
    simp [phaseAllows, PhaseColumn, or_assoc]

/-! ### Which code admission raises -/

section
variable {i : Instr} {s : State}

theorem admission_of_session (hi : SessionCommand i) : admission i s = admitSession i s := by
  cases i with
  | setaad | xform | final | verify | stnonce => rfl
  | ldkey | ldnonce | ldinfo | init | dispose => cases hi

/-- The loads, INIT and DISPOSE are judged by the phase alone. -/
theorem admission_of_no_session (hi : ¬ SessionCommand i) :
    admission i s = if phaseAllows i s.mode.eng s.phase then none else some .seqPhase := by
  cases i with
  | setaad | xform | final | verify | stnonce => exact absurd trivial hi
  | ldkey | ldnonce | ldinfo | init => simp [admission, phaseAllows]
  | dispose => rfl

theorem admitSession_eq_seqMode : admitSession i s = some .seqMode ↔
    s.phase ≠ .uninit ∧ ¬ EngineAndDirColumn i s.mode.eng s.mode.dir := by
  rw [← sessionAllows_iff, admitSession]
  by_cases hp : s.phase = .uninit
  · simp [hp]
  · cases sessionAllows i s.mode <;> simp [hp]

theorem admitSession_eq_seqPhase : admitSession i s = some .seqPhase ↔
    s.phase = .uninit ∨ (EngineAndDirColumn i s.mode.eng s.mode.dir ∧ ¬ PhaseColumn i s.mode.eng s.phase) := by
  rw [← sessionAllows_iff, ← phaseAllows_iff, admitSession]
  by_cases hp : s.phase = .uninit
  · simp [hp]
  · cases sessionAllows i s.mode <;> simp [hp]

theorem admission_eq_seqMode : admission i s = some .seqMode ↔
    SessionCommand i ∧ s.phase ≠ .uninit ∧ ¬ EngineAndDirColumn i s.mode.eng s.mode.dir := by
  by_cases hi : SessionCommand i
  · rw [admission_of_session hi, admitSession_eq_seqMode, and_iff_right hi]
  · rw [admission_of_no_session hi]
    simp [hi]

theorem admission_eq_seqPhase : admission i s = some .seqPhase ↔
    (SessionCommand i ∧ (s.phase = .uninit ∨
      (EngineAndDirColumn i s.mode.eng s.mode.dir ∧ ¬ PhaseColumn i s.mode.eng s.phase))) ∨
    (¬ SessionCommand i ∧ ¬ PhaseColumn i s.mode.eng s.phase) := by
  by_cases hi : SessionCommand i
  · rw [admission_of_session hi, admitSession_eq_seqPhase]
    simp [hi]
  · rw [admission_of_no_session hi, ← phaseAllows_iff]
    simp [hi]

/-! ### Admission through the code a command ends with -/

theorem errByte_eq_seqPhase_iff {c : ErrCode} : errByte c = 0x20 ↔ c = .seqPhase := by cases c <;> decide

theorem errByte_eq_seqMode_iff {c : ErrCode} : errByte c = 0x21 ↔ c = .seqMode := by cases c <;> decide

/-- The checks have configuration and buffer codes: the sequence codes are admission's, code 0x30 VERIFY's outcome. -/
theorem code_of_mem_checksOf {X : Bytes} :
    ∀ p ∈ checksOf i s X, p.2 ≠ .seqPhase ∧ p.2 ≠ .seqMode ∧ p.2 ≠ .authFail := by
  cases i with
  | ldkey | ldnonce | ldinfo | setaad | verify => simp [checksOf, operandCheck]
  | init => simp [checksOf, initChecks]
  | xform => simp [checksOf, xformChecks, operandCheck]
  | final | stnonce | dispose => simp [checksOf]

theorem code_of_check {X : Bytes} {c : ErrCode} (h : firstRaise (checksOf i s X) = some c) :
    c ≠ .seqPhase ∧ c ≠ .seqMode ∧ c ≠ .authFail :=
  code_of_mem_checksOf _ (firstRaise_mem h)

/-- Code 0x30 is VERIFY's; every other effect ends with 0x00. -/
theorem err_effectOf (i : Instr) (s : State) (X : Bytes) :
    (finishCommand (effectOf i s X)).err = 0 ∨
      (finishCommand (effectOf i s X)).err = 0x30 ∧ ∃ len, i = .verify len := by
  by_cases hv : ∀ len, i ≠ .verify len
  · obtain ⟨t, ht⟩ := effectOf_done i s X hv
    rw [ht]
    exact .inl rfl
  · obtain ⟨len, rfl⟩ := not_forall_not.1 hv
    rcases compareTag_cases engines s X with ⟨-, hend⟩ | ⟨-, hend⟩ <;> rw [effectOf, hend]
    · exact .inl rfl
    · exact .inr ⟨rfl, len, rfl⟩

/-- A command ends with 0x20 or 0x21 exactly when admission raises it. -/
theorem err_eq_seq_iff_admission {t : State} (h : exec i s = .next t) :
    (t.err = 0x20 ↔ admission i s = some .seqPhase) ∧ (t.err = 0x21 ↔ admission i s = some .seqMode) := by
  rcases exec_cases h with ⟨c, ha, rfl⟩ | ⟨c, ha, hc, rfl⟩ | ⟨ha, -, rfl⟩
  · rw [takeError_err, errByte_eq_seqPhase_iff, errByte_eq_seqMode_iff, ha, Option.some_inj, Option.some_inj]
    exact ⟨.rfl, .rfl⟩
  · obtain ⟨hphase, hmode, -⟩ := code_of_check hc
    rw [takeError_err, errByte_eq_seqPhase_iff, errByte_eq_seqMode_iff, ha]
    simp [hphase, hmode]
  · rcases err_effectOf i (clearBuffers s) (operand s) with herr | ⟨herr, -⟩ <;> simp [herr, ha]

end

/-- Settles O20: the two codes are admission's alone, and admission raises them by the columns of the table. -/
theorem admissionTable : Obligations.AdmissionTable := by
  intro i s t h
  obtain ⟨hphase, hmode⟩ := err_eq_seq_iff_admission h
  exact ⟨hmode.trans admission_eq_seqMode, hphase.trans admission_eq_seqPhase⟩

/-! ### What every command ends with -/

theorem effectOf_xform (len : BitVec 16) (s : State) (X : Bytes) :
    effectOf (.xform len) s X = .done (xformEffect engines len s X) := rfl

/-- From cleared buffers every effect leaves the operand buffer empty (10_state.md R32). -/
theorem operandCleared_effectOf (i : Instr) (s : State) (X : Bytes) :
    OperandCleared (finishCommand (effectOf i (clearBuffers s) X)) := by
  cases i with
  | xform len =>
    rw [effectOf_xform, xformEffect_frame]
    exact ⟨fun _ => rfl, rfl⟩
  | verify len =>
    rcases compareTag_cases engines (clearBuffers s) X with ⟨-, hend⟩ | ⟨-, hend⟩ <;> rw [effectOf, hend]
    · exact ⟨fun _ => rfl, rfl⟩
    · exact ⟨fun _ => rfl, rfl⟩
  | ldkey | ldnonce | ldinfo | init | setaad | final | stnonce | dispose => exact ⟨fun _ => rfl, rfl⟩

theorem err_or_esticky_finishCommand (e : Ending) :
    (finishCommand e).err = 0 ∨ (finishCommand e).esticky = true := by
  cases e with
  | done => exact .inl rfl
  | authFailed => exact .inr rfl

/-- Settles O18: each of the three outcomes of a command is a next state, with the buffers cleared before it. -/
theorem everyCommandIsTotal : Obligations.EveryCommandIsTotal := by
  intro i s
  have h := exec_eq_next i s
  refine ⟨_, h, ?_, ?_, exec_keeps_host h⟩
  · rcases exec_cases h with ⟨c, -, ht⟩ | ⟨c, -, -, ht⟩ | ⟨-, -, ht⟩ <;> rw [ht]
    · exact ⟨fun _ => rfl, rfl⟩
    · exact ⟨fun _ => rfl, rfl⟩
    · exact operandCleared_effectOf i s (operand s)
  · rcases exec_cases h with ⟨c, -, ht⟩ | ⟨c, -, -, ht⟩ | ⟨-, -, ht⟩ <;> rw [ht]
    · exact .inr rfl
    · exact .inr rfl
    · exact err_or_esticky_finishCommand _

/-! ### The phase after a command (44_commands.md R182) -/

section
variable {i : Instr} {s t : State}

theorem admission_stnonce : admission .stnonce s = none ↔
    s.mode.eng = .rcs ∧ (s.phase = .init ∨ s.phase = .aad ∨ s.phase = .xform ∨ s.phase = .final) := by
  rw [admission, admitSession_eq_none]
  cases hp : s.phase <;> simp [sessionAllows, phaseAllows]

/-- An admitted command goes along a row of the transition table, but for VERIFY's tags-unequal outcome. -/
theorem transition_effectOf {X : Bytes} (ha : admission i s = none) (herr : (finishCommand (effectOf i s X)).err = 0) :
    Transition i s.mode.eng s.phase (finishCommand (effectOf i s X)).phase := by
  cases i with
  | ldkey | ldnonce | ldinfo =>
    have hp : s.phase = .uninit := by simpa [admission] using ha
    exact ⟨hp, hp⟩
  | init =>
    have hp : s.phase = .uninit := by simpa [admission] using ha
    exact ⟨hp, rfl⟩
  | setaad => exact ⟨(admission_setaad.1 ha).2, rfl⟩
  | xform len =>
    have hp := admission_xform.1 ha
    refine ⟨by tauto, (congrArg State.phase (xformEffect_frame engines len s X) :)⟩
  | final => exact ⟨(admission_final.1 ha).2.2, rfl⟩
  | verify =>
    rcases compareTag_cases engines s X with ⟨-, hend⟩ | ⟨-, hend⟩ <;> rw [effectOf, hend] at herr ⊢
    · exact ⟨(admission_verify.1 ha).2.2, rfl⟩
    · cases herr
  | stnonce => exact ⟨(admission_stnonce.1 ha).2, rfl⟩
  | dispose => rfl

/-- A comparison that ends with code 0x30 has poisoned the session (43_tag_compare.md R175). -/
theorem phase_of_authFailed {X : Bytes} (herr : (finishCommand (compareTag engines s X)).err = 0x30) :
    (finishCommand (compareTag engines s X)).phase = .failed := by
  rcases compareTag_cases engines s X with ⟨-, hend⟩ | ⟨-, hend⟩ <;> rw [hend] at herr ⊢
  · cases herr
  · rfl

theorem errByte_eq_authFail_iff {c : ErrCode} : errByte c = 0x30 ↔ c = .authFail := by cases c <;> decide

/-- A command is refused with another code than 0x30, or it is admitted and has its effect. -/
theorem exec_refused_or_effect (h : exec i s = .next t) :
    (∃ c, c ≠ .authFail ∧ t = takeError c (clearBuffers s)) ∨
    (admission i s = none ∧ t = finishCommand (effectOf i (clearBuffers s) (operand s))) := by
  rcases exec_cases h with ⟨c, ha, rfl⟩ | ⟨c, -, hc, rfl⟩ | ⟨ha, -, rfl⟩
  · exact .inl ⟨c, by rcases admission_code ha with rfl | rfl <;> simp, rfl⟩
  · exact .inl ⟨c, (code_of_check hc).2.2, rfl⟩
  · exact .inr ⟨ha, rfl⟩

end

/-- Settles O21: a refusal has neither code 0x00 nor 0x30 and keeps the phase; an effect goes along the table. -/
theorem phaseTransitions : Obligations.PhaseTransitions := by
  intro i s t h
  rcases exec_refused_or_effect h with ⟨c, hne, rfl⟩ | ⟨ha, rfl⟩
  · exact ⟨fun h0 => absurd h0 (errByte_ne_zero c), fun h30 => absurd (errByte_eq_authFail_iff.1 h30) hne,
      fun _ _ => rfl⟩
  · have hcode := err_effectOf i (clearBuffers s) (operand s)
    have ha' := (admission_clearBuffers i s).trans ha
    refine ⟨transition_effectOf ha', fun h30 => ?_, fun h0 h30 => ?_⟩
    · obtain ⟨-, len, rfl⟩ := hcode.resolve_left (by rw [h30]; decide)
      exact ⟨⟨len, rfl⟩, (admission_verify.1 ha).2.2, phase_of_authFailed h30⟩
    · exact absurd (hcode.resolve_left h0).1 h30

section
variable {i : Instr} {s t : State}

/-- A finished session admits DISPOSE and, in phase FINAL under RCS, STNONCE. -/
theorem admission_of_finished (hp : s.phase = .failed ∨ s.phase = .final) (hi : i ≠ .dispose)
    (ha : admission i s = none) : i = .stnonce ∧ s.mode.eng = .rcs ∧ s.phase = .final := by
  cases i with
  | ldkey | ldnonce | ldinfo | init => rcases hp with hp | hp <;> simp [admission, hp] at ha
  | setaad | xform | final | verify =>
    rcases hp with hp | hp <;> simp [admission_setaad, admission_xform, admission_final, admission_verify, hp] at ha
  | stnonce =>
    obtain ⟨he, hrow⟩ := admission_stnonce.1 ha
    exact ⟨rfl, he, hp.resolve_left (by rintro hf; simp [hf] at hrow)⟩
  | dispose => exact absurd rfl hi

/-- A command that is not admitted ends with 0x20 or 0x21 and changes nothing else. -/
theorem refused_of_admission (h : exec i s = .next t) (ha : admission i s ≠ none) :
    Refused s t 0x20 ∨ Refused s t 0x21 := by
  obtain ⟨c, hc⟩ := Option.ne_none_iff_exists'.1 ha
  cases (exec_of_admission hc).symm.trans h
  rcases admission_code hc with rfl | rfl
  · exact .inl (refused_takeError .seqPhase s)
  · exact .inr (refused_takeError .seqMode s)

end

/-- Settles O22: FAILED admits no command but DISPOSE, FINAL besides only STNONCE under RCS, which has no check. -/
theorem finishedSessionsAdmitOnlyDisposal : Obligations.FinishedSessionsAdmitOnlyDisposal := by
  intro i s t h hi
  refine ⟨fun hp => refused_of_admission h fun ha => ?_, fun hp => ?_⟩
  · exact absurd (hp.symm.trans (admission_of_finished (.inl hp) hi ha).2.2) (by simp)
  · by_cases ha : admission i s = none
    · obtain ⟨rfl, he, -⟩ := admission_of_finished (.inr hp) hi ha
      cases (exec_of_checks ha rfl).symm.trans h
      exact .inl ⟨rfl, he, rfl⟩
    · exact .inr (refused_of_admission h ha)

end Sys2Proof.Safety

/-! # The rule of one command: its checks in order, then its effect (44_commands.md R180, R183) -/

namespace Sys2Proof.Safety

open Sys2Proof.Machine

/-- The command ends with the code raised, if there is one, and otherwise as `Q` says. -/
def RaiseOr (s t : State) (raised : Option ErrCode) (Q : Prop) : Prop :=
  match raised with
  | some c => Refused s t (errByte c)
  | none => Q

section
variable {s t : State}

/-- One check in front of others: the first raise wins. -/
theorem RaiseOr.check {p Q R : Prop} [Decidable p] {c : ErrCode} {rest : Option ErrCode}
    (h : RaiseOr s t (if p then some c else rest) Q) (hR : RaiseOr s t rest Q → R) :
    if p then Refused s t (errByte c) else R := by
  split at h
  · next hp => rw [if_pos hp]; exact h
  · next hp => rw [if_neg hp]; exact hR h

/-- The last check of a list. -/
theorem RaiseOr.lastCheck {p Q R : Prop} [Decidable p] {c : ErrCode} (h : RaiseOr s t (if p then some c else none) Q)
    (hR : Q → R) : if p then Refused s t (errByte c) else R :=
  h.check hR

/-- A command, its admission and its checks written as conditions: it is refused by the first that is violated, or it has
its effect. -/
theorem exec_rule {i : Instr} {P : State → Prop} {adm chk : Option ErrCode} (hadm : admission i s = adm)
    (hchk : firstRaise (checksOf i (clearBuffers s) (operand s)) = chk)
    (h : ∀ t, RaiseOr s t adm (RaiseOr s t chk
      (admission i s = none ∧ firstRaise (checksOf i (clearBuffers s) (operand s)) = none ∧
        t = finishCommand (effectOf i (clearBuffers s) (operand s)))) → P t) :
    ∃ t, exec i s = .next t ∧ P t := by
  refine ⟨_, exec_eq_next i s, h _ ?_⟩
  rw [← hadm, ← hchk]
  rcases exec_cases (exec_eq_next i s) with ⟨c, ha, ht⟩ | ⟨c, ha, hc, ht⟩ | ⟨ha, hc, ht⟩ <;> rw [ht, ha]
  · exact refused_takeError c s
  · rw [hc]; exact refused_takeError c s
  · rw [hc]; exact ⟨rfl, rfl, rfl⟩

/-! ### Admission and checks as conditions -/

/-- Admission of a load or of INIT. -/
theorem admission_eq_of_uninit {i : Instr}
    (h : admission i s = if s.phase = .uninit then none else some .seqPhase) :
    admission i s = if s.phase ≠ .uninit then some .seqPhase else none := by rw [h, ite_not]

/-- Admission of a session command whose columns are the conditions `p` and `q`. -/
theorem admitSession_eq {i : Instr} {p q : Prop} [Decidable p] [Decidable q] (hp : sessionAllows i s.mode = true ↔ ¬ p)
    (hq : s.phase ≠ .uninit → (phaseAllows i s.mode.eng s.phase = true ↔ ¬ q)) :
    admitSession i s =
      if s.phase = .uninit then some .seqPhase else if p then some .seqMode else if q then some .seqPhase else none := by
  rw [admitSession]
  by_cases hu : s.phase = .uninit
  · simp [hu]
  · rw [if_neg hu, if_neg hu]
    simp only [Bool.not_eq_true', ← Bool.not_eq_true, hp, hq hu, not_not]

/-- A bound on LEN, then the operand's length: the checks of the loads and of SETAAD. -/
theorem firstRaise_boundChecks (p : Prop) [Decidable p] (c : ErrCode) (s : State) (len : BitVec 16) :
    firstRaise [(decide p, c), operandCheck (operand s) len] =
      if p then some c else if s.icnt ≠ len then some .bufIn else none := by
  simp only [firstRaise_decide, firstRaise_operandCheck, firstRaise_nil, length_operand_ne]

end

end Sys2Proof.Safety

/-! # Loading the arguments (44_commands.md R184 to R186) -/

namespace Sys2Proof.Safety

open Sys2Proof.Machine

section
variable {len : BitVec 16} {s : State} {cap : Nat}

/-- A staging register after its load: the operand and zeros after it. -/
theorem fillArray_operand (hX : (operand s).length = len.toNat) (hfit : len.toNat ≤ cap) :
    (fillArray cap (operand s)).length = cap ∧
      ∀ j, (fillArray cap (operand s)).getD j 0 = if j < len.toNat then Memory.read s.ibuf j else 0 := by
  refine ⟨length_fillArray (hX.trans_le hfit), fun j => ?_⟩
  rw [getD_fillArray, getD_operand, ← length_operand, hX]

theorem toNat_ne_zero_iff : len.toNat ≠ 0 ↔ len ≠ 0 := by simp [← BitVec.toNat_inj]

/-- The rule the three loads share: admitted in UNINIT, a bound `p` on LEN with its own code, the operand's length, and
then a staging register of `cap` bytes filled with the operand. -/
theorem exec_load {i : Instr} {p : Prop} [Decidable p] {c : ErrCode} {P : State → Prop}
    (hadm : admission i s = if s.phase = .uninit then none else some .seqPhase)
    (hchk : checksOf i (clearBuffers s) (operand s) = [(decide p, c), operandCheck (operand s) len])
    (hcap : ¬ p → len.toNat ≤ cap)
    (h : ¬ p → (fillArray cap (operand s)).length = cap →
      (∀ j, (fillArray cap (operand s)).getD j 0 = if j < len.toNat then Memory.read s.ibuf j else 0) →
      P (finishCommand (effectOf i (clearBuffers s) (operand s)))) :
    ∃ t, exec i s = .next t ∧
      if s.phase ≠ .uninit then Refused s t 0x20
      else if p then Refused s t (errByte c)
      else if s.icnt ≠ len then Refused s t 0x40
      else P t := by
  refine exec_rule (admission_eq_of_uninit hadm) ((congrArg firstRaise hchk).trans (firstRaise_boundChecks ..))
    fun t hr => ?_
  refine hr.lastCheck fun hr => hr.check fun hr => hr.lastCheck ?_
  rintro ⟨-, hpassed, rfl⟩
  obtain ⟨hbound, hX⟩ := boundChecks_eq_none (hchk ▸ hpassed)
  obtain ⟨hlength, hbytes⟩ := fillArray_operand hX (hcap hbound)
  exact h hbound hlength hbytes

end

/-- Settles O26: LDKEY is a load with KEYR for its register; LEN is not 0, so KLD is set. -/
theorem ldkeyRule : Obligations.LdkeyRule := fun len s =>
  exec_load (i := .ldkey len) (c := .cfgKeyLen) (cap := s.cfg.params.keyCap) rfl rfl
    (fun hbound => Nat.le_of_not_lt (not_or.1 hbound).2) fun hbound hlength hbytes =>
      ⟨⟨⟨fun _ => rfl, rfl⟩, rfl⟩, ⟨rfl, fun _ => rfl⟩, rfl,
        (keyLoaded_iff _).2 (toNat_ne_zero_iff.2 (not_or.1 hbound).1), hlength, hbytes, rfl⟩

/-- Settles O27: LDNONCE is a load with NONR for its register; LEN is not 0, so NLD is set. -/
theorem ldnonceRule : Obligations.LdnonceRule := fun len s =>
  exec_load (i := .ldnonce len) (c := .cfgNonceLen) (cap := s.cfg.params.nonceCap) rfl rfl
    (fun hbound => Nat.le_of_not_lt (not_or.1 hbound).2) fun hbound hlength hbytes =>
      ⟨⟨⟨fun _ => rfl, rfl⟩, rfl⟩, ⟨rfl, fun _ => rfl⟩, rfl,
        (nonceLoaded_iff _).2 (toNat_ne_zero_iff.2 (not_or.1 hbound).1), hlength, hbytes, rfl⟩

/-- Settles O28: LDINFO is a load with INFR for its register, whose bound admits LEN = 0. -/
theorem ldinfoRule : Obligations.LdinfoRule := fun len s =>
  exec_load (i := .ldinfo len) (c := .cfgInfoLen) (cap := s.cfg.params.infoCap) rfl rfl Nat.le_of_not_lt
    fun _ hlength hbytes => ⟨⟨⟨fun _ => rfl, rfl⟩, rfl⟩, ⟨rfl, fun _ => rfl⟩, rfl,
      (infoLoaded_iff _).trans toNat_ne_zero_iff, hlength, hbytes, rfl⟩

end Sys2Proof.Safety

/-! # Starting and feeding a session: INIT, SETAAD, XFORM (44_commands.md R187 to R189) -/

namespace Sys2Proof.Safety

open Sys2Proof.Machine

/-- Settles O29: past the checks of `firstRaise_initChecks` INIT consumes the staging registers and starts the session. -/
theorem initChecksAndConsumesTheArguments : Obligations.InitChecksAndConsumesTheArguments := by
  intro eng cls dir ce kdf s
  refine exec_rule (admission_eq_of_uninit rfl) (firstRaise_initChecks ⟨eng, cls, dir, ce, kdf⟩ _) fun t h => ?_
  refine h.lastCheck fun h => h.check fun h => h.check fun h => h.check fun h => h.check fun h => h.lastCheck ?_
  rintro ⟨-, -, rfl⟩
  exact ⟨⟨⟨fun _ => rfl, rfl⟩, rfl⟩, ⟨rfl, fun _ => rfl⟩, rfl, rfl,
    getD_zeros _, length_zeros _, rfl, getD_zeros _, length_zeros _, rfl, getD_zeros _, length_zeros _, rfl,
    rfl, rfl, fun _ => rfl, rfl, rfl, rfl⟩

section
variable {len : BitVec 16} {s : State}

theorem admission_setaad_eq : admission (.setaad len) s =
    if s.phase = .uninit then some .seqPhase else if s.mode.eng = .ctr then some .seqMode
    else if s.phase ≠ .init ∧ s.phase ≠ .aad then some .seqPhase else none :=
  admitSession_eq (by simp [sessionAllows]) fun _ => by simp [phaseAllows, or_iff_not_imp_left]

/-- XFORM is admitted under every engine, in the phases of the engine's row. -/
theorem admission_xform_eq : admission (.xform len) s =
    if s.phase = .uninit then some .seqPhase
    else if s.mode.eng = .ctr ∧ s.phase ≠ .init ∧ s.phase ≠ .xform then some .seqPhase
    else if s.mode.eng ≠ .ctr ∧ s.phase ≠ .aad ∧ s.phase ≠ .xform then some .seqPhase else none := by
  cases he : s.mode.eng <;> cases hp : s.phase <;> simp [admission, admitSession, sessionAllows, phaseAllows, he, hp]

theorem firstRaise_xformChecks_operand : firstRaise (xformChecks len (clearBuffers s) (operand s)) =
    if s.icnt ≠ len then some .bufIn
    else if (s.mode.eng = .ctr ∨ s.mode.dir = .encrypt) ∧ s.cfg.params.obufMax < len.toNat then some .bufOut
    else if s.mode.eng ≠ .ctr ∧ s.mode.dir = .decrypt ∧ s.cfg.params.obufMax < s.hcnt.toNat + len.toNat then some .bufOut
    else if 2 ^ 64 ≤ s.ctt.toNat + len.toNat then some .bufTotal
    else none := by
  rw [firstRaise_xformChecks]
  simp only [length_operand_ne]
  rfl

end

/-- Settles O33: past its checks SETAAD absorbs the operand, and the bound of 0x14 keeps AADT from wrapping. -/
theorem setaadRule : Obligations.SetaadRule := by
  intro len s
  refine exec_rule admission_setaad_eq (firstRaise_boundChecks ..) fun t h => ?_
  refine h.check fun h => h.check fun h => h.lastCheck fun h => h.check fun h => h.lastCheck ?_
  rintro ⟨-, hchk, rfl⟩
  obtain ⟨hmax, hX⟩ := boundChecks_eq_none hchk
  have hlt : s.aadt.toNat + len.toNat < 2 ^ 64 := (not_lt.1 hmax).trans_lt (s.cfg.legal.aadMax_lt _ _)
  refine ⟨⟨⟨fun _ => rfl, rfl⟩, rfl⟩, ⟨rfl, fun _ => rfl⟩, rfl, toNat_add_len64 hlt, fun m hm => ?_, rfl⟩
  rw [operandBytes_eq (icnt_of_length_operand hX)]
  exact congrArg (macAbsorb · (operand s)) hm

/-- Settles O42: past its checks XFORM writes what `xformEffect_frame` lists, and the bound of 0x42 keeps CTT from
wrapping. -/
theorem xformChecksInOrder : Obligations.XformChecksInOrder := by
  intro len s
  refine exec_rule admission_xform_eq firstRaise_xformChecks_operand fun t h => ?_
  refine h.check fun h => h.check fun h => h.lastCheck fun h => h.check fun h => h.check fun h => h.check fun h =>
    h.lastCheck ?_
  rintro ⟨-, hchk, rfl⟩
  obtain ⟨-, -, -, hmax⟩ := xformChecks_eq_none hchk
  rw [effectOf_xform, xformEffect_frame]
  exact ⟨⟨⟨fun _ => rfl, rfl⟩, rfl⟩, rfl, toNat_add_len64 hmax, rfl⟩

end Sys2Proof.Safety

/-! # Ending a session: FINAL, VERIFY, STNONCE, DISPOSE (44_commands.md R190 to R193) -/

namespace Sys2Proof.Safety

open Sys2Proof.Machine

section
variable {len : BitVec 16} {s : State} {m : MacState}

/-! ### FINAL -/

theorem admission_final_eq : admission .final s =
    if s.phase = .uninit then some .seqPhase else if s.mode.eng = .ctr ∨ s.mode.dir = .decrypt then some .seqMode
    else if s.phase ≠ .aad ∧ s.phase ≠ .xform then some .seqPhase else none :=
  admitSession_eq (by cases hd : s.mode.dir <;> simp [sessionAllows, hd])
    fun _ => by simp [phaseAllows, or_iff_not_imp_left]

/-- FINAL's response is the tag it computes (43_tag_compare.md R172). -/
theorem response_produceTag (E : Engines) (hob : s.obuf = []) : Response (produceTag E s) (tagCompute E s).1 :=
  response_respond (s := (tagCompute E s).2) hob (by rw [length_tagCompute]; exact s.cfg.legal.tagLen_le_obuf _ _)

/-- The accumulator after the length block (43_tag_compare.md R171). -/
theorem tagCompute_macst (E : Engines) (hm : s.macst = some m) :
    (tagCompute E s).2.macst = some { m with msg := m.msg ++ (le64 s.aadt ++ le64 s.ctt) } :=
  congrArg (macAbsorb · (lengthBlock s)) hm

/-! ### VERIFY -/

theorem admission_verify_eq : admission (.verify len) s =
    if s.phase = .uninit then some .seqPhase else if s.mode.eng = .ctr ∨ s.mode.dir = .encrypt then some .seqMode
    else if s.phase ≠ .aad ∧ s.phase ≠ .xform then some .seqPhase else none :=
  admitSession_eq (by cases hd : s.mode.dir <;> simp [sessionAllows, hd])
    fun _ => by simp [phaseAllows, or_iff_not_imp_left]

theorem firstRaise_verifyChecks : firstRaise (checksOf (.verify len) (clearBuffers s) (operand s)) =
    if s.icnt ≠ len then some .bufIn else if len.toNat ≠ (sessionVariant s).tagLen then some .bufTagLen else none := by
  rw [checksOf, firstRaise_operandCheck, firstRaise_decide, firstRaise_nil]
  simp only [length_operand_ne]
  rfl

theorem verifyChecks_eq_none (h : firstRaise (checksOf (.verify len) (clearBuffers s) (operand s)) = none) :
    s.icnt = len ∧ len.toNat = (sessionVariant s).tagLen := by
  rw [firstRaise_verifyChecks] at h
  split at h; · cases h
  next hn =>
  split at h; · cases h
  next hl => exact ⟨not_not.1 hn, not_not.1 hl⟩

/-- The comparator accepts an operand of TAGLEN bytes exactly when it is the tag of the transcript. -/
theorem ctEq_tagCompute_iff (E : Engines) {X : Bytes} (hm : s.macst = some m) (hX : X.length = (sessionVariant s).tagLen) :
    ctEq (tagCompute E s).1 X = true ↔ X = tagOf E s m := by
  rw [ctEq_iff (by rw [length_tagCompute, hX]), tagCompute_eq_tagOf E hm, eq_comm]

/-! ### STNONCE -/

theorem admission_stnonce_eq : admission .stnonce s =
    if s.phase = .uninit then some .seqPhase else if s.mode.eng ≠ .rcs then some .seqMode
    else if s.phase = .failed then some .seqPhase else none :=
  admitSession_eq (by simp [sessionAllows]) fun hu => by cases hp : s.phase <;> simp [phaseAllows, hp] at hu ⊢

/-- STNONCE's response is the counter block of a CTRB of its size (42_rcs.md R156). -/
theorem response_counterBlock (hob : s.obuf = []) (hc : s.ctrb.length = s.cfg.params.nonceCap) :
    (respond s (counterBlock s)).ocnt.toNat = blockLen s ∧
      ∀ a, Memory.read (respond s (counterBlock s)).obuf a = if a < blockLen s then s.ctrb.getD a 0 else 0 := by
  have hlen := length_counterBlock hc
  obtain ⟨hcnt, hbytes⟩ := response_respond hob (hlen.trans_le (blockLen_le_obufMax s))
  exact ⟨hcnt.trans hlen, fun a => (hbytes a).trans (getD_take ..)⟩

/-! ### DISPOSE -/

/-- DISPOSE is never refused. -/
theorem exec_dispose (s : State) : exec .dispose s = .next (zeroRegisters s) := exec_of_checks rfl rfl

theorem zeroRegisters_zeroRegisters (s : State) : zeroRegisters (zeroRegisters s) = zeroRegisters s := rfl

/-- The only word with DISPOSE's opcode that decodes has zeros below it (30_encoding.md R92). -/
theorem eq_dispose_of_decodeWord {cw : Word} {i : Instr} (hopc : opcField cw = 0x0A) (h : decodeWord cw = .ok i) :
    cw = 0x0A000000 := by
  obtain ⟨-, hop, -⟩ := decodeWord_eq_ok_iff_fields.1 h
  obtain ⟨-, hcw⟩ := decodeWord_eq_ok_iff.1 h
  cases i with
  | dispose => exact hcw.symm
  | ldkey | ldnonce | ldinfo | init | setaad | xform | final | verify | stnonce => cases hopc.symm.trans hop

end

/-- Settles O47: past admission FINAL has no check, and its response is the tag `tagCompute` makes. -/
theorem finalRule : Obligations.FinalRule := by
  intro s
  refine exec_rule admission_final_eq firstRaise_nil fun t h => ?_
  refine h.check fun h => h.check fun h => h.lastCheck ?_
  rintro ⟨-, -, rfl⟩
  have hresp := response_produceTag engines (s := clearBuffers s) rfl
  refine ⟨⟨⟨fun _ => rfl, rfl⟩, rfl⟩, rfl, hresp.1.trans (length_tagCompute ..), fun m hm => ⟨?_, ?_⟩, rfl⟩
  · have htag : (tagCompute engines (clearBuffers s)).1 = tagOf engines s m := tagCompute_eq_tagOf engines hm
    rwa [htag] at hresp
  · exact tagCompute_macst engines (s := clearBuffers s) hm

/-- Settles O49: past its checks VERIFY has the two outcomes of `compareTag_cases`, and the comparator tells which by
whether the operand is the tag. -/
theorem verifyRule : Obligations.VerifyRule := by
  intro len s
  refine exec_rule admission_verify_eq firstRaise_verifyChecks fun t h => ?_
  refine h.check fun h => h.check fun h => h.lastCheck fun h => h.check fun h => h.lastCheck ?_
  rintro ⟨-, hchk, rfl⟩
  obtain ⟨hn, hl⟩ := verifyChecks_eq_none hchk
  have hX : (operand s).length = (sessionVariant s).tagLen := by rw [length_operand, hn, hl]
  have htag : ∀ m, s.macst = some m →
      (ctEq (tagCompute engines (clearBuffers s)).1 (operand s) = true ↔ operand s = tagOf engines s m) :=
    fun _ hm => ctEq_tagCompute_iff engines (s := clearBuffers s) hm hX
  have hmac := fun m => tagCompute_macst engines (s := clearBuffers s) (m := m)
  rw [operandBytes_eq hn]
  rcases compareTag_cases engines (clearBuffers s) (operand s) with ⟨heq, hend⟩ | ⟨hne, hend⟩ <;> rw [effectOf, hend]
  · obtain ⟨hcnt, hbytes⟩ := response_releasePlaintext (s := (tagCompute engines (clearBuffers s)).2) rfl
    refine ⟨⟨fun _ => rfl, rfl⟩, fun _ => rfl, rfl, fun m hm => ⟨hmac m hm, ?_⟩, rfl⟩
    rw [if_pos ((htag m hm).1 heq)]
    refine ⟨rfl, rfl, rfl, rfl, rfl, fun a => (hbytes a).trans ?_⟩
    rw [Memory.readBytes_eq_map, getD_map_range, Nat.zero_add]
    rfl
  · refine ⟨⟨fun _ => rfl, rfl⟩, fun _ => rfl, rfl, fun m hm => ⟨hmac m hm, ?_⟩, rfl⟩
    rw [if_neg fun hx => by simp [(htag m hm).2 hx] at hne]
    exact ⟨rfl, rfl, rfl, rfl, rfl, fun _ => rfl⟩

/-- Settles O52: past admission STNONCE has no check, and its response is the counter block. -/
theorem stnonceRule : Obligations.StnonceRule := by
  intro s hc
  refine exec_rule admission_stnonce_eq firstRaise_nil fun t h => ?_
  refine h.check fun h => h.check fun h => h.lastCheck ?_
  rintro ⟨-, -, rfl⟩
  obtain ⟨hcnt, hbytes⟩ := response_counterBlock (s := clearBuffers s) rfl hc
  exact ⟨⟨⟨fun _ => rfl, rfl⟩, rfl⟩, hcnt, hbytes, rfl⟩

/-- Settles O53: DISPOSE zeroes the registers, which are then at their reset values; and a word with its opcode decodes
only if every other bit is 0. -/
theorem disposeRule : Obligations.DisposeRule := by
  refine ⟨fun s => ⟨_, exec_dispose s, atReset_zeroRegisters s, statusWord_zeroRegisters s, exec_dispose _⟩,
    fun cw hopc hrest => ?_⟩
  cases hd : decodeWord cw with
  | error e => exact ⟨e, rfl⟩
  | ok i =>
    rw [eq_dispose_of_decodeWord hopc hd] at hrest
    exact absurd rfl hrest

end Sys2Proof.Safety

/-! # Every command completes when its conditions hold (44_commands.md R181, R184 to R193) -/

namespace Sys2Proof.Safety

open Sys2Proof.Machine

section
variable {len : BitVec 16} {s t : State}

/-! ### What a successful XFORM delivers (44_commands.md R189) -/

/-- In a CTR or an encrypting session the transformed operand is the response. -/
theorem response_of_xform (hresp : s.mode.eng = .ctr ∨ s.mode.dir = .encrypt) (h : exec (.xform len) s = .next t)
    (herr : t.err = 0) (hc : s.ctrb.length = s.cfg.params.nonceCap) :
    Response t (transformed engines s (operandBytes s len.toNat)) := by
  obtain ⟨-, hchk, rfl⟩ := exec_succeeded h herr
  obtain ⟨hX, hfit, -, -⟩ := xformChecks_eq_none hchk
  have hout : (ctrXor engines (clearBuffers s) (operand s)).1 = transformed engines s (operand s) :=
    ctrXor_output engines (s := clearBuffers s) hc _
  rw [operandBytes_eq (icnt_of_length_operand hX), effectOf_xform,
    xformEffect_eq_respond engines len (s := clearBuffers s) _ hresp, hout]
  exact response_respond (s := afterTransform engines (clearBuffers s) (operand s)) rfl
    (by rw [length_transformed, hX]; exact hfit hresp)

/-- In a decrypting session there is no response, and the transformed operand is appended to HOLD. -/
theorem hold_of_xform (he : s.mode.eng ≠ .ctr) (hd : s.mode.dir = .decrypt) (h : exec (.xform len) s = .next t)
    (herr : t.err = 0) (hc : s.ctrb.length = s.cfg.params.nonceCap) :
    Response t [] ∧ t.hcnt.toNat = s.hcnt.toNat + len.toNat ∧
      (Memory.wf s.hold = true → ∀ a, Memory.read t.hold a =
        if s.hcnt.toNat ≤ a ∧ a < s.hcnt.toNat + len.toNat then
          (transformed engines s (operandBytes s len.toNat)).getD (a - s.hcnt.toNat) 0
        else Memory.read s.hold a) := by
  obtain ⟨-, hchk, rfl⟩ := exec_succeeded h herr
  obtain ⟨hX, -, hfit, -⟩ := xformChecks_eq_none hchk
  have hout : (ctrXor engines (clearBuffers s) (operand s)).1 = transformed engines s (operand s) :=
    ctrXor_output engines (s := clearBuffers s) hc _
  have hY : (transformed engines s (operand s)).length = len.toNat := (length_transformed ..).trans hX
  have hcnt := toNat_withhold_hcnt (s := afterTransform engines (clearBuffers s) (operand s))
    (B := transformed engines s (operand s)) (by rw [hY]; exact hfit he hd)
  have hhold := fun hwf a => Memory.read_writeBytes (transformed engines s (operand s)) s.hcnt.toNat a (M := s.hold) hwf
  rw [hY] at hcnt
  simp only [hY] at hhold
  rw [operandBytes_eq (icnt_of_length_operand hX), effectOf_xform,
    xformEffect_eq_withhold engines len (s := clearBuffers s) _ he hd, hout]
  exact ⟨⟨rfl, fun _ => rfl⟩, hcnt, hhold⟩

end

/-- Settles O54: each clause's conditions exclude the refusals of the command's rule, which leaves the rule's success;
XFORM's output is in `response_of_xform` and `hold_of_xform`. -/
theorem everyCommandCompletesWhenReady : Obligations.EveryCommandCompletesWhenReady := by
  refine ⟨?ldkey, ?ldnonce, ?ldinfo, ?init, ?setaad, ?xform, ?final, ?verify, ?stnonce, ?dispose⟩
  case ldkey =>
    intro len s hp hn hpos hfit
    obtain ⟨t, ht, hrule⟩ := ldkeyRule len s
    rw [if_neg (not_not.2 hp), if_neg (not_or.2 ⟨toNat_ne_zero_iff.1 (by omega), not_lt.2 hfit⟩),
      if_neg (not_not.2 hn)] at hrule
    obtain ⟨⟨-, herr⟩, -, hcount, -, -, hbytes, hframe⟩ := hrule
    exact ⟨t, ht, herr, hcount, (congrArg State.phase hframe :).trans hp, hbytes⟩
  case ldnonce =>
    intro len s hp hn hpos hfit
    obtain ⟨t, ht, hrule⟩ := ldnonceRule len s
    rw [if_neg (not_not.2 hp), if_neg (not_or.2 ⟨toNat_ne_zero_iff.1 (by omega), not_lt.2 hfit⟩),
      if_neg (not_not.2 hn)] at hrule
    obtain ⟨⟨-, herr⟩, -, hcount, -, -, hbytes, hframe⟩ := hrule
    exact ⟨t, ht, herr, hcount, (congrArg State.phase hframe :).trans hp, hbytes⟩
  case ldinfo =>
    intro len s hp hn hfit
    obtain ⟨t, ht, hrule⟩ := ldinfoRule len s
    rw [if_neg (not_not.2 hp), if_neg (not_lt.2 hfit), if_neg (not_not.2 hn)] at hrule
    obtain ⟨⟨-, herr⟩, -, hcount, -, -, hbytes, hframe⟩ := hrule
    exact ⟨t, ht, herr, hcount, (congrArg State.phase hframe :).trans hp, hbytes⟩
  case init =>
    intro eng cls dir ce kdf s hp hs hkdf hk hn hi
    have hchk := firstRaise_initChecks_of_legal (m := ⟨eng, cls, dir, ce, kdf⟩) (s := clearBuffers s) hs hkdf hk hn hi
    exact ⟨_, exec_init hp hchk, rfl, rfl, rfl, rfl, rfl, rfl, rfl, rfl, rfl⟩
  case setaad =>
    intro len s he hp hn hmax
    obtain ⟨t, ht, hrule⟩ := setaadRule len s
    rw [if_neg (by rintro hu; simp [hu] at hp), if_neg he, if_neg (by tauto), if_neg (not_lt.2 hmax),
      if_neg (not_not.2 hn)] at hrule
    obtain ⟨⟨-, herr⟩, -, hphase, haadt, hmac, -⟩ := hrule
    exact ⟨t, ht, herr, haadt, hphase, hmac⟩
  case xform =>
    intro len s hp hn hfit hmax
    obtain ⟨t, ht, hrule⟩ := xformChecksInOrder len s
    have hrespFit : ¬ ((s.mode.eng = .ctr ∨ s.mode.dir = .encrypt) ∧ s.cfg.params.obufMax < len.toNat) := by
      rintro ⟨hresp, hlt⟩
      rw [if_pos hresp] at hfit
      omega
    have hholdFit : ¬ (s.mode.eng ≠ .ctr ∧ s.mode.dir = .decrypt ∧
        s.cfg.params.obufMax < s.hcnt.toNat + len.toNat) := by
      rintro ⟨he, hd, hlt⟩
      rw [if_neg (by simp [he, hd])] at hfit
      omega
    rw [if_neg (by rintro hu; simp [hu] at hp), if_neg (by tauto), if_neg (by tauto), if_neg (not_not.2 hn),
      if_neg hrespFit, if_neg hholdFit, if_neg (not_le.2 hmax)] at hrule
    obtain ⟨⟨-, herr⟩, hphase, hctt, -⟩ := hrule
    refine ⟨t, ht, herr, hctt, hphase, fun hc => ?_⟩
    split
    · next hresp => exact response_of_xform hresp ht herr hc
    · next hresp =>
      obtain ⟨he, hd⟩ := decrypting_of_not_responding hresp
      exact hold_of_xform he hd ht herr hc
  case final =>
    intro s he hd hp
    obtain ⟨t, ht, hrule⟩ := finalRule s
    rw [if_neg (by rintro hu; simp [hu] at hp), if_neg (by simp [he, hd]), if_neg (by tauto)] at hrule
    obtain ⟨⟨-, herr⟩, hphase, hcnt, htag, -⟩ := hrule
    exact ⟨t, ht, herr, hcnt, hphase, fun m hm => (htag m hm).1⟩
  case verify =>
    intro len s m he hd hp hm hn hl htag
    obtain ⟨t, ht, hrule⟩ := verifyRule len s
    rw [if_neg (by rintro hu; simp [hu] at hp), if_neg (by simp [he, hd]), if_neg (by tauto), if_neg (not_not.2 hn),
      if_neg (not_not.2 hl)] at hrule
    obtain ⟨-, -, -, hcompared, -⟩ := hrule
    obtain ⟨-, hequal⟩ := hcompared m hm
    rw [if_pos htag] at hequal
    obtain ⟨herr, -, hauth, hphase, hcnt, hbytes⟩ := hequal
    exact ⟨t, ht, herr, hcnt, hbytes, hauth, hphase⟩
  case stnonce =>
    intro s he hp
    exact ⟨_, exec_of_checks (admission_stnonce.2 ⟨he, hp⟩) rfl, rfl, rfl, rfl,
      response_counterBlock (s := clearBuffers s) rfl⟩
  case dispose =>
    intro s
    exact ⟨_, exec_dispose s, rfl, atReset_zeroRegisters s⟩

end Sys2Proof.Safety

/-! # The codes a command ends with, and what a raise leaves (60_exceptions.md R221, R226) -/

namespace Sys2Proof.Safety

open Sys2Proof.Machine

theorem writeCmd_of_decodeWord_error {cw : Word} {e : DecodeError} (h : decodeWord cw = .error e) (s : State) :
    writeCmd cw s = .next (takeError .cfgIllegal (clearBuffers s)) := by
  rw [writeCmd_eq, h]
  rfl

/-- Settles O19: an effect ends with 0x00 or 0x30, so any other code is a refusal's, which is `takeError` on the cleared
buffers; an illegal word is refused the same way. -/
theorem failedCommandsChangeNothingElse : Obligations.FailedCommandsChangeNothingElse := by
  refine ⟨fun i s t h h0 h30 => ?_, fun cw e s t hd h => ?_⟩
  · rcases exec_refused_or_effect h with ⟨c, -, rfl⟩ | ⟨-, rfl⟩
    · exact refused_takeError c s
    · rcases err_effectOf i (clearBuffers s) (operand s) with herr | ⟨herr, -⟩
      · exact absurd herr h0
      · exact absurd herr h30
  · cases (writeCmd_of_decodeWord_error hd s).symm.trans h
    exact refused_takeError .cfgIllegal s

theorem zero_mem_codesOf (i : Instr) : 0 ∈ codesOf i := by
  cases i <;> exact List.mem_cons_self

section
variable {i : Instr} {s : State} {c : ErrCode}

/-- DISPOSE is always admitted, and XFORM is in every engine's and direction's column. -/
theorem errByte_mem_codesOf_of_admission (h : admission i s = some c) : errByte c ∈ codesOf i := by
  rcases admission_code h with rfl | rfl
  · cases i with
    | dispose => cases h
    | ldkey | ldnonce | ldinfo | init | setaad | xform | final | verify | stnonce => simp [codesOf, errByte]
  · obtain ⟨hsession, -, hcolumn⟩ := admission_eq_seqMode.1 h
    cases i with
    | xform => cases he : s.mode.eng <;> simp [EngineAndDirColumn, he] at hcolumn
    | ldkey | ldnonce | ldinfo | init | dispose => cases hsession
    | setaad | final | verify | stnonce => simp [codesOf, errByte]

theorem errByte_mem_codesOf_of_mem_checksOf {X : Bytes} : ∀ p ∈ checksOf i s X, errByte p.2 ∈ codesOf i := by
  cases i with
  | ldkey | ldnonce | ldinfo | setaad | verify => simp [checksOf, operandCheck, codesOf, errByte]
  | init => simp [checksOf, initChecks, codesOf, errByte]
  | xform => simp [checksOf, xformChecks, operandCheck, codesOf, errByte]
  | final | stnonce | dispose => simp [checksOf]

end

/-- Settles O23, by the three outcomes of a command: admission's code, a check's code, or the effect's 0x00 or, for VERIFY,
0x30. -/
theorem codesEachCommandCanEndWith : Obligations.CodesEachCommandCanEndWith := by
  intro i s t h
  rcases exec_cases h with ⟨c, ha, rfl⟩ | ⟨c, -, hc, rfl⟩ | ⟨-, -, rfl⟩
  · exact errByte_mem_codesOf_of_admission ha
  · exact errByte_mem_codesOf_of_mem_checksOf _ (firstRaise_mem hc)
  · rcases err_effectOf i (clearBuffers s) (operand s) with herr | ⟨herr, len, rfl⟩ <;> rw [herr]
    · exact zero_mem_codesOf i
    · simp [codesOf]

end Sys2Proof.Safety
